-- ==== Sys2Proof/Word.lean ====
section
/-! DEFINITION. The machine's words (R2, R3): 16-bit words, 8-bit bytes, the 4-bit fields of an instruction word, and the
8-bit opcode field. All register and address arithmetic is `BitVec` arithmetic, so it is modulo 2^16 (R3, decision D6).
The bit-field, sign-extension and byte-order helpers stand in Machine/Bits.lean. -/

namespace Sys2Proof

/-- A 16-bit word: data, an address, an instruction word (R2). -/
abbrev Word := BitVec 16

/-- An 8-bit byte (R2). -/
abbrev Byte := BitVec 8

/-- A 4-bit field of an instruction word (R70). -/
abbrev Nibble := BitVec 4

end Sys2Proof
end

