-- ==== Sys2Proof/Machine/Bits.lean ====
section
/-! DEFINITION. Bit fields, byte order and extension (R3, R42, R70): the helpers the decoder, the encoder and the machine
share. -/

namespace Sys2Proof.Machine

/-- Bits 15:8 of a word: the byte at the even address (R42). -/
def hiByte (w : Word) : Byte := w.extractLsb' 8 8

/-- Bits 7:0 of a word: the byte at the odd address (R42). -/
def loByte (w : Word) : Byte := w.extractLsb' 0 8

/-- The word whose byte at "+0" is `hi` and at "+1" is `lo` (R42, big-endian). -/
def joinBytes (hi lo : Byte) : Word := hi ++ lo

/-- `zext_16` of a byte (R3, R45). -/
def zextByte (b : Byte) : Word := b.zeroExtend 16

/-- `sext_16` of a 4-bit field (R3, R83, R85). -/
def sextNibble (n : Nibble) : Word := n.signExtend 16

/-- An odd address, at which no word can stand (R40, R46). -/
def isOdd (a : Word) : Bool := a.getLsbD 0

/-- The OP field of a first word, bits 15:8 (R70). -/
def opField (w : Word) : Byte := w.extractLsb' 8 8

/-- The Rd field of a first word, bits 7:4 (R70). -/
def rdField (w : Word) : Nibble := w.extractLsb' 4 4

/-- The Rx field of a first word, bits 3:0: Rx, Rs, D4 or I4 (R70). -/
def rxField (w : Word) : Nibble := w.extractLsb' 0 4

/-- The first word made of its three fields (R70). -/
def firstWord (op : Byte) (rd rx : Nibble) : Word := op ++ rd ++ rx

end Sys2Proof.Machine
end

