-- ==== Sys2Proof/Syntax/Forms.lean ====
section
/-! DEFINITION. Register numbers (R12) and the operand forms (R72, R80 to R88). Each operand type holds exactly the forms
the opcode map (R74) gives the instructions that take it, so a row of the opcode table is a constructor of `Instr`
together with a form, and a form an instruction does not have cannot be written. -/

namespace Sys2Proof

/-- The sixteen register numbers of the fields Rd, Rs and Rx (R12), in the order 0h to Fh. `sp` is the banked stack
pointer: SSP when FLAG.P = 1, USP when FLAG.P = 0 (R13). -/
inductive Reg where
  | g0 | g1 | g2 | g3 | g4 | g5 | g6 | g7 | g8 | g9 | g10 | g11
  | fp | sp | usp | flag
deriving DecidableEq, Repr

/-- The operand forms that name a memory address: tags *0, *1, *3, *6 and *7 of R72. -/
inductive MemForm where
  /-- Direct, OP+0, address Dsp (R80). -/
  | direct (dsp : Word)
  /-- Indexed, OP+1, address Dsp + Rx (R81). -/
  | indexed (dsp : Word) (rx : Reg)
  /-- FP relative, OP+3, address FP + 2 * D4 sign-extended (R83). -/
  | fpRel (d4 : Nibble)
  /-- Register indirect, OP+6, the word at the address in Rx (R86). -/
  | indirect (rx : Reg)
  /-- Byte register indirect, OP+7, the byte at the address in Rx (R87). -/
  | byteIndirect (rx : Reg)
deriving DecidableEq, Repr

/-- All eight operand forms, as LD and the fourteen flag-changing instructions take them (R74, R80 to R87). -/
inductive Operand where
  /-- A memory operand. -/
  | mem (m : MemForm)
  /-- Immediate, OP+2, the second word itself (R82). -/
  | imm (imm : Word)
  /-- Register, OP+4, the content of Rs (R84). -/
  | reg (rs : Reg)
  /-- 4-bit signed immediate, OP+5 (R85). -/
  | imm4 (i4 : Nibble)
deriving DecidableEq, Repr

/-- The two forms of a jump or CALL target (R140, R156). -/
inductive Target where
  /-- Direct, OP+0: the target is Dsp. -/
  | direct (dsp : Word)
  /-- Indexed, OP+1: the target is Dsp + Rx. -/
  | indexed (dsp : Word) (rx : Reg)
deriving DecidableEq, Repr

/-- The two forms of an IN or OUT port address (R170). -/
inductive Port where
  /-- Direct, OP+0: the port is Dsp. -/
  | direct (dsp : Word)
  /-- Register indirect, OP+6: the port is the content of Rx. -/
  | indirect (rx : Reg)
deriving DecidableEq, Repr

end Sys2Proof
end

