-- ==== Sys2Proof/Syntax.lean ====
section
/-! DEFINITION. The 41 instructions of TaC (R1, R74). spec/opcode_table.json has one row per instruction and operand
form: each row is one constructor here with one form of its operand (Syntax/Forms.lean). -/

namespace Sys2Proof

/-- An instruction of TaC. -/
inductive Instr where
  /-- NO, No Operation (R100). -/
  | no
  /-- LD, Load (R101). -/
  | ld (rd : Reg) (src : Operand)
  /-- ST, Store (R102). -/
  | st (rd : Reg) (dst : MemForm)
  /-- ADD, Add (R111). -/
  | add (rd : Reg) (src : Operand)
  /-- SUB, Subtract (R112). -/
  | sub (rd : Reg) (src : Operand)
  /-- CMP, Compare (R113). -/
  | cmp (rd : Reg) (src : Operand)
  /-- AND, Logical And (R114). -/
  | and (rd : Reg) (src : Operand)
  /-- OR, Logical Or (R115). -/
  | or (rd : Reg) (src : Operand)
  /-- XOR, Logical Xor (R116). -/
  | xor (rd : Reg) (src : Operand)
  /-- ADDS, Add with Scale (R117). -/
  | adds (rd : Reg) (src : Operand)
  /-- MUL, Multiply (R118). -/
  | mul (rd : Reg) (src : Operand)
  /-- DIV, Divide (R119). -/
  | div (rd : Reg) (src : Operand)
  /-- MOD, Modulo (R120). -/
  | mod (rd : Reg) (src : Operand)
  /-- SHLA, Shift Left Arithmetic (R131). -/
  | shla (rd : Reg) (src : Operand)
  /-- SHLL, Shift Left Logical (R132). -/
  | shll (rd : Reg) (src : Operand)
  /-- SHRA, Shift Right Arithmetic (R133). -/
  | shra (rd : Reg) (src : Operand)
  /-- SHRL, Shift Right Logical (R134). -/
  | shrl (rd : Reg) (src : Operand)
  /-- JZ, Jump on Zero (R141). -/
  | jz (t : Target)
  /-- JC, Jump on Carry (R142). -/
  | jc (t : Target)
  /-- JM, Jump on Minus (R143). -/
  | jm (t : Target)
  /-- JO, Jump on Overflow (R144). -/
  | jo (t : Target)
  /-- JGT, Jump on greater than (R145). -/
  | jgt (t : Target)
  /-- JGE, Jump on greater or equal (R146). -/
  | jge (t : Target)
  /-- JLE, Jump on less or equal (R147). -/
  | jle (t : Target)
  /-- JLT, Jump on less than (R148). -/
  | jlt (t : Target)
  /-- JNZ, Jump on Non Zero (R149). -/
  | jnz (t : Target)
  /-- JNC, Jump on Non Carry (R150). -/
  | jnc (t : Target)
  /-- JNM, Jump on Non Minus (R151). -/
  | jnm (t : Target)
  /-- JNO, Jump on Non Overflow (R152). -/
  | jno (t : Target)
  /-- JHI, Jump on higher (R153). -/
  | jhi (t : Target)
  /-- JLS, Jump on lower or same (R154). -/
  | jls (t : Target)
  /-- JMP, Jump (R155). -/
  | jmp (t : Target)
  /-- CALL, Call subroutine (R156). -/
  | call (t : Target)
  /-- IN, Input (R171). -/
  | inPort (rd : Reg) (p : Port)
  /-- OUT, Output (R172). -/
  | outPort (rd : Reg) (p : Port)
  /-- PUSH, Push Register (R181). -/
  | push (rd : Reg)
  /-- POP, Pop Register (R182). -/
  | pop (rd : Reg)
  /-- RET, Return from Subroutine (R183). -/
  | ret
  /-- RETI, Return from Interrupt (R184). -/
  | reti
  /-- SVC, Supervisor Call (R190). -/
  | svc
  /-- HALT, Halt (R191). -/
  | halt
deriving DecidableEq, Repr

end Sys2Proof
end

