-- ==== Sys2Proof/Decode.lean ====
section
/-! DEFINITION. Decoding and encoding (R70 to R79, R12). The decoder is total on any word and rejects by name; it works in
two stages, as R89 orders them: the first word decides everything but the displacement or immediate, which a second word
supplies. The encoder stands after it, written from the same tables. -/

namespace Sys2Proof

open Sys2Proof.Machine

/-- Why a word is not decoded. -/
inductive Reject where
  /-- OP is an empty cell of the opcode map: executing it raises UndefinedInstruction (R75). -/
  | undefinedOpcode
  /-- A field the format fixes has another value (R76); the spec refuses it. -/
  | reservedField
  /-- The jump condition Dh (R77); the spec refuses it. -/
  | jumpCondition
  /-- OP = B7h or BFh (R79); the spec refuses it. -/
  | contestedOpcode
deriving DecidableEq, Repr

/-- Why a list of bytes is not decoded. -/
inductive BytesReject where
  /-- The word at its head is rejected. -/
  | rejected (r : Reject)
  /-- The bytes end before the instruction does. -/
  | truncated
deriving DecidableEq, Repr

/-- What a first word says: the whole instruction, or the instruction but for its second word. -/
inductive FirstWord where
  | complete (i : Instr)
  | needsSecond (finish : Word → Instr)

/-- The register of a 4-bit field (R12). -/
def Reg.ofNibble (n : Nibble) : Reg :=
  match n.toNat with
  | 0 => .g0 | 1 => .g1 | 2 => .g2 | 3 => .g3 | 4 => .g4 | 5 => .g5 | 6 => .g6 | 7 => .g7
  | 8 => .g8 | 9 => .g9 | 10 => .g10 | 11 => .g11 | 12 => .fp | 13 => .sp | 14 => .usp | _ => .flag

/-- The 4-bit field of a register (R12). -/
def Reg.toNibble : Reg → Nibble
  | .g0 => 0 | .g1 => 1 | .g2 => 2 | .g3 => 3 | .g4 => 4 | .g5 => 5 | .g6 => 6 | .g7 => 7
  | .g8 => 8 | .g9 => 9 | .g10 => 10 | .g11 => 11 | .fp => 12 | .sp => 13 | .usp => 14 | .flag => 15

/-- The register the Rd field names. -/
def rdReg (w : Word) : Reg := Reg.ofNibble (rdField w)

/-- The register the Rx field names. -/
def rxReg (w : Word) : Reg := Reg.ofNibble (rxField w)

/-- The lower three bits of OP: the operand form (R71). -/
def formOf (w : Word) : Nat := (opField w).toNat % 8

/-- The upper five bits of OP: the row of the opcode map (R71). -/
def rowOf (w : Word) : Nat := (opField w).toNat / 8

/-- The format fixes Rx = 0h (R76). -/
def rxZero (w : Word) (r : FirstWord) : Except Reject FirstWord :=
  if rxField w = 0 then .ok r else .error .reservedField

/-- The format fixes the whole word (R76, tag *9 and RETI). -/
def wholeWord (w pattern : Word) (i : Instr) : Except Reject FirstWord :=
  if w = pattern then .ok (.complete i) else .error .reservedField

/-- The five memory forms, by OP[2:0] (R74, R80, R81, R83, R86, R87). -/
def decodeMem (w : Word) (k : MemForm → Instr) : Except Reject FirstWord :=
  match formOf w with
  | 0 => rxZero w (.needsSecond fun d => k (.direct d))
  | 1 => .ok (.needsSecond fun d => k (.indexed d (rxReg w)))
  | 3 => .ok (.complete (k (.fpRel (rxField w))))
  | 6 => .ok (.complete (k (.indirect (rxReg w))))
  | 7 => .ok (.complete (k (.byteIndirect (rxReg w))))
  | _ => .error .undefinedOpcode

/-- All eight forms, by OP[2:0] (R74, R80 to R87). -/
def decodeOperand (w : Word) (k : Operand → Instr) : Except Reject FirstWord :=
  match formOf w with
  | 2 => rxZero w (.needsSecond fun d => k (.imm d))
  | 4 => .ok (.complete (k (.reg (rxReg w))))
  | 5 => .ok (.complete (k (.imm4 (rxField w))))
  | _ => decodeMem w fun m => k (.mem m)

/-- The two forms of a jump or CALL (R140, R156). -/
def decodeTarget (w : Word) (k : Target → Instr) : Except Reject FirstWord :=
  match formOf w with
  | 0 => rxZero w (.needsSecond fun d => k (.direct d))
  | 1 => .ok (.needsSecond fun d => k (.indexed d (rxReg w)))
  | _ => .error .undefinedOpcode

/-- The two forms of IN and OUT, and the contested one (R170, R79). -/
def decodePort (w : Word) (k : Port → Instr) : Except Reject FirstWord :=
  match formOf w with
  | 0 => rxZero w (.needsSecond fun d => k (.direct d))
  | 6 => .ok (.complete (k (.indirect (rxReg w))))
  | 7 => .error .contestedOpcode
  | _ => .error .undefinedOpcode

/-- The jumps of OP = A0h and A1h, told apart by the condition code in the Rd field (R77); Dh names none. -/
def jumpOf (cc : Nibble) : Option (Target → Instr) :=
  match cc.toNat with
  | 0 => some .jz | 1 => some .jc | 2 => some .jm | 3 => some .jo | 4 => some .jgt | 5 => some .jge | 6 => some .jle
  | 7 => some .jlt | 8 => some .jnz | 9 => some .jnc | 10 => some .jnm | 11 => some .jno | 12 => some .jhi
  | 13 => none | 14 => some .jls | _ => some .jmp

/-- A jump, or the rejection of the condition Dh (R77). -/
def decodeJump (w : Word) : Except Reject FirstWord :=
  match jumpOf (rdField w) with
  | some k => decodeTarget w k
  | none => if formOf w ≤ 1 then .error .jumpCondition else .error .undefinedOpcode

/-- CALL: its Rd field is 0h (R156, R76). -/
def decodeCall (w : Word) : Except Reject FirstWord :=
  if rdField w = 0 ∨ 1 < formOf w then decodeTarget w .call else .error .reservedField

/-- The opcode map (R74): the row by OP[7:3], the cell by OP[2:0]; an empty cell is undefined (R75). -/
def decodeFirst (w : Word) : Except Reject FirstWord :=
  let rd := rdReg w
  match rowOf w with
  | 0 => if formOf w = 0 then wholeWord w 0x0000 .no else .error .undefinedOpcode
  | 1 => decodeOperand w (.ld rd)
  | 2 => decodeMem w (.st rd)
  | 3 => decodeOperand w (.add rd)
  | 4 => decodeOperand w (.sub rd)
  | 5 => decodeOperand w (.cmp rd)
  | 6 => decodeOperand w (.and rd)
  | 7 => decodeOperand w (.or rd)
  | 8 => decodeOperand w (.xor rd)
  | 9 => decodeOperand w (.adds rd)
  | 10 => decodeOperand w (.mul rd)
  | 11 => decodeOperand w (.div rd)
  | 12 => decodeOperand w (.mod rd)
  | 16 => decodeOperand w (.shla rd)
  | 17 => decodeOperand w (.shll rd)
  | 18 => decodeOperand w (.shra rd)
  | 19 => decodeOperand w (.shrl rd)
  | 20 => decodeJump w
  | 21 => decodeCall w
  | 22 => decodePort w (.inPort rd)
  | 23 => decodePort w (.outPort rd)
  | 24 =>
    match formOf w with
    | 0 => rxZero w (.complete (.push rd))
    | 4 => rxZero w (.complete (.pop rd))
    | _ => .error .undefinedOpcode
  | 26 =>
    match formOf w with
    | 0 => wholeWord w 0xD000 .ret
    | 4 => wholeWord w 0xD4F0 .reti
    | _ => .error .undefinedOpcode
  | 30 => if formOf w = 0 then wholeWord w 0xF000 .svc else .error .undefinedOpcode
  | 31 => if formOf w = 7 then wholeWord w 0xFF00 .halt else .error .undefinedOpcode
  | _ => .error .undefinedOpcode

/-- The instruction of a first word and the word after it, which a one-word instruction does not look at. -/
def decode (w1 w2 : Word) : Except Reject Instr :=
  match decodeFirst w1 with
  | .error r => .error r
  | .ok (.complete i) => .ok i
  | .ok (.needsSecond finish) => .ok (finish w2)

/-- The instruction at the head of a list of bytes, and the bytes after it (R42: each word has its upper byte first). -/
def decodeBytes : List Byte → Except BytesReject (Instr × List Byte)
  | b0 :: b1 :: rest =>
    match decodeFirst (joinBytes b0 b1) with
    | .error r => .error (.rejected r)
    | .ok (.complete i) => .ok (i, rest)
    | .ok (.needsSecond finish) =>
      match rest with
      | b2 :: b3 :: rest' => .ok (finish (joinBytes b2 b3), rest')
      | _ => .error .truncated
  | _ => .error .truncated

/-- A word as the memory holds it, the byte at the lower address first (R42). -/
def wordBytes (w : Word) : List Byte := [hiByte w, loByte w]

/-- The two words of an instruction given as a number whose bits 15:0 are the first word and 31:16 the second, every bit
above `nbits` zero. -/
def tableWords (nbits w : Nat) : Word × Word :=
  let v := w % 2 ^ nbits
  (BitVec.ofNat 16 v, BitVec.ofNat 16 (v / 65536))

/-- The instruction the decoder reads from the bytes of those words. -/
def decodeTableWord (nbits w : Nat) : Option Instr :=
  let ws := tableWords nbits w
  match decodeBytes (wordBytes ws.1 ++ wordBytes ws.2) with
  | .ok (i, _) => some i
  | .error _ => none

/-! The encoder. -/

/-- The words of a memory form: `base` is the base opcode (R71). -/
def encodeMem (base : Byte) (rd : Reg) : MemForm → List Word
  | .direct d => [firstWord base rd.toNibble 0, d]
  | .indexed d rx => [firstWord (base + 1) rd.toNibble rx.toNibble, d]
  | .fpRel d4 => [firstWord (base + 3) rd.toNibble d4]
  | .indirect rx => [firstWord (base + 6) rd.toNibble rx.toNibble]
  | .byteIndirect rx => [firstWord (base + 7) rd.toNibble rx.toNibble]

/-- The words of an operand form. -/
def encodeOperand (base : Byte) (rd : Reg) : Operand → List Word
  | .mem m => encodeMem base rd m
  | .imm d => [firstWord (base + 2) rd.toNibble 0, d]
  | .reg rs => [firstWord (base + 4) rd.toNibble rs.toNibble]
  | .imm4 i4 => [firstWord (base + 5) rd.toNibble i4]

/-- The words of a jump or CALL: `code` is the condition code, or 0h for CALL. -/
def encodeTarget (base : Byte) (code : Nibble) : Target → List Word
  | .direct d => [firstWord base code 0, d]
  | .indexed d rx => [firstWord (base + 1) code rx.toNibble, d]

/-- The words of an IN or OUT. -/
def encodePort (base : Byte) (rd : Reg) : Port → List Word
  | .direct d => [firstWord base rd.toNibble 0, d]
  | .indirect rx => [firstWord (base + 6) rd.toNibble rx.toNibble]

/-- The words of an instruction (R72, R74, R77). -/
def encode : Instr → List Word
  | .no => [firstWord 0x00 0 0]
  | .ld rd src => encodeOperand 0x08 rd src
  | .st rd dst => encodeMem 0x10 rd dst
  | .add rd src => encodeOperand 0x18 rd src
  | .sub rd src => encodeOperand 0x20 rd src
  | .cmp rd src => encodeOperand 0x28 rd src
  | .and rd src => encodeOperand 0x30 rd src
  | .or rd src => encodeOperand 0x38 rd src
  | .xor rd src => encodeOperand 0x40 rd src
  | .adds rd src => encodeOperand 0x48 rd src
  | .mul rd src => encodeOperand 0x50 rd src
  | .div rd src => encodeOperand 0x58 rd src
  | .mod rd src => encodeOperand 0x60 rd src
  | .shla rd src => encodeOperand 0x80 rd src
  | .shll rd src => encodeOperand 0x88 rd src
  | .shra rd src => encodeOperand 0x90 rd src
  | .shrl rd src => encodeOperand 0x98 rd src
  | .jz t => encodeTarget 0xA0 0x0 t
  | .jc t => encodeTarget 0xA0 0x1 t
  | .jm t => encodeTarget 0xA0 0x2 t
  | .jo t => encodeTarget 0xA0 0x3 t
  | .jgt t => encodeTarget 0xA0 0x4 t
  | .jge t => encodeTarget 0xA0 0x5 t
  | .jle t => encodeTarget 0xA0 0x6 t
  | .jlt t => encodeTarget 0xA0 0x7 t
  | .jnz t => encodeTarget 0xA0 0x8 t
  | .jnc t => encodeTarget 0xA0 0x9 t
  | .jnm t => encodeTarget 0xA0 0xA t
  | .jno t => encodeTarget 0xA0 0xB t
  | .jhi t => encodeTarget 0xA0 0xC t
  | .jls t => encodeTarget 0xA0 0xE t
  | .jmp t => encodeTarget 0xA0 0xF t
  | .call t => encodeTarget 0xA8 0x0 t
  | .inPort rd p => encodePort 0xB0 rd p
  | .outPort rd p => encodePort 0xB8 rd p
  | .push rd => [firstWord 0xC0 rd.toNibble 0]
  | .pop rd => [firstWord 0xC4 rd.toNibble 0]
  | .ret => [firstWord 0xD0 0 0]
  | .reti => [firstWord 0xD4 0xF 0]
  | .svc => [firstWord 0xF0 0 0]
  | .halt => [firstWord 0xFF 0 0]

/-- The bytes of an instruction as they stand in memory (R42). -/
def encodeBytes (i : Instr) : List Byte := (encode i).flatMap wordBytes

/-! Lengths (R73). -/

/-- Whether a memory form has a second word. -/
def MemForm.isLong : MemForm → Bool
  | .direct _ | .indexed _ _ => true
  | .fpRel _ | .indirect _ | .byteIndirect _ => false

/-- Whether an operand form has a second word. -/
def Operand.isLong : Operand → Bool
  | .mem m => m.isLong
  | .imm _ => true
  | .reg _ | .imm4 _ => false

/-- Whether a port form has a second word. -/
def Port.isLong : Port → Bool
  | .direct _ => true
  | .indirect _ => false

/-- Whether an instruction has two words (R73): the forms 0, 1 and 2, which for jumps and CALL are all they have. -/
def Instr.isLong : Instr → Bool
  | .ld _ src | .add _ src | .sub _ src | .cmp _ src | .and _ src | .or _ src | .xor _ src | .adds _ src | .mul _ src
  | .div _ src | .mod _ src | .shla _ src | .shll _ src | .shra _ src | .shrl _ src => src.isLong
  | .st _ dst => dst.isLong
  | .inPort _ p | .outPort _ p => p.isLong
  | .jz _ | .jc _ | .jm _ | .jo _ | .jgt _ | .jge _ | .jle _ | .jlt _ | .jnz _ | .jnc _ | .jnm _ | .jno _ | .jhi _
  | .jls _ | .jmp _ | .call _ => true
  | .no | .push _ | .pop _ | .ret | .reti | .svc | .halt => false

end Sys2Proof
end

