-- ==== Sys2Proof/Config.lean ====
section
/-! DEFINITION. The parameters of R2 and the free values. A parameter the spec leaves OPEN, and every value it calls a
`draw`, is an opaque constant: nothing can be proved of its value, so what is proved holds for every choice. The two
constants with a value are the reset entry (log 3) and what an unwritten byte of memory reads as (log 4). The types the
parameters speak of stand first. -/

namespace Sys2Proof

/-- The ten interrupt sources (R200, R205). -/
inductive Irq where
  | timer0 | timer1 | rn4020Recv | rn4020Send | ft232rlRecv | ft232rlSend | tecRecv | tecSend | microSd | pio
deriving DecidableEq, Repr

/-- The kinds of memory access address translation tells apart (R59). -/
inductive AccessKind where
  | fetch | read | write
deriving DecidableEq, Repr

/-- A TLB entry (R57). Bits 14 and 13 of the lower word hold nothing: they read as a draw and ignore writes. -/
structure TlbEntry where
  /-- PAGE, bits 23:16. -/
  page : Byte
  /-- V, bit 15: Valid. -/
  valid : Bool
  /-- R, bit 12: Reference. -/
  referenced : Bool
  /-- D, bit 11: Dirty. -/
  dirty : Bool
  /-- R of R/W/X, bit 10. -/
  canRead : Bool
  /-- W of R/W/X, bit 9. -/
  canWrite : Bool
  /-- X of R/W/X, bit 8. -/
  canExec : Bool
  /-- FRAME, bits 7:0. -/
  frame : Byte
deriving DecidableEq, Repr, Inhabited

/-- The eight TLB entries (R56). -/
abbrev Tlb := Vector TlbEntry 8

/-- What address translation answers of an access (R57, R59): a frame for the access's page of 256 bytes, or one of the two
exceptions of the MMU. The address and the page they record are the access's own (R58). -/
inductive Translation where
  | frame (f : Byte)
  /-- No valid entry for the page (R202). -/
  | tlbMiss
  /-- Memory protection violation, with the two cause bits of A4h (R203). -/
  | violation (badAddr memVio : Bool)
deriving DecidableEq, Repr, Inhabited

/-- The four shifts (R130). -/
inductive ShiftOp where
  | shla | shll | shra | shrl
deriving DecidableEq, Repr

/-- The choices of savedPcOther (R216): the address of the instruction or of the next one. -/
inductive SavedPcOther where
  | pc0 | pcn
deriving DecidableEq, Repr, Inhabited

/-- The choices of savedPcUndef (R216). -/
inductive SavedPcUndef where
  | pc0 | pc0Plus2 | pc0Plus4
deriving DecidableEq, Repr, Inhabited

/-- DESIGN CHOICE (log 3), unsafe: the parameter resetPC at the value R34 and R261 suggest. -/
def Config.resetPC : Word := 0xE000

/-- DESIGN CHOICE (log 4), unsafe: what a byte of memory reads as that nothing has written (R34 calls it a draw). -/
def Config.unlistedByte : Byte := 0

/-- Free value (R31, D8; log 7), safe: the bit V takes at a draw, by the number of draws before it. -/
opaque Config.drawV : Nat → Bool

/-- Free value (R31, D8; log 7), safe: the bit C takes at a draw. -/
opaque Config.drawC : Nat → Bool

/-- Free value (R48, D35; log 8), safe: the word a device supplies to a read of a port, before the layout is applied. -/
opaque Config.ioDraw : Nat → Word → Word

/-- Free value (R130, D10; log 14), safe: the result of the parameter shiftBig for the operation, the value and the count. -/
opaque Config.shiftBig : ShiftOp → Word → Word → Word

/-- Free value (R119, R120, D11; log 15), safe: the parameter divmod, quotient and remainder. -/
opaque Config.divmod : Word → Word → Word × Word

/-- Free value (R216, D19; log 16), safe: the parameter savedPcOther, one constant of the machine. -/
opaque Config.savedPcOther : SavedPcOther

/-- Free value (R216, D19; log 16), safe: the parameter savedPcUndef, one constant of the machine. -/
opaque Config.savedPcUndef : SavedPcUndef

/-- Free value (R73, R216; log 13), safe: whether an instruction whose first word could not be fetched counts as two
words long, for the saved PC `pcn` of the MMU exception. -/
opaque Config.unfetchedLong : Bool

/-- Free value (R213, D21; log 17), safe: the source proposed at a boundary, if any; it is taken only where R210 allows
it. -/
opaque Config.irqPick : Nat → Option Irq

/-- Free value (R59, D30; log 11): the parameter translate, of FLAG.P, the kind of access, the address and the TLB. -/
opaque Config.translate : Bool → AccessKind → Word → Tlb → Translation

/-- Free value (R59, D30; log 11): whether a word written to A2h leaves the MMU switched on. -/
opaque Config.mmuEnable : Word → Bool

/-- Free value (R58, R209; log 12), safe: whether reading A2h, A4h or A6h clears what it reads. -/
opaque Config.mmuReadClears : Word → Bool

/-- Free value (R61, D35; log 19), safe: the bytes a running microSD transfer writes at a boundary. -/
opaque Config.dmaWrites : Nat → List (Word × Byte)

end Sys2Proof
end

