-- ==== Sys2Proof/Machine/State.lean ====
section
/-! DEFINITION. The state of the machine (R10 to R34, R56 to R60, R244 to R252), as plain data; the reasons a step can stop;
and the state after reset. INVENTORY.md lists every field with its rule and its reset value. -/

namespace Sys2Proof.Machine

/-- Memory (R32, R40): the bytes that differ from `Config.unlistedByte`, by rising address. -/
abbrev Memory := List Host.Cell

/-- The physical registers but PC and FLAG (R10, R11). -/
structure Regs where
  g0 : Word
  g1 : Word
  g2 : Word
  g3 : Word
  g4 : Word
  g5 : Word
  g6 : Word
  g7 : Word
  g8 : Word
  g9 : Word
  g10 : Word
  g11 : Word
  /-- The frame pointer, G12. -/
  fp : Word
  /-- The system stack pointer, register Dh in privileged mode. -/
  ssp : Word
  /-- The user stack pointer, register Eh, and Dh in user mode. -/
  usp : Word
deriving DecidableEq, Repr

/-- FLAG (R19): the eight bits that hold state. Bits 15:8 read as zero and ignore writes (R20). -/
structure Flag where
  /-- E, bit 7: interrupt enable (R22). -/
  e : Bool
  /-- P, bit 6: privileged mode (R23). -/
  p : Bool
  /-- I, bit 5: I/O privileged mode (R24). -/
  i : Bool
  /-- U, bit 4: user defined (R25). -/
  u : Bool
  /-- V, bit 3: overflow (R26). -/
  v : Bool
  /-- C, bit 2: carry (R27). -/
  c : Bool
  /-- S, bit 1: sign (R28). -/
  s : Bool
  /-- Z, bit 0: zero (R29). -/
  z : Bool
deriving DecidableEq, Repr

/-- The interrupt request lines (R33, R205, R211): levels supplied by the devices. -/
structure IrqLines where
  timer0 : Bool
  timer1 : Bool
  rn4020Recv : Bool
  rn4020Send : Bool
  ft232rlRecv : Bool
  ft232rlSend : Bool
  tecRecv : Bool
  tecSend : Bool
  microSd : Bool
  pio : Bool
deriving DecidableEq, Repr

/-- The IPL overlay (R60): the bytes read in place of memory while the IPL is attached. -/
structure Ipl where
  /-- The parameter iplOverlay, held as data so that a statement about every state holds for every overlay (log 5). -/
  image : List Host.Cell
  /-- A0h bit 0 has not been written with 1. -/
  attached : Bool
deriving DecidableEq, Repr

/-- The MMU registers (R56 to R59). -/
structure Mmu where
  /-- Translation is on (R59). -/
  on : Bool
  /-- The word last written to A2h. -/
  ctl : Word
  /-- The TLB, 80h to 9Eh. -/
  tlb : Tlb
  /-- A2h on input: the violating address. -/
  violAddr : Word
  /-- A4h bit 1 on input. -/
  badAddr : Bool
  /-- A4h bit 0 on input. -/
  memVio : Bool
  /-- A6h on input: the page number of the last TLB miss. -/
  page : Byte
deriving DecidableEq, Repr

/-- What OUT has left in the device registers (R244 to R252). An 8-bit register holds its low byte; a register with a
stated layout holds only the bits of that layout. -/
structure Devices where
  timer0Period : Word
  /-- Bit 15 enables the interrupt, bit 0 starts the timer. -/
  timer0Ctrl : Word
  timer1Period : Word
  timer1Ctrl : Word
  ft232rlData : Byte
  /-- Bit 7 enables the transmit interrupt, bit 6 the receive interrupt. -/
  ft232rlCtrl : Byte
  tecData : Byte
  tecCtrl : Byte
  /-- E, I, R, W in bits 7, 2, 1, 0. -/
  sdCtrl : Byte
  sdMemAddr : Word
  sdBlkAddrH : Word
  sdBlkAddrL : Word
  /-- A READ or WRITE command has been given and IDLE has not been read as 1 since (R61). -/
  sdBusy : Bool
  ioPort : Byte
  adcRef : Byte
  /-- M in bit 7, VVVV in bits 3:0. -/
  outPortHi : Byte
  spiData : Byte
  spiSclk : Byte
  pioMask : Byte
  pioXor : Byte
  rn4020Data : Byte
  rn4020Ctrl : Byte
  /-- F, H, C, S in bits 3:0. -/
  rn4020Cmd : Byte
  /-- Keeps its value across reset (R251). -/
  rn4020Ram : Byte
  tecDataSw : Byte
  tecFuncSw : Byte
  tecControl : Byte
  consoleData : Word
deriving DecidableEq, Repr

/-- The whole machine. -/
structure State where
  regs : Regs
  flag : Flag
  /-- The program counter (R16): between instructions, and while one executes, the address of its first word (`pc0`). -/
  pc : Word
  mem : Memory
  ipl : Ipl
  /-- HALT has stopped the CPU (R33, R191). -/
  halted : Bool
  pending : IrqLines
  mmu : Mmu
  dev : Devices
  /-- Every OUT so far, oldest first: the record of device writes (R48, D35). -/
  ioLog : List (Word × Word)
  /-- The model's own field: how many times free values have been drawn (log 7). -/
  draws : Nat
deriving DecidableEq, Repr

/-- Why the machine stops with a model fault: the situations to which the spec itself gives the treatment `fault`. -/
inductive Fault where
  /-- A word access, stack access, vector read or instruction fetch at an odd address (R46, D2). Raised by `readWord` and
  `writeWord`. Safe: the spec gives the access no result. -/
  | misaligned
  /-- An IN or OUT whose port is odd or above 00FEh (R48, D27). Raised by IN and OUT. Safe. -/
  | ioAddress
  /-- A write to an address of the IPL overlay while the IPL is attached (R60, U20). Raised by `writeByte`, `writeWord`
  and, for the microSD controller's writes, `nextAction`. Safe. -/
  | iplWrite
deriving DecidableEq, Repr

/-- Why the model gives a situation no meaning: the situations to which the spec itself gives the treatment `refuse`. -/
inductive Refusal where
  /-- An instruction without a meaning yet. Raised by an arm of `exec` only. Safe. -/
  | notModelled (mnemonic : String)
  /-- A field the format fixes at another value (R76, D25). Raised by the fetch. Safe. -/
  | reservedField
  /-- The jump condition Dh (R77, D26). Raised by the fetch. Safe. -/
  | jumpCondition
  /-- OP = B7h or BFh (R79, D31). Raised by the fetch. Safe. -/
  | contestedOpcode
  /-- A flag-changing instruction with Rd = Fh (R121, D13). Raised by the fourteen flag-changing instructions,
  and by the fetch of one before its second word (R89). Safe. -/
  | flagDestination
  /-- PUSH or POP of the stack pointer it moves (R181, R182, D38). Raised by PUSH and POP. Safe. -/
  | activeStackPointer
  /-- An MMU exception on an access of a trap entry (R221, D30). Raised by `trapEntry`. Safe. -/
  | mmuInTrapEntry
deriving DecidableEq, Repr

/-- The outcome of a step or of an instruction. -/
abbrev Result := Host.Outcome State Fault Refusal

/-! One update per field. -/

def State.withRegs (s : State) (x : Regs) : State := { s with regs := x }
def State.withFlag (s : State) (x : Flag) : State := { s with flag := x }
def State.withPc (s : State) (x : Word) : State := { s with pc := x }
def State.withMem (s : State) (x : Memory) : State := { s with mem := x }
def State.withIpl (s : State) (x : Ipl) : State := { s with ipl := x }
def State.withHalted (s : State) (x : Bool) : State := { s with halted := x }
/-- Also the environment's own action: the request lines change between instructions (R211, log 17). -/
def State.withPending (s : State) (x : IrqLines) : State := { s with pending := x }
def State.withMmu (s : State) (x : Mmu) : State := { s with mmu := x }
def State.withDev (s : State) (x : Devices) : State := { s with dev := x }
def State.withIoLog (s : State) (x : List (Word × Word)) : State := { s with ioLog := x }
def State.withDraws (s : State) (x : Nat) : State := { s with draws := x }

/-- Registers after reset: DESIGN CHOICE (log 1), R34 leaves them unspecified. -/
def Regs.reset : Regs :=
  { g0 := 0, g1 := 0, g2 := 0, g3 := 0, g4 := 0, g5 := 0, g6 := 0, g7 := 0, g8 := 0, g9 := 0, g10 := 0, g11 := 0,
    fp := 0, ssp := 0, usp := 0 }

/-- FLAG after reset: P = 1 and E = 0 by R34; the other six bits are DESIGN CHOICE (log 2). -/
def Flag.reset : Flag :=
  { e := false, p := true, i := false, u := false, v := false, c := false, s := false, z := false }

/-- No request after reset (R34). -/
def IrqLines.clear : IrqLines :=
  { timer0 := false, timer1 := false, rn4020Recv := false, rn4020Send := false, ft232rlRecv := false,
    ft232rlSend := false, tecRecv := false, tecSend := false, microSd := false, pio := false }

/-- The MMU after reset: off by R34; its registers are DESIGN CHOICE (log 20). -/
def Mmu.reset : Mmu :=
  { on := false, ctl := 0,
    tlb := Vector.replicate 8
      { page := 0, valid := false, referenced := false, dirty := false, canRead := false, canWrite := false,
        canExec := false, frame := 0 },
    violAddr := 0, badAddr := false, memVio := false, page := 0 }

/-- The device registers after reset: interrupt enables clear (R34) and RN4020-Cmd = 0001 (R251); RN4020-RAM is the
power-on value (log 9), every other register DESIGN CHOICE (log 20). -/
def Devices.reset : Devices :=
  { timer0Period := 0, timer0Ctrl := 0, timer1Period := 0, timer1Ctrl := 0, ft232rlData := 0, ft232rlCtrl := 0,
    tecData := 0, tecCtrl := 0, sdCtrl := 0, sdMemAddr := 0, sdBlkAddrH := 0, sdBlkAddrL := 0, sdBusy := false,
    ioPort := 0, adcRef := 0, outPortHi := 0, spiData := 0, spiSclk := 0, pioMask := 0, pioXor := 0, rn4020Data := 0,
    rn4020Ctrl := 0, rn4020Cmd := 1, rn4020Ram := 0, tecDataSw := 0, tecFuncSw := 0, tecControl := 0, consoleData := 0 }

/-- The machine right after reset (R34, R261). -/
def State.reset : State :=
  { regs := Regs.reset, flag := Flag.reset, pc := Config.resetPC, mem := [],
    ipl := { image := [], attached := true }, halted := false, pending := IrqLines.clear, mmu := Mmu.reset,
    dev := Devices.reset, ioLog := [], draws := 0 }

end Sys2Proof.Machine
end

