-- ==== Sys2Proof/Machine/Flags.lean ====
section
/-! DEFINITION. FLAG as a word and as the destination of a write (R19 to R21), the flag computations of the arithmetic, logic
and shift instructions (R26 to R31, R110, R130), and the conditions of the jumps (R141 to R155). -/

namespace Sys2Proof.Machine

/-- FLAG as register Fh reads it: `00h ++ E P I U V C S Z` (R20). -/
def flagWord (f : Flag) : Word :=
  0#8 ++ BitVec.ofBool f.e ++ BitVec.ofBool f.p ++ BitVec.ofBool f.i ++ BitVec.ofBool f.u ++ BitVec.ofBool f.v
    ++ BitVec.ofBool f.c ++ BitVec.ofBool f.s ++ BitVec.ofBool f.z

/-- The eight bits of a FLAG image; bits 15:8 are discarded (R19, R20). -/
def flagOfWord (w : Word) : Flag :=
  { e := w.getLsbD 7, p := w.getLsbD 6, i := w.getLsbD 5, u := w.getLsbD 4, v := w.getLsbD 3, c := w.getLsbD 2,
    s := w.getLsbD 1, z := w.getLsbD 0 }

/-- FLAG after a word is written to it (R21): all eight bits when P was 1; when P was 0, E, P and I keep their values. -/
def writeFlag (old : Flag) (w : Word) : Flag :=
  let new := flagOfWord w
  if old.p then new else { new with e := old.e, p := old.p, i := old.i }

/-! Flag computations (R110). -/

/-- Carry out of bit 15 of an addition. -/
def carryAdd (a b : Word) : Bool := decide (65536 ≤ a.toNat + b.toNat)

/-- Signed overflow of an addition with result `r`. -/
def ovfAdd (a b r : Word) : Bool := a.msb == b.msb && r.msb != a.msb

/-- Borrow of a subtraction. -/
def borrowSub (a b : Word) : Bool := decide (a.toNat < b.toNat)

/-- Signed overflow of a subtraction with result `r`. -/
def ovfSub (a b r : Word) : Bool := a.msb != b.msb && r.msb != a.msb

/-- A flag an instruction writes: a value its rule gives, or a draw (R31). -/
inductive FlagBit where
  | known (b : Bool)
  | drawn
deriving DecidableEq, Repr

/-- What a flag-changing instruction computes: its result and the four condition flags. -/
structure AluOut where
  result : Word
  v : FlagBit
  c : FlagBit
  s : Bool
  z : Bool
deriving DecidableEq, Repr

/-- S and Z from the result (R28, R29, R110), V and C as given. -/
def aluOut (r : Word) (v c : FlagBit) : AluOut := { result := r, v := v, c := c, s := r.msb, z := decide (r = 0) }

/-- ADD (R111). -/
def addOut (a b : Word) : AluOut := aluOut (a + b) (.known (ovfAdd a b (a + b))) (.known (carryAdd a b))

/-- SUB and CMP (R112, R113). -/
def subOut (a b : Word) : AluOut := aluOut (a - b) (.known (ovfSub a b (a - b))) (.known (borrowSub a b))

/-- AND (R114). -/
def andOut (a b : Word) : AluOut := aluOut (a &&& b) .drawn .drawn

/-- OR (R115). -/
def orOut (a b : Word) : AluOut := aluOut (a ||| b) .drawn .drawn

/-- XOR (R116). -/
def xorOut (a b : Word) : AluOut := aluOut (a ^^^ b) .drawn .drawn

/-- ADDS (R117): the operand is doubled, not Rd. -/
def addsOut (a b : Word) : AluOut := aluOut (a + 2 * b) .drawn .drawn

/-- MUL (R118): the low 16 bits of the product. -/
def mulOut (a b : Word) : AluOut := aluOut (a * b) .drawn .drawn

/-- Quotient and remainder for a divisor that is not 0 (R119, R120): defined where both operands are below 8000h, the
parameter divmod elsewhere. -/
def divMod (a b : Word) : Word × Word :=
  if a.msb = false ∧ b.msb = false then (a / b, a % b) else Config.divmod a b

/-- DIV (R119). -/
def divOut (a b : Word) : AluOut := aluOut (divMod a b).1 .drawn .drawn

/-- MOD (R120). -/
def modOut (a b : Word) : AluOut := aluOut (divMod a b).2 .drawn .drawn

/-- The value of a shift by `n` places, for `n` up to 15 (R131 to R134). -/
def shiftValue (op : ShiftOp) (a : Word) (n : Nat) : Word :=
  match op with
  | .shla | .shll => a <<< n
  | .shra => a.sshiftRight n
  | .shrl => a >>> n

/-- The bit a one-place shift moves out (R130): bit 15 to the left, bit 0 to the right. -/
def shiftedOut (op : ShiftOp) (a : Word) : Bool :=
  match op with
  | .shla | .shll => a.msb
  | .shra | .shrl => a.getLsbD 0

/-- The operation shiftBig is asked about: SHLA and SHLL have identical results in every state (R131), so one answer serves
both. -/
def bigShiftOp : ShiftOp → ShiftOp
  | .shla | .shll => .shll
  | .shra => .shra
  | .shrl => .shrl

/-- The result of a shift by the count `n` (R130): above 15 it comes from the parameter shiftBig. -/
def shiftResult (op : ShiftOp) (a n : Word) : Word :=
  if n.toNat ≤ 15 then shiftValue op a n.toNat else Config.shiftBig (bigShiftOp op) a n

/-- A shift by the count `n` (R130): C is known for a one-place shift only, V never (R31, U7), and S and Z are those of the
result, whatever the count (R28, R29; log 14). -/
def shiftOut (op : ShiftOp) (a n : Word) : AluOut :=
  aluOut (shiftResult op a n) .drawn (if n = 1 then .known (shiftedOut op a) else .drawn)

/-- A flag bit with its draw made. -/
def FlagBit.value (draw : Bool) : FlagBit → Bool
  | .known b => b
  | .drawn => draw

/-- Whether an instruction draws V or C. -/
def AluOut.draws (o : AluOut) : Bool := o.v = .drawn || o.c = .drawn

/-- V, C, S and Z are written and E, P, I and U kept (R30, R110); a draw takes fresh free values (R31). -/
def applyFlags (o : AluOut) (s : State) : State :=
  (s.withFlag
    { s.flag with
      v := o.v.value (Config.drawV s.draws), c := o.c.value (Config.drawC s.draws), s := o.s, z := o.z }).withDraws
    (if o.draws then s.draws + 1 else s.draws)

/-! Jump conditions. -/

/-- JZ (R141). -/
def condZ (f : Flag) : Bool := f.z
/-- JC (R142). -/
def condC (f : Flag) : Bool := f.c
/-- JM (R143). -/
def condM (f : Flag) : Bool := f.s
/-- JO (R144). -/
def condO (f : Flag) : Bool := f.v
/-- JGT (R145). -/
def condGT (f : Flag) : Bool := !(f.z || (f.s ^^ f.v))
/-- JGE (R146). -/
def condGE (f : Flag) : Bool := !(f.s ^^ f.v)
/-- JLE (R147). -/
def condLE (f : Flag) : Bool := f.z || (f.s ^^ f.v)
/-- JLT (R148). -/
def condLT (f : Flag) : Bool := f.s ^^ f.v
/-- JNZ (R149). -/
def condNZ (f : Flag) : Bool := !f.z
/-- JNC (R150). -/
def condNC (f : Flag) : Bool := !f.c
/-- JNM (R151). -/
def condNM (f : Flag) : Bool := !f.s
/-- JNO (R152). -/
def condNO (f : Flag) : Bool := !f.v
/-- JHI (R153). -/
def condHI (f : Flag) : Bool := !(f.z || f.c)
/-- JLS (R154). -/
def condLS (f : Flag) : Bool := f.z || f.c
/-- JMP (R155). -/
def condAlways (_ : Flag) : Bool := true

end Sys2Proof.Machine
end

