-- ==== Sys2Proof/Machine/Ops.lean ====
section
/-! DEFINITION. The shared operations: memory as a list of bytes, register access, memory access, the stack, taking an
exception and returning from one. Every meaning is a few of these. -/

namespace Sys2Proof.Machine

/-! Memory as a list (R32, R40). -/

/-- The byte at an address; an unlisted address reads as `Config.unlistedByte`. -/
def Memory.read : Memory → Nat → Byte
  | [], _ => Config.unlistedByte
  | (k, v) :: m, a => if a = k then v else Memory.read m a

/-- The memory without an address. -/
def Memory.erase : Memory → Nat → Memory
  | [], _ => []
  | (k, v) :: m, a => if k = a then Memory.erase m a else (k, v) :: Memory.erase m a

/-- A byte listed at its place by rising address. -/
def Memory.insert : Memory → Nat → Byte → Memory
  | [], a, b => [(a, b)]
  | (k, v) :: m, a, b => if a < k then (a, b) :: (k, v) :: m else (k, v) :: Memory.insert m a b

/-- The memory with one byte changed, in the one canonical form: a byte that is the unlisted one is not listed. -/
def Memory.write (m : Memory) (a : Nat) (b : Byte) : Memory :=
  if b = Config.unlistedByte then Memory.erase m a else Memory.insert (Memory.erase m a) a b

/-- The canonical form: addresses rise strictly and lie below 2^16, and no byte is the unlisted one. -/
def Memory.wf : Memory → Bool
  | [] => true
  | (k, v) :: m =>
    decide (k < 65536) && decide (v ≠ Config.unlistedByte) && m.all (fun c => decide (k < c.1)) && Memory.wf m

/-- Several bytes written one after another. -/
def Memory.writeAll (m : Memory) : List (Word × Byte) → Memory
  | [] => m
  | (a, b) :: ws => Memory.writeAll (Memory.write m a.toNat b) ws

/-! Registers (R12, R13, R20, R21). -/

/-- `x[i]` as a source. -/
def readReg (s : State) : Reg → Word
  | .g0 => s.regs.g0 | .g1 => s.regs.g1 | .g2 => s.regs.g2 | .g3 => s.regs.g3 | .g4 => s.regs.g4 | .g5 => s.regs.g5
  | .g6 => s.regs.g6 | .g7 => s.regs.g7 | .g8 => s.regs.g8 | .g9 => s.regs.g9 | .g10 => s.regs.g10
  | .g11 => s.regs.g11 | .fp => s.regs.fp
  | .sp => if s.flag.p then s.regs.ssp else s.regs.usp
  | .usp => s.regs.usp
  | .flag => flagWord s.flag

/-- `x[i] <- v`: register Dh goes to the bank FLAG.P selects (R13), register Fh through the write mask (R21). -/
def writeReg (s : State) (r : Reg) (v : Word) : State :=
  match r with
  | .g0 => s.withRegs { s.regs with g0 := v }
  | .g1 => s.withRegs { s.regs with g1 := v }
  | .g2 => s.withRegs { s.regs with g2 := v }
  | .g3 => s.withRegs { s.regs with g3 := v }
  | .g4 => s.withRegs { s.regs with g4 := v }
  | .g5 => s.withRegs { s.regs with g5 := v }
  | .g6 => s.withRegs { s.regs with g6 := v }
  | .g7 => s.withRegs { s.regs with g7 := v }
  | .g8 => s.withRegs { s.regs with g8 := v }
  | .g9 => s.withRegs { s.regs with g9 := v }
  | .g10 => s.withRegs { s.regs with g10 := v }
  | .g11 => s.withRegs { s.regs with g11 := v }
  | .fp => s.withRegs { s.regs with fp := v }
  | .sp => if s.flag.p then s.withRegs { s.regs with ssp := v } else s.withRegs { s.regs with usp := v }
  | .usp => s.withRegs { s.regs with usp := v }
  | .flag => s.withFlag (writeFlag s.flag v)

/-! Memory access (R43 to R46, R59, R60). -/

/-- The two exceptions of the MMU, with what its registers record of the access (R58, R202, R203, R209). -/
inductive MmuTrap where
  /-- TLB miss, with the page of the access. -/
  | tlbMiss (page : Byte)
  /-- Memory protection violation, with the address of the access and the two cause bits of A4h. -/
  | violation (addr : Word) (badAddr memVio : Bool)
deriving DecidableEq, Repr

/-- What a memory access answers: a value, an MMU exception to take, or a model fault. -/
inductive Access (α : Type) where
  | ok (a : α)
  | trap (t : MmuTrap)
  | fault (f : Fault)
deriving DecidableEq, Repr

/-- The physical address of an access in a frame (R57): bits 7:0 are the offset in the page of 256 bytes. -/
def physAddr (frame : Byte) (a : Word) : Word := joinBytes frame (loByte a)

/-- The physical address of an access (R59): the address itself while the MMU is off, the parameter translate while on. An
exception records the page or the address of this access (R58). -/
def translateAddr (s : State) (k : AccessKind) (a : Word) : Access Word :=
  if s.mmu.on then
    match Config.translate s.flag.p k a s.mmu.tlb with
    | .frame f => .ok (physAddr f a)
    | .tlbMiss => .trap (.tlbMiss (hiByte a))
    | .violation badAddr memVio => .trap (.violation a badAddr memVio)
  else .ok a

/-- The overlay byte in force at an address, if any (R60). -/
def overlayByte (s : State) (a : Word) : Option Byte :=
  if s.ipl.attached then s.ipl.image.lookup a.toNat else none

/-- The byte that stands at a physical address: the overlay's where the IPL covers it, else memory's (R43, R60). -/
def byteAt (s : State) (a : Word) : Byte :=
  match overlayByte s a with
  | some b => b
  | none => Memory.read s.mem a.toNat

/-- The word at an even physical address, upper byte first (R42, R43). -/
def wordAt (s : State) (a : Word) : Word := joinBytes (byteAt s a) (byteAt s (a + 1))

/-- `MemRead(a, 1)` (R45). -/
def readByte (s : State) (k : AccessKind) (a : Word) : Access Byte :=
  match translateAddr s k a with
  | .ok pa => .ok (byteAt s pa)
  | .trap t => .trap t
  | .fault f => .fault f

/-- `MemRead(a, 2)` (R43): a model fault at an odd address (R46). -/
def readWord (s : State) (k : AccessKind) (a : Word) : Access Word :=
  match translateAddr s k a with
  | .ok pa => if isOdd a then .fault .misaligned else .ok (wordAt s pa)
  | .trap t => .trap t
  | .fault f => .fault f

/-- The IPL covers the address, so that a write there has an unknown effect (R60). -/
def overlaid (s : State) (a : Word) : Bool := (overlayByte s a).isSome

/-- Memory with the byte at a physical address changed. -/
def putByte (s : State) (a : Word) (b : Byte) : State := s.withMem (Memory.write s.mem a.toNat b)

/-- Memory with the word at an even physical address changed: both bytes in one step (R42, R44). -/
def putWord (s : State) (a v : Word) : State := putByte (putByte s a (hiByte v)) (a + 1) (loByte v)

/-- `MemWrite(a, 1, v)` (R45). -/
def writeByte (s : State) (a : Word) (b : Byte) : Access State :=
  match translateAddr s .write a with
  | .ok pa => if overlaid s pa then .fault .iplWrite else .ok (putByte s pa b)
  | .trap t => .trap t
  | .fault f => .fault f

/-- `MemWrite(a, 2, v)` (R44): a model fault at an odd address (R46). -/
def writeWord (s : State) (a v : Word) : Access State :=
  match translateAddr s .write a with
  | .ok pa =>
    if isOdd a then .fault .misaligned
    else if overlaid s pa || overlaid s (pa + 1) then .fault .iplWrite
    else .ok (putWord s pa v)
  | .trap t => .trap t
  | .fault f => .fault f

/-! Taking an exception or an interrupt (R200, R209, R215 to R218, R221). -/

/-- The causes of a trap entry (R200). -/
inductive Cause where
  | irq (q : Irq)
  | tlbMiss | memViolation | zeroDivide | privilege | undefined | svc
deriving DecidableEq, Repr

/-- The vector address of a cause (R200). -/
def Cause.vector : Cause → Word
  | .irq .timer0 => 0xFFE0
  | .irq .timer1 => 0xFFE2
  | .irq .rn4020Recv => 0xFFE4
  | .irq .rn4020Send => 0xFFE6
  | .irq .ft232rlRecv => 0xFFE8
  | .irq .ft232rlSend => 0xFFEA
  | .irq .tecRecv => 0xFFEC
  | .irq .tecSend => 0xFFEE
  | .irq .microSd => 0xFFF0
  | .irq .pio => 0xFFF2
  | .tlbMiss => 0xFFF4
  | .memViolation => 0xFFF6
  | .zeroDivide => 0xFFF8
  | .privilege => 0xFFFA
  | .undefined => 0xFFFC
  | .svc => 0xFFFE

/-- What an access answers goes to `k`; a model fault is the outcome; an MMU exception is refused. The accesses of a trap
entry (R221). -/
def Access.inEntry {α : Type} (x : Access α) (k : α → Result) : Result :=
  match x with
  | .ok a => k a
  | .trap _ => .refused .mmuInTrapEntry
  | .fault f => .fault f

/-- Trap entry (R215): P becomes 1 and E becomes 0; the saved PC `spc` and then the old FLAG are pushed on SSP; the PC is
the word at the vector. I, U, V, C, S, Z and every other register keep their values. -/
def trapEntry (cause : Cause) (spc : Word) (s : State) : Result :=
  let s1 := s.withFlag { s.flag with p := true, e := false }
  let sp1 := s.regs.ssp - 2
  let sp2 := sp1 - 2
  (writeWord s1 sp1 spc).inEntry fun s2 =>
    (writeWord s2 sp2 (flagWord s.flag)).inEntry fun s3 =>
      let s4 := s3.withRegs { s3.regs with ssp := sp2 }
      (readWord s4 .read cause.vector).inEntry fun handler => .next (s4.withPc handler)

/-- The parameter savedPcOther applied to an instruction at `pc0` followed by `pcn` (R216). -/
def savedPcOther (pc0 pcn : Word) : Word :=
  match Config.savedPcOther with
  | .pc0 => pc0
  | .pcn => pcn

/-- The parameter savedPcUndef applied to an instruction at `pc0` (R216). -/
def savedPcUndef (pc0 : Word) : Word :=
  match Config.savedPcUndef with
  | .pc0 => pc0
  | .pc0Plus2 => pc0 + 2
  | .pc0Plus4 => pc0 + 4

/-- The exception an MMU trap raises. -/
def mmuCause : MmuTrap → Cause
  | .tlbMiss _ => .tlbMiss
  | .violation _ _ _ => .memViolation

/-- What the MMU registers record of a trap (R58, R209). -/
def recordMmu (t : MmuTrap) (s : State) : State :=
  match t with
  | .tlbMiss page => s.withMmu { s.mmu with page := page }
  | .violation addr badAddr memVio => s.withMmu { s.mmu with violAddr := addr, badAddr := badAddr, memVio := memVio }

/-- TLB miss or memory protection violation of an instruction whose successor is `pcn` (R202, R203, R216, R217). -/
def raiseMmu (t : MmuTrap) (pcn : Word) (s : State) : Result :=
  trapEntry (mmuCause t) (savedPcOther s.pc pcn) (recordMmu t s)

/-- Zero divide (R204, R216). -/
def raiseZeroDivide (pcn : Word) (s : State) : Result := trapEntry .zeroDivide (savedPcOther s.pc pcn) s

/-- Privilege violation: the saved PC is the address of the instruction itself (R206, R216). -/
def raisePrivilege (s : State) : Result := trapEntry .privilege s.pc s

/-- Undefined instruction (R207, R216). -/
def raiseUndefined (s : State) : Result := trapEntry .undefined (savedPcUndef s.pc) s

/-- An access of an instruction in the state `s`: its value goes to `k`; an MMU exception is taken from `s`, so that nothing
of the instruction is committed (R217). -/
def Access.orRaise {α : Type} (x : Access α) (pcn : Word) (s : State) (k : α → Result) : Result :=
  match x with
  | .ok a => k a
  | .trap t => raiseMmu t pcn s
  | .fault f => .fault f

/-! The stack (R180) and the return from an exception (R184, R219). -/

/-- `Push(v)` (R180): SP goes down by 2 and the word is written there; the decrement is committed only with the write. -/
def pushWord (s : State) (v : Word) : Access State :=
  let sp := readReg s .sp - 2
  match writeWord s sp v with
  | .ok s' => .ok (writeReg s' .sp sp)
  | .trap t => .trap t
  | .fault f => .fault f

/-- `Pop()` (R180): the word at SP, and SP goes up by 2. -/
def popWord (s : State) : Access (Word × State) :=
  let sp := readReg s .sp
  match readWord s .read sp with
  | .ok v => .ok (v, writeReg s .sp (sp + 2))
  | .trap t => .trap t
  | .fault f => .fault f

/-- The return from an exception or interrupt (R184): the FLAG image and then the PC are popped from the bank P selects at
the start; FLAG is written under its mask (R21). -/
def returnFromTrap (pcn : Word) (s : State) : Result :=
  let sp := readReg s .sp
  (readWord s .read sp).orRaise pcn s fun f =>
    (readWord s .read (sp + 2)).orRaise pcn s fun npc =>
      let s1 := writeReg s .sp (sp + 4)
      .next ((s1.withFlag (writeFlag s.flag f)).withPc npc)

/-- The reset line pulled while the machine runs (R34, R251): every field at its reset value but RN4020-RAM, which reset does
not change, and what is no register at all: the overlay's contents, the OUT record and the draw counter. -/
def State.warmReset (s : State) : State :=
  { State.reset with
    dev := { State.reset.dev with rn4020Ram := s.dev.rn4020Ram }
    ipl := { image := s.ipl.image, attached := true }
    ioLog := s.ioLog
    draws := s.draws }

end Sys2Proof.Machine
end

