-- ==== Sys2Proof/Machine/Operands.lean ====
section
/-! DEFINITION. The operand forms at work (R80 to R89): effective addresses, operand values, targets and ports, and the
address of the next instruction. -/

namespace Sys2Proof.Machine

/-- The effective address of a memory form (R80, R81, R83, R86, R87), modulo 2^16 (D6). -/
def effectiveAddr (s : State) : MemForm → Word
  | .direct d => d
  | .indexed d rx => d + readReg s rx
  | .fpRel d4 => s.regs.fp + 2 * sextNibble d4
  | .indirect rx => readReg s rx
  | .byteIndirect rx => readReg s rx

/-- Byte register indirect is the one 8-bit form (R45, R47). -/
def isByteForm : MemForm → Bool
  | .byteIndirect _ => true
  | .direct _ | .indexed _ _ | .fpRel _ | .indirect _ => false

/-- The use *read* of a memory form: a word, or a zero-extended byte (R45, R47). -/
def loadForm (s : State) (m : MemForm) : Access Word :=
  if isByteForm m then
    match readByte s .read (effectiveAddr s m) with
    | .ok b => .ok (zextByte b)
    | .trap t => .trap t
    | .fault f => .fault f
  else readWord s .read (effectiveAddr s m)

/-- The use *write* of a memory form (R45, R102): a word, or its low byte. -/
def storeForm (s : State) (m : MemForm) (v : Word) : Access State :=
  if isByteForm m then writeByte s (effectiveAddr s m) (loByte v) else writeWord s (effectiveAddr s m) v

/-- The operand value `[EA]` (R80 to R87). -/
def readOperand (s : State) : Operand → Access Word
  | .mem m => loadForm s m
  | .imm d => .ok d
  | .reg rs => .ok (readReg s rs)
  | .imm4 i4 => .ok (sextNibble i4)

/-- The target address of a jump or CALL (R140): the effective address itself. -/
def targetAddr (s : State) : Target → Word
  | .direct d => d
  | .indexed d rx => d + readReg s rx

/-- The port address of IN or OUT (R170): the effective address itself, in the I/O space. -/
def portAddr (s : State) : Port → Word
  | .direct d => d
  | .indirect rx => readReg s rx

/-- `pcn`, the address after an instruction of one or two words (R17). -/
def nextPc (s : State) (long : Bool) : Word := if long then s.pc + 4 else s.pc + 2

/-- The shape shared by the fourteen flag-changing instructions (R110): Rd = Fh is refused (R121); the operand is read, `f`
computes from the old Rd and the operand, the flags and (but for CMP) Rd are written. -/
def aluOp (f : Word → Word → AluOut) (store : Bool) (rd : Reg) (src : Operand) (s : State) : Result :=
  if rd = .flag then .refused .flagDestination
  else
    let pcn := nextPc s src.isLong
    (readOperand s src).orRaise pcn s fun b =>
      let o := f (readReg s rd) b
      let s1 := applyFlags o s
      .next ((if store then writeReg s1 rd o.result else s1).withPc pcn)

/-- The shape shared by DIV and MOD (R119, R120): as `aluOp`, but a divisor of 0000h raises ZeroDivide with nothing
changed. -/
def divideOp (f : Word → Word → AluOut) (rd : Reg) (src : Operand) (s : State) : Result :=
  if rd = .flag then .refused .flagDestination
  else
    let pcn := nextPc s src.isLong
    (readOperand s src).orRaise pcn s fun b =>
      if b = 0 then raiseZeroDivide pcn s
      else
        let o := f (readReg s rd) b
        .next ((writeReg (applyFlags o s) rd o.result).withPc pcn)

/-- The shape shared by the fifteen jumps (R140). -/
def jumpIf (cond : Flag → Bool) (t : Target) (s : State) : Result :=
  .next (s.withPc (if cond s.flag then targetAddr s t else nextPc s true))

end Sys2Proof.Machine
end

