-- ==== Sys2Proof/Machine/Arith.lean ====
section
/-! DEFINITION. The arithmetic and logic instructions (R110 to R121), each its own function of Rd and the operand in the
shape of `aluOp` or `divideOp`. -/

namespace Sys2Proof.Machine

/-- ADD (R111). -/
def execAdd (rd : Reg) (src : Operand) (s : State) : Result := aluOp addOut true rd src s

/-- SUB (R112). -/
def execSub (rd : Reg) (src : Operand) (s : State) : Result := aluOp subOut true rd src s

/-- CMP (R113): the flags of SUB, and Rd is not written. -/
def execCmp (rd : Reg) (src : Operand) (s : State) : Result := aluOp subOut false rd src s

/-- AND (R114). -/
def execAnd (rd : Reg) (src : Operand) (s : State) : Result := aluOp andOut true rd src s

/-- OR (R115). -/
def execOr (rd : Reg) (src : Operand) (s : State) : Result := aluOp orOut true rd src s

/-- XOR (R116). -/
def execXor (rd : Reg) (src : Operand) (s : State) : Result := aluOp xorOut true rd src s

/-- ADDS (R117). -/
def execAdds (rd : Reg) (src : Operand) (s : State) : Result := aluOp addsOut true rd src s

/-- MUL (R118). -/
def execMul (rd : Reg) (src : Operand) (s : State) : Result := aluOp mulOut true rd src s

/-- DIV (R119). -/
def execDiv (rd : Reg) (src : Operand) (s : State) : Result := divideOp divOut rd src s

/-- MOD (R120). -/
def execMod (rd : Reg) (src : Operand) (s : State) : Result := divideOp modOut rd src s

end Sys2Proof.Machine
end

