-- ==== Sys2Proof/Machine/Devices.lean ====
section
/-! DEFINITION. The I/O space (R41, R48, R49): what a read of each port answers and what a write to it leaves, for the MMU
registers (R56 to R60), the devices (R244 to R252) and the unused ports (U14, U15); the microSD controller as an agent
(R61); the interrupt enables (R205, R210). -/

namespace Sys2Proof.Machine

/-- The ports IN and OUT reach: even and at most 00FEh (R48). -/
def portOk (p : Word) : Bool := !isOdd p && decide (p.toNat ≤ 0xFE)

/-- What a port holds for a read. -/
inductive PortRead where
  /-- The device supplies the bits of the mask, the others read 0: a draw within the stated layout (R48, D35, log 8). -/
  | drawn (mask : Word)
  /-- Both bytes read 00h (R252). -/
  | zero
  /-- uSD-Stat, `IE00 000C` (R247): a draw within the layout, whose bit 7 ends a transfer (R61). -/
  | sdStat
  /-- RN4020-RAM (R251). -/
  | rn4020Ram
  /-- The upper 8 bits of a TLB entry (R56, R57). -/
  | tlbHigh (n : Nat)
  /-- The lower 16 bits of a TLB entry. -/
  | tlbLow (n : Nat)
  /-- A2h, violation address (R58). -/
  | violAddr
  /-- A4h, badAddr and memVio (R58). -/
  | mmuCause
  /-- A6h, page number (R58). -/
  | mmuPage
deriving DecidableEq, Repr

/-- The I/O map for a read (R56, R244 to R252). -/
def portRead (p : Nat) : PortRead :=
  match p with
  | 0x00 | 0x02 | 0x04 | 0x06 => .drawn 0xFFFF
  | 0x0A | 0x0E | 0x2A => .drawn 0x00C0
  | 0x10 => .sdStat
  | 0x12 | 0x14 | 0x16 => .drawn 0xFFFF
  | 0x1E => .drawn 0x0007
  | 0x2C => .drawn 0x000F
  | 0x2E => .rn4020Ram
  | 0x32 | 0x34 => .zero
  | 0xA2 => .violAddr
  | 0xA4 => .mmuCause
  | 0xA6 => .mmuPage
  | 0xFC => .drawn 0x001F
  | 0xFE => .drawn 0x000F
  | _ =>
    if p < 0x38 then .drawn 0x00FF
    else if p < 0x80 then .zero
    else if p < 0xA0 then if p % 4 = 0 then .tlbHigh ((p - 0x80) / 4) else .tlbLow ((p - 0x80) / 4)
    else .drawn 0xFFFF

/-- TLB entry `n` (R56). -/
def tlbEntry (s : State) (n : Nat) : TlbEntry := s.mmu.tlb[n]?.getD default

/-- The lower 16 bits of a TLB entry (R57): bits 14 and 13 are those of `free`. -/
def tlbLowWord (t : TlbEntry) (free : Word) : Word :=
  BitVec.ofBool t.valid ++ BitVec.ofBool (free.getLsbD 14) ++ BitVec.ofBool (free.getLsbD 13)
    ++ BitVec.ofBool t.referenced ++ BitVec.ofBool t.dirty ++ BitVec.ofBool t.canRead ++ BitVec.ofBool t.canWrite
    ++ BitVec.ofBool t.canExec ++ t.frame

/-- A TLB entry with its lower 16 bits written (R57). -/
def tlbSetLow (t : TlbEntry) (v : Word) : TlbEntry :=
  { page := t.page, valid := v.getLsbD 15, referenced := v.getLsbD 12, dirty := v.getLsbD 11, canRead := v.getLsbD 10,
    canWrite := v.getLsbD 9, canExec := v.getLsbD 8, frame := loByte v }

/-- A4h as read (R58): bit 1 badAddr, bit 0 memVio, the other bits those of `free` (log 12). -/
def mmuCauseWord (m : Mmu) (free : Word) : Word :=
  free.extractLsb' 2 14 ++ BitVec.ofBool m.badAddr ++ BitVec.ofBool m.memVio

/-- The state after one draw. -/
def afterDraw (s : State) : State := s.withDraws (s.draws + 1)

/-- The MMU registers after a read of A2h, A4h or A6h: cleared where the free constant mmuReadClears says so (R58, R209). -/
def afterMmuRead (p : Word) (m : Mmu) : Mmu :=
  if Config.mmuReadClears p then
    match portRead p.toNat with
    | .violAddr => { m with violAddr := 0 }
    | .mmuCause => { m with badAddr := false, memVio := false }
    | .mmuPage => { m with page := 0 }
    | _ => m
  else m

/-- `IoRead(p)` (R48): the word read and the state after it. -/
def ioRead (s : State) (p : Word) : Word × State :=
  let free := Config.ioDraw s.draws p
  match portRead p.toNat with
  | .drawn mask => (free &&& mask, afterDraw s)
  | .zero => (0, s)
  | .sdStat =>
    let stat := free &&& 0x00C1
    (stat, (afterDraw s).withDev { s.dev with sdBusy := s.dev.sdBusy && !stat.getLsbD 7 })
  | .rn4020Ram => (zextByte s.dev.rn4020Ram, s)
  | .tlbHigh n => (zextByte (tlbEntry s n).page, s)
  | .tlbLow n => (tlbLowWord (tlbEntry s n) free, afterDraw s)
  | .violAddr => (s.mmu.violAddr, s.withMmu (afterMmuRead p s.mmu))
  | .mmuCause => (mmuCauseWord s.mmu free, (afterDraw s).withMmu (afterMmuRead p s.mmu))
  | .mmuPage => (zextByte s.mmu.page, s.withMmu (afterMmuRead p s.mmu))

/-- The device registers after a write (R244 to R252); a read-only or unused port leaves them as they are (U14, U15). -/
def devWrite (d : Devices) (p : Nat) (v : Word) : Devices :=
  let b := loByte v
  match p with
  | 0x00 => { d with timer0Period := v }
  | 0x02 => { d with timer0Ctrl := v &&& 0x8001 }
  | 0x04 => { d with timer1Period := v }
  | 0x06 => { d with timer1Ctrl := v &&& 0x8001 }
  | 0x08 => { d with ft232rlData := b }
  | 0x0A => { d with ft232rlCtrl := b &&& 0xC0 }
  | 0x0C => { d with tecData := b }
  | 0x0E => { d with tecCtrl := b &&& 0xC0 }
  | 0x10 => { d with sdCtrl := b &&& 0x87, sdBusy := d.sdBusy || b.getLsbD 1 || b.getLsbD 0 }
  | 0x12 => { d with sdMemAddr := v }
  | 0x14 => { d with sdBlkAddrH := v }
  | 0x16 => { d with sdBlkAddrL := v }
  | 0x18 => { d with ioPort := b }
  | 0x1A => { d with adcRef := b }
  | 0x1C => { d with outPortHi := b &&& 0x8F }
  | 0x20 => { d with spiData := b }
  | 0x22 => { d with spiSclk := b }
  | 0x24 => { d with pioMask := b }
  | 0x26 => { d with pioXor := b }
  | 0x28 => { d with rn4020Data := b }
  | 0x2A => { d with rn4020Ctrl := b &&& 0xC0 }
  | 0x2C => { d with rn4020Cmd := b &&& 0x0F }
  | 0x2E => { d with rn4020Ram := b }
  | 0x32 => { d with tecDataSw := b }
  | 0x34 => { d with tecFuncSw := b }
  | 0x36 => { d with tecControl := b }
  | 0xF8 => { d with consoleData := v }
  | _ => d

/-- The MMU registers after a write (R56 to R59): TLB entries, and A2h, whose effect on translation is the free constant
mmuEnable (log 11). -/
def mmuWrite (m : Mmu) (p : Nat) (v : Word) : Mmu :=
  if p = 0xA2 then { m with ctl := v, on := Config.mmuEnable v }
  else
    match portRead p with
    | .tlbHigh n => { m with tlb := m.tlb.setIfInBounds n { m.tlb[n]?.getD default with page := loByte v } }
    | .tlbLow n => { m with tlb := m.tlb.setIfInBounds n (tlbSetLow (m.tlb[n]?.getD default) v) }
    | _ => m

/-- The IPL after a write: bit 0 of A0h written as 1 detaches it (R58, R60). -/
def iplWrite (i : Ipl) (p : Nat) (v : Word) : Ipl :=
  if p = 0xA0 then { i with attached := i.attached && !v.getLsbD 0 } else i

/-- `IoWrite(p, v)` (R48): the write is recorded, and the registers it reaches change. -/
def ioWrite (s : State) (p v : Word) : State :=
  (((s.withDev (devWrite s.dev p.toNat v)).withMmu (mmuWrite s.mmu p.toNat v)).withIpl
    (iplWrite s.ipl p.toNat v)).withIoLog (s.ioLog ++ [(p, v)])

/-- IN and OUT execute when P = 1 or I = 1 (R170, R241). -/
def ioAllowed (f : Flag) : Bool := f.p || f.i

/-! Interrupt requests. -/

/-- A source's request line (R33). -/
def IrqLines.get (l : IrqLines) : Irq → Bool
  | .timer0 => l.timer0
  | .timer1 => l.timer1
  | .rn4020Recv => l.rn4020Recv
  | .rn4020Send => l.rn4020Send
  | .ft232rlRecv => l.ft232rlRecv
  | .ft232rlSend => l.ft232rlSend
  | .tecRecv => l.tecRecv
  | .tecSend => l.tecSend
  | .microSd => l.microSd
  | .pio => l.pio

/-- A source's own enable bit (R205); PIO has none. -/
def irqEnabled (d : Devices) : Irq → Bool
  | .timer0 => d.timer0Ctrl.getLsbD 15
  | .timer1 => d.timer1Ctrl.getLsbD 15
  | .rn4020Recv => d.rn4020Ctrl.getLsbD 6
  | .rn4020Send => d.rn4020Ctrl.getLsbD 7
  | .ft232rlRecv => d.ft232rlCtrl.getLsbD 6
  | .ft232rlSend => d.ft232rlCtrl.getLsbD 7
  | .tecRecv => d.tecCtrl.getLsbD 6
  | .tecSend => d.tecCtrl.getLsbD 7
  | .microSd => d.sdCtrl.getLsbD 7
  | .pio => true

/-- The conditions of R210 for a source: E = 1, its enable bit, and its request. -/
def irqReady (s : State) (q : Irq) : Bool := s.flag.e && irqEnabled s.dev q && s.pending.get q

/-- The ten sources, in the order of the vector table (R200). -/
def allIrqs : List Irq :=
  [.timer0, .timer1, .rn4020Recv, .rn4020Send, .ft232rlRecv, .ft232rlSend, .tecRecv, .tecSend, .microSd, .pio]

/-- Some interrupt may be taken at this boundary. -/
def anyIrqReady (s : State) : Bool := s.flag.e && allIrqs.any (irqReady s)

/-- The interrupt taken at this boundary (R213): a ready one or none, as the free value irqPick has it. -/
def irqTaken (s : State) : Option Irq :=
  if anyIrqReady s then
    match Config.irqPick s.draws with
    | some q => if irqReady s q then some q else none
    | none => none
  else none

/-- The microSD controller is about to write an address the attached IPL covers, whose effect is unknown (R60, U20). -/
def dmaOntoIpl (s : State) : Bool := s.dev.sdBusy && (Config.dmaWrites s.draws).any fun w => overlaid s w.1

/-- The microSD controller's own writes at a boundary while a transfer is in progress (R61): any bytes to any addresses. -/
def dmaTick (s : State) : State :=
  if s.dev.sdBusy then (s.withMem (Memory.writeAll s.mem (Config.dmaWrites s.draws))).withDraws (s.draws + 1) else s

end Sys2Proof.Machine
end

