-- ==== Sys2Proof/Machine/InOut.lean ====
section
/-! DEFINITION. IN and OUT (R170 to R172). -/

namespace Sys2Proof.Machine

/-- IN (R171): a privilege violation without P or I, before any I/O access; a model fault at a port R48 does not define. -/
def execIn (rd : Reg) (p : Port) (s : State) : Result :=
  if ioAllowed s.flag then
    let port := portAddr s p
    if portOk port then
      let r := ioRead s port
      .next ((writeReg r.2 rd r.1).withPc (nextPc s p.isLong))
    else .fault .ioAddress
  else raisePrivilege s

/-- OUT (R172). -/
def execOut (rd : Reg) (p : Port) (s : State) : Result :=
  if ioAllowed s.flag then
    let port := portAddr s p
    if portOk port then .next ((ioWrite s port (readReg s rd)).withPc (nextPc s p.isLong))
    else .fault .ioAddress
  else raisePrivilege s

end Sys2Proof.Machine
end

