-- ==== Sys2Proof/Machine/Jump.lean ====
section
/-! DEFINITION. The jumps (R140 to R155), in the shape of `jumpIf`, and CALL (R156). -/

namespace Sys2Proof.Machine

/-- JZ (R141). -/
def execJz (t : Target) (s : State) : Result := jumpIf condZ t s

/-- JC (R142). -/
def execJc (t : Target) (s : State) : Result := jumpIf condC t s

/-- JM (R143). -/
def execJm (t : Target) (s : State) : Result := jumpIf condM t s

/-- JO (R144). -/
def execJo (t : Target) (s : State) : Result := jumpIf condO t s

/-- JGT (R145). -/
def execJgt (t : Target) (s : State) : Result := jumpIf condGT t s

/-- JGE (R146). -/
def execJge (t : Target) (s : State) : Result := jumpIf condGE t s

/-- JLE (R147). -/
def execJle (t : Target) (s : State) : Result := jumpIf condLE t s

/-- JLT (R148). -/
def execJlt (t : Target) (s : State) : Result := jumpIf condLT t s

/-- JNZ (R149). -/
def execJnz (t : Target) (s : State) : Result := jumpIf condNZ t s

/-- JNC (R150). -/
def execJnc (t : Target) (s : State) : Result := jumpIf condNC t s

/-- JNM (R151). -/
def execJnm (t : Target) (s : State) : Result := jumpIf condNM t s

/-- JNO (R152). -/
def execJno (t : Target) (s : State) : Result := jumpIf condNO t s

/-- JHI (R153). -/
def execJhi (t : Target) (s : State) : Result := jumpIf condHI t s

/-- JLS (R154). -/
def execJls (t : Target) (s : State) : Result := jumpIf condLS t s

/-- JMP (R155). -/
def execJmp (t : Target) (s : State) : Result := jumpIf condAlways t s

/-- CALL (R156): the target is formed before SP moves; the address after the CALL is pushed. -/
def execCall (t : Target) (s : State) : Result :=
  let pcn := nextPc s true
  let target := targetAddr s t
  (pushWord s pcn).orRaise pcn s fun s' => .next (s'.withPc target)

end Sys2Proof.Machine
end

