-- ==== Sys2Proof/Machine/LoadStore.lean ====
section
/-! DEFINITION. NO, LD and ST (R100 to R102). -/

namespace Sys2Proof.Machine

/-- NO (R100): only the PC moves. -/
def execNo (s : State) : Result := .next (s.withPc (nextPc s false))

/-- LD (R101): Rd takes the operand; no flag is a side effect. Rd = Fh writes FLAG through its mask (R21). -/
def execLd (rd : Reg) (src : Operand) (s : State) : Result :=
  let pcn := nextPc s src.isLong
  (readOperand s src).orRaise pcn s fun v => .next ((writeReg s rd v).withPc pcn)

/-- ST (R102): the word in Rd, or its low byte, goes to memory. -/
def execSt (rd : Reg) (dst : MemForm) (s : State) : Result :=
  let pcn := nextPc s dst.isLong
  (storeForm s dst (readReg s rd)).orRaise pcn s fun s' => .next (s'.withPc pcn)

end Sys2Proof.Machine
end

