-- ==== Sys2Proof/Machine/Shift.lean ====
section
/-! DEFINITION. The shifts (R130 to R134), in the shape of `aluOp`; the operand is the count. -/

namespace Sys2Proof.Machine

/-- SHLA (R131). -/
def execShla (rd : Reg) (src : Operand) (s : State) : Result := aluOp (shiftOut .shla) true rd src s

/-- SHLL (R132). -/
def execShll (rd : Reg) (src : Operand) (s : State) : Result := aluOp (shiftOut .shll) true rd src s

/-- SHRA (R133). -/
def execShra (rd : Reg) (src : Operand) (s : State) : Result := aluOp (shiftOut .shra) true rd src s

/-- SHRL (R134). -/
def execShrl (rd : Reg) (src : Operand) (s : State) : Result := aluOp (shiftOut .shrl) true rd src s

end Sys2Proof.Machine
end

