-- ==== Sys2Proof/Machine/Stack.lean ====
section
/-! DEFINITION. PUSH, POP, RET and RETI (R180 to R184). -/

namespace Sys2Proof.Machine

/-- The register is the stack pointer in use: Dh always, Eh in user mode (R181, R182). -/
def isActiveSp (s : State) (r : Reg) : Bool := decide (r = .sp) || (decide (r = .usp) && !s.flag.p)

/-- PUSH (R181). -/
def execPush (rd : Reg) (s : State) : Result :=
  if isActiveSp s rd then .refused .activeStackPointer
  else
    let pcn := nextPc s false
    (pushWord s (readReg s rd)).orRaise pcn s fun s' => .next (s'.withPc pcn)

/-- POP (R182). The stack pointer moves in the bank P selects before Rd is written, which matters where Rd = Fh. -/
def execPop (rd : Reg) (s : State) : Result :=
  if isActiveSp s rd then .refused .activeStackPointer
  else
    let pcn := nextPc s false
    (popWord s).orRaise pcn s fun r => .next ((writeReg r.2 rd r.1).withPc pcn)

/-- RET (R183). -/
def execRet (s : State) : Result :=
  (popWord s).orRaise (nextPc s false) s fun r => .next (r.2.withPc r.1)

/-- RETI (R184): not privileged; in user mode it keeps E, P and I. -/
def execReti (s : State) : Result := returnFromTrap (nextPc s false) s

end Sys2Proof.Machine
end

