-- ==== Sys2Proof/Machine/System.lean ====
section
/-! DEFINITION. SVC and HALT (R190, R191). -/

namespace Sys2Proof.Machine

/-- SVC (R190): the exception itself, in either mode; the saved PC is the next instruction's. -/
def execSvc (s : State) : Result := trapEntry .svc (nextPc s false) s

/-- HALT (R191): privileged. -/
def execHalt (s : State) : Result :=
  if s.flag.p then .next ((s.withPc (nextPc s false)).withHalted true) else raisePrivilege s

end Sys2Proof.Machine
end

