-- ==== Sys2Proof/Machine/Dispatch.lean ====
section
/-! DEFINITION. The dispatch: each instruction of the opcode table to its meaning. -/

namespace Sys2Proof.Machine

/-- The meaning of an instruction whose first word stands at the PC. -/
def exec (i : Instr) (s : State) : Host.Outcome State Fault Refusal :=
  match i with
  | .no => Sys2Proof.Machine.execNo s
  | .ld rd src => Sys2Proof.Machine.execLd rd src s
  | .st rd dst => Sys2Proof.Machine.execSt rd dst s
  | .add rd src => Sys2Proof.Machine.execAdd rd src s
  | .sub rd src => Sys2Proof.Machine.execSub rd src s
  | .cmp rd src => Sys2Proof.Machine.execCmp rd src s
  | .and rd src => Sys2Proof.Machine.execAnd rd src s
  | .or rd src => Sys2Proof.Machine.execOr rd src s
  | .xor rd src => Sys2Proof.Machine.execXor rd src s
  | .adds rd src => Sys2Proof.Machine.execAdds rd src s
  | .mul rd src => Sys2Proof.Machine.execMul rd src s
  | .div rd src => Sys2Proof.Machine.execDiv rd src s
  | .mod rd src => Sys2Proof.Machine.execMod rd src s
  | .shla rd src => Sys2Proof.Machine.execShla rd src s
  | .shll rd src => Sys2Proof.Machine.execShll rd src s
  | .shra rd src => Sys2Proof.Machine.execShra rd src s
  | .shrl rd src => Sys2Proof.Machine.execShrl rd src s
  | .jz t => Sys2Proof.Machine.execJz t s
  | .jc t => Sys2Proof.Machine.execJc t s
  | .jm t => Sys2Proof.Machine.execJm t s
  | .jo t => Sys2Proof.Machine.execJo t s
  | .jgt t => Sys2Proof.Machine.execJgt t s
  | .jge t => Sys2Proof.Machine.execJge t s
  | .jle t => Sys2Proof.Machine.execJle t s
  | .jlt t => Sys2Proof.Machine.execJlt t s
  | .jnz t => Sys2Proof.Machine.execJnz t s
  | .jnc t => Sys2Proof.Machine.execJnc t s
  | .jnm t => Sys2Proof.Machine.execJnm t s
  | .jno t => Sys2Proof.Machine.execJno t s
  | .jhi t => Sys2Proof.Machine.execJhi t s
  | .jls t => Sys2Proof.Machine.execJls t s
  | .jmp t => Sys2Proof.Machine.execJmp t s
  | .call t => Sys2Proof.Machine.execCall t s
  | .inPort rd p => Sys2Proof.Machine.execIn rd p s
  | .outPort rd p => Sys2Proof.Machine.execOut rd p s
  | .push rd => Sys2Proof.Machine.execPush rd s
  | .pop rd => Sys2Proof.Machine.execPop rd s
  | .ret => Sys2Proof.Machine.execRet s
  | .reti => Sys2Proof.Machine.execReti s
  | .svc => Sys2Proof.Machine.execSvc s
  | .halt => Sys2Proof.Machine.execHalt s

end Sys2Proof.Machine
end

