-- ==== Sys2Proof/WellFormed.lean ====
section
/-! DEFINITION. Which instructions the spec gives a meaning in some state. The operand types already leave out every form
the opcode map does not have; what is left is the two encodings that decode and that the spec's rules refuse whatever the
state: FLAG as the destination of a flag-changing instruction (R121) and the stack pointer as the operand of PUSH or POP
(R181, R182). -/

namespace Sys2Proof

/-- The register a flag-changing instruction names as Rd (the fourteen instructions of R30), if it is one. -/
def Instr.flagChangingRd : Instr → Option Reg
  | .add rd _ | .sub rd _ | .cmp rd _ | .and rd _ | .or rd _ | .xor rd _ | .adds rd _ | .mul rd _ | .div rd _
  | .mod rd _ | .shla rd _ | .shll rd _ | .shra rd _ | .shrl rd _ => some rd
  | .no | .ld _ _ | .st _ _ | .jz _ | .jc _ | .jm _ | .jo _ | .jgt _ | .jge _ | .jle _ | .jlt _ | .jnz _ | .jnc _
  | .jnm _ | .jno _ | .jhi _ | .jls _ | .jmp _ | .call _ | .inPort _ _ | .outPort _ _ | .push _ | .pop _ | .ret
  | .reti | .svc | .halt => none

/-- The register a PUSH or POP names, if the instruction is one. -/
def Instr.stackedReg : Instr → Option Reg
  | .push rd | .pop rd => some rd
  | .no | .ld _ _ | .st _ _ | .add _ _ | .sub _ _ | .cmp _ _ | .and _ _ | .or _ _ | .xor _ _ | .adds _ _ | .mul _ _
  | .div _ _ | .mod _ _ | .shla _ _ | .shll _ _ | .shra _ _ | .shrl _ _ | .jz _ | .jc _ | .jm _ | .jo _ | .jgt _
  | .jge _ | .jle _ | .jlt _ | .jnz _ | .jnc _ | .jnm _ | .jno _ | .jhi _ | .jls _ | .jmp _ | .call _ | .inPort _ _
  | .outPort _ _ | .ret | .reti | .svc | .halt => none

/-- The instruction is one the spec does not refuse in every state: no flag-changing instruction has Rd = Fh (R121), no
PUSH or POP has Rd = Dh (R181, R182). -/
def WellFormed (i : Instr) : Bool :=
  decide (i.flagChangingRd ≠ some .flag) && decide (i.stackedReg ≠ some .sp)

end Sys2Proof
end

