-- ==== Sys2Proof/Machine/Fetch.lean ====
section
/-! DEFINITION. What a step does before an instruction's meaning: the boundary (R212, R213, R191) and the fetch (R17, R75 to
R79, R89). `step` (Machine/Step.lean) only calls it. -/

namespace Sys2Proof.Machine

/-- What a step comes to: an outcome of its own, or an instruction to run in a state. -/
inductive Action where
  | done (r : Result)
  | run (i : Instr) (s : State)

/-- What a rejected first word does: an undefined opcode raises UndefinedInstruction (R75, R207), the others are refused
(R76, R77, R79). -/
def onReject (r : Reject) (s : State) : Result :=
  match r with
  | .undefinedOpcode => raiseUndefined s
  | .reservedField => .refused .reservedField
  | .jumpCondition => .refused .jumpCondition
  | .contestedOpcode => .refused .contestedOpcode

/-- `pcn` of an instruction whose first word could not be read (R73, log 13). -/
def unfetchedNext (s : State) : Word := nextPc s Config.unfetchedLong

/-- The refusal of R121, told from the first word: whatever word follows, the instruction is a flag-changing one with
Rd = Fh. -/
def refusesFlag (finish : Word → Instr) : Bool := decide ((finish 0).flagChangingRd = some .flag)

/-- The fetch (R17, R89): the first word, its decoding with the refusals (R214), and the second word where there is one. -/
def fetchInstr (s : State) : Action :=
  match readWord s .fetch s.pc with
  | .fault f => .done (.fault f)
  | .trap t => .done (raiseMmu t (unfetchedNext s) s)
  | .ok w1 =>
    match decodeFirst w1 with
    | .error r => .done (onReject r s)
    | .ok (.complete i) => .run i s
    | .ok (.needsSecond finish) =>
      if refusesFlag finish then .done (.refused .flagDestination)
      else
        match readWord s .fetch (s.pc + 2) with
        | .fault f => .done (.fault f)
        | .trap t => .done (raiseMmu t (nextPc s true) s)
        | .ok w2 => .run (finish w2) s

/-- A boundary (R212): a halted CPU does nothing (R191, R33); a ready interrupt may be taken, with the PC as the saved PC
(R216); else the next instruction is fetched. -/
def boundary (s : State) : Action :=
  if s.halted then .done (.next s)
  else if anyIrqReady s then
    match irqTaken s with
    | some q => .done (trapEntry (.irq q) s.pc (afterDraw s))
    | none => fetchInstr (afterDraw s)
  else fetchInstr s

/-- What a step comes to: the microSD controller's writes (R61), a model fault where they reach the attached IPL (R60), then the
boundary. -/
def nextAction (s : State) : Action :=
  if dmaOntoIpl s then .done (.fault .iplWrite) else boundary (dmaTick s)

/-- A state with nothing in the way of the fetch of the words at the PC: the CPU running, no transfer in progress, no
interrupt ready, the MMU off, and the IPL detached where its overlay covers one of the four bytes. -/
def readyToFetch (s : State) : State :=
  let covered := overlaid s s.pc || overlaid s (s.pc + 1) || overlaid s (s.pc + 2) || overlaid s (s.pc + 3)
  { s with
    halted := false
    dev := { s.dev with sdBusy := false }
    pending := if anyIrqReady s then IrqLines.clear else s.pending
    mmu := { s.mmu with on := false }
    ipl := { s.ipl with attached := s.ipl.attached && !covered } }

/-- The two words of an opcode-table instruction stored where the next step fetches. -/
def placeFetch (s : State) (nbits w : Nat) : State :=
  let ws := tableWords nbits w
  let s1 := readyToFetch s
  putWord (putWord s1 s.pc ws.1) (s.pc + 2) ws.2

end Sys2Proof.Machine
end

