-- ==== Sys2Proof/Machine/Step.lean ====
section
/-! DEFINITION. One step of the machine, and the placing of an instruction where the next step fetches it. -/

namespace Sys2Proof.Machine

/-- One step (R212): an interrupt entry, or one instruction. -/
def step (s : State) : Host.Outcome State Fault Refusal :=
  match nextAction s with
  | .done r => r
  | .run i s' => exec i s'

/-- The state with the instruction of an opcode-table row stored at the PC (log 6). -/
def State.withFetchWord (s : State) (nbits w : Nat) : State := placeFetch s nbits w

end Sys2Proof.Machine
end

