-- ==== Sys2Proof/Machine/Asm.lean ====
section
/-! DEFINITION. The assembler notation (R90) and the choice of the short forms (R91). The machine does not read it; it says
which instruction a line of assembly stands for. Numbers are written in decimal: the source gives no number syntax. -/

namespace Sys2Proof.Machine

/-- The name of a register (R90). -/
def regName : Reg → String
  | .g0 => "G0" | .g1 => "G1" | .g2 => "G2" | .g3 => "G3" | .g4 => "G4" | .g5 => "G5" | .g6 => "G6" | .g7 => "G7"
  | .g8 => "G8" | .g9 => "G9" | .g10 => "G10" | .g11 => "G11" | .fp => "FP" | .sp => "SP" | .usp => "USP"
  | .flag => "FLAG"

/-- A memory form as written after `Rd,` (R90). -/
def memText : MemForm → String
  | .direct d => toString d.toNat
  | .indexed d rx => toString d.toNat ++ "," ++ regName rx
  | .fpRel d4 => toString (2 * d4.toInt) ++ ",FP"
  | .indirect rx => "0," ++ regName rx
  | .byteIndirect rx => "@" ++ regName rx

/-- An operand form as written after `Rd,` (R90). -/
def operandText : Operand → String
  | .mem m => memText m
  | .imm d => "#" ++ toString d.toInt
  | .reg rs => regName rs
  | .imm4 i4 => "#" ++ toString i4.toInt

/-- A jump or CALL target (R90). -/
def targetText : Target → String
  | .direct d => toString d.toNat
  | .indexed d rx => toString d.toNat ++ "," ++ regName rx

/-- A port (R90). -/
def portText : Port → String
  | .direct d => toString d.toNat
  | .indirect rx => "0," ++ regName rx

/-- A line of assembly (R90). -/
def asmText : Instr → String
  | .no => "NO"
  | .ld rd src => "LD " ++ regName rd ++ "," ++ operandText src
  | .st rd dst => "ST " ++ regName rd ++ "," ++ memText dst
  | .add rd src => "ADD " ++ regName rd ++ "," ++ operandText src
  | .sub rd src => "SUB " ++ regName rd ++ "," ++ operandText src
  | .cmp rd src => "CMP " ++ regName rd ++ "," ++ operandText src
  | .and rd src => "AND " ++ regName rd ++ "," ++ operandText src
  | .or rd src => "OR " ++ regName rd ++ "," ++ operandText src
  | .xor rd src => "XOR " ++ regName rd ++ "," ++ operandText src
  | .adds rd src => "ADDS " ++ regName rd ++ "," ++ operandText src
  | .mul rd src => "MUL " ++ regName rd ++ "," ++ operandText src
  | .div rd src => "DIV " ++ regName rd ++ "," ++ operandText src
  | .mod rd src => "MOD " ++ regName rd ++ "," ++ operandText src
  | .shla rd src => "SHLA " ++ regName rd ++ "," ++ operandText src
  | .shll rd src => "SHLL " ++ regName rd ++ "," ++ operandText src
  | .shra rd src => "SHRA " ++ regName rd ++ "," ++ operandText src
  | .shrl rd src => "SHRL " ++ regName rd ++ "," ++ operandText src
  | .jz t => "JZ " ++ targetText t
  | .jc t => "JC " ++ targetText t
  | .jm t => "JM " ++ targetText t
  | .jo t => "JO " ++ targetText t
  | .jgt t => "JGT " ++ targetText t
  | .jge t => "JGE " ++ targetText t
  | .jle t => "JLE " ++ targetText t
  | .jlt t => "JLT " ++ targetText t
  | .jnz t => "JNZ " ++ targetText t
  | .jnc t => "JNC " ++ targetText t
  | .jnm t => "JNM " ++ targetText t
  | .jno t => "JNO " ++ targetText t
  | .jhi t => "JHI " ++ targetText t
  | .jls t => "JLS " ++ targetText t
  | .jmp t => "JMP " ++ targetText t
  | .call t => "CALL " ++ targetText t
  | .inPort rd p => "IN " ++ regName rd ++ "," ++ portText p
  | .outPort rd p => "OUT " ++ regName rd ++ "," ++ portText p
  | .push rd => "PUSH " ++ regName rd
  | .pop rd => "POP " ++ regName rd
  | .ret => "RET"
  | .reti => "RETI"
  | .svc => "SVC"
  | .halt => "HALT"

/-- The form of `OP Rd,d,Rx` (R91): FP relative where Rx is FP and `d` is even and from -16 to 14, Register indirect where `d`
is 0, else Indexed. DESIGN CHOICE (log 24), safe: `OP Rd,0,FP` fits both short forms, and R91 does not say which it takes;
here it is FP relative. -/
def chooseDisp (d : Word) (rx : Reg) : MemForm :=
  if rx = .fp ∧ d.getLsbD 0 = false ∧ -16 ≤ d.toInt ∧ d.toInt ≤ 14 then .fpRel ((d.sshiftRight 1).truncate 4)
  else if d = 0 then .indirect rx
  else .indexed d rx

/-- The form of `OP Rd,#n` (R91): the 4-bit form from -8 to 7, else Immediate. -/
def chooseImm (n : Word) : Operand := if -8 ≤ n.toInt ∧ n.toInt ≤ 7 then .imm4 (n.truncate 4) else .imm n

end Sys2Proof.Machine
end

