-- ==== Sys2Proof/Machine/Timing.lean ====
section
/-! DEFINITION. The state counts of the instruction table (R265): information only, which no step reads. -/

namespace Sys2Proof.Machine

/-- The counts of a memory form over a base of 5: Direct and Indexed take two more. -/
def memStates : MemForm → Nat
  | .direct _ | .indexed _ _ => 7
  | .fpRel _ | .indirect _ | .byteIndirect _ => 5

/-- The counts of an operand form, for LD and the flag-changing instructions but DIV and MOD. -/
def operandStates : Operand → Nat
  | .mem m => memStates m
  | .imm _ => 5
  | .reg _ | .imm4 _ => 4

/-- The number of states of an instruction (R265); none for RET and RETI, whose counts the source's text leaves ambiguous
(conflict C5: 6 or 9, and 9 or nothing). -/
def stateCount : Instr → Option Nat
  | .no => some 3
  | .ld _ src | .add _ src | .sub _ src | .cmp _ src | .and _ src | .or _ src | .xor _ src | .adds _ src | .mul _ src
  | .shla _ src | .shll _ src | .shra _ src | .shrl _ src => some (operandStates src)
  | .div _ src | .mod _ src => some (operandStates src + 16)
  | .st _ dst => some (memStates dst)
  | .jz _ | .jc _ | .jm _ | .jo _ | .jgt _ | .jge _ | .jle _ | .jlt _ | .jnz _ | .jnc _ | .jnm _ | .jno _ | .jhi _
  | .jls _ | .jmp _ => some 5
  | .call _ => some 7
  | .inPort _ (.direct _) => some 6
  | .inPort _ (.indirect _) => some 4
  | .outPort _ (.direct _) => some 5
  | .outPort _ (.indirect _) => some 3
  | .push _ | .pop _ => some 5
  | .ret | .reti => none
  | .svc => some 14
  | .halt => some 3

end Sys2Proof.Machine
end

