-- ==== Sys2Proof/Safety.lean ====
section
/-! DEFINITION. The terms the statements use: when an access is one the spec defines with the MMU off, what an operand then
is, what a physical register is, what an instruction leaves alone, and the invariants. -/

namespace Sys2Proof.Machine

/-! Accesses with the MMU off (R46, R59, R60). -/

/-- A word can be read at the address. -/
def wordReadable (s : State) (a : Word) : Bool := !s.mmu.on && !isOdd a

/-- A word can be written at the address. -/
def wordWritable (s : State) (a : Word) : Bool := !s.mmu.on && !isOdd a && !overlaid s a && !overlaid s (a + 1)

/-- A byte can be written at the address. -/
def byteWritable (s : State) (a : Word) : Bool := !s.mmu.on && !overlaid s a

/-- A memory form can be read. -/
def formReadable (s : State) (m : MemForm) : Bool := !s.mmu.on && (isByteForm m || !isOdd (effectiveAddr s m))

/-- A memory form can be written. -/
def formWritable (s : State) (m : MemForm) : Bool :=
  if isByteForm m then byteWritable s (effectiveAddr s m) else wordWritable s (effectiveAddr s m)

/-- An operand can be read. -/
def operandReadable (s : State) : Operand → Bool
  | .mem m => formReadable s m
  | .imm _ | .reg _ | .imm4 _ => true

/-- The value of a memory form. -/
def formValue (s : State) (m : MemForm) : Word :=
  if isByteForm m then zextByte (byteAt s (effectiveAddr s m)) else wordAt s (effectiveAddr s m)

/-- The value of an operand (R80 to R87). -/
def operandValue (s : State) : Operand → Word
  | .mem m => formValue s m
  | .imm d => d
  | .reg rs => readReg s rs
  | .imm4 i4 => sextNibble i4

/-- The bytes a store of a memory form reaches (R44, R45). -/
def storedBytes (s : State) (m : MemForm) : List Word :=
  if isByteForm m then [effectiveAddr s m] else [effectiveAddr s m, effectiveAddr s m + 1]

/-- The two pushes of a trap entry are defined (R215, R221). -/
def entryReady (s : State) : Bool := wordWritable s (s.regs.ssp - 2) && wordWritable s (s.regs.ssp - 4)

/-- The four bytes a trap entry stores. -/
def frameBytes (s : State) : List Word :=
  [s.regs.ssp - 4, s.regs.ssp - 4 + 1, s.regs.ssp - 2, s.regs.ssp - 2 + 1]

/-! Physical registers (R11 to R14). -/

/-- The physical registers but PC and FLAG. -/
inductive PhysReg where
  | g0 | g1 | g2 | g3 | g4 | g5 | g6 | g7 | g8 | g9 | g10 | g11 | fp | ssp | usp
deriving DecidableEq, Repr

/-- The content of a physical register. -/
def Regs.get (r : Regs) : PhysReg → Word
  | .g0 => r.g0 | .g1 => r.g1 | .g2 => r.g2 | .g3 => r.g3 | .g4 => r.g4 | .g5 => r.g5 | .g6 => r.g6 | .g7 => r.g7
  | .g8 => r.g8 | .g9 => r.g9 | .g10 => r.g10 | .g11 => r.g11 | .fp => r.fp | .ssp => r.ssp | .usp => r.usp

/-- The physical register a register number names; none for FLAG (R12, R13). -/
def physReg (s : State) : Reg → Option PhysReg
  | .g0 => some .g0 | .g1 => some .g1 | .g2 => some .g2 | .g3 => some .g3 | .g4 => some .g4 | .g5 => some .g5
  | .g6 => some .g6 | .g7 => some .g7 | .g8 => some .g8 | .g9 => some .g9 | .g10 => some .g10 | .g11 => some .g11
  | .fp => some .fp
  | .sp => if s.flag.p then some .ssp else some .usp
  | .usp => some .usp
  | .flag => none

/-- The physical stack pointer in use. -/
def activeSp (s : State) : PhysReg := if s.flag.p then .ssp else .usp

/-! Frames. -/

/-- Every physical register but those listed is unchanged. -/
def sameRegsBut (s t : State) (changed : List PhysReg) : Prop := ∀ q, q ∉ changed → t.regs.get q = s.regs.get q

/-- Every byte of memory but those listed reads as before. -/
def sameBytesBut (s t : State) (changed : List Word) : Prop := ∀ a, a ∉ changed → byteAt t a = byteAt s a

/-- E, P, I and U are unchanged. -/
def sameControlFlags (s t : State) : Prop :=
  t.flag.e = s.flag.e ∧ t.flag.p = s.flag.p ∧ t.flag.i = s.flag.i ∧ t.flag.u = s.flag.u

/-- Everything outside the CPU's registers, FLAG, PC, memory and the draw counter is unchanged: the IPL, the halted bit, the
request lines, the MMU registers, the device registers and the OUT record. -/
def sameSystem (s t : State) : Prop :=
  t.ipl = s.ipl ∧ t.halted = s.halted ∧ t.pending = s.pending ∧ t.mmu = s.mmu ∧ t.dev = s.dev ∧ t.ioLog = s.ioLog

/-- Memory, the system state and the draw counter are unchanged. -/
def sameElsewhere (s t : State) : Prop := sameBytesBut s t [] ∧ sameSystem s t ∧ t.draws = s.draws

/-! Invariants. -/

/-- The memory is in its canonical form. -/
def memCanonical (s : State) : Bool := s.mem.wf

/-- A device register with a stated layout holds only the bits of that layout (R244 to R251). -/
def layoutsHold (d : Devices) : Bool :=
  decide (d.timer0Ctrl &&& 0x7FFE = 0) && decide (d.timer1Ctrl &&& 0x7FFE = 0) && decide (d.ft232rlCtrl &&& 0x3F = 0)
    && decide (d.tecCtrl &&& 0x3F = 0) && decide (d.rn4020Ctrl &&& 0x3F = 0) && decide (d.sdCtrl &&& 0x78 = 0)
    && decide (d.outPortHi &&& 0x70 = 0) && decide (d.rn4020Cmd &&& 0xF0 = 0)

/-! Encodings. -/

/-- The form number OP[2:0] of a memory form (R72). -/
def memFormNumber : MemForm → Nat
  | .direct _ => 0
  | .indexed _ _ => 1
  | .fpRel _ => 3
  | .indirect _ => 6
  | .byteIndirect _ => 7

/-- The form number OP[2:0] of an operand form (R72). -/
def formNumber : Operand → Nat
  | .mem m => memFormNumber m
  | .imm _ => 2
  | .reg _ => 4
  | .imm4 _ => 5

/-- The field in bits 3:0 of the first word of a memory form, and its second word if any (R72). -/
def memFields : MemForm → Nibble × Option Word
  | .direct d => (0, some d)
  | .indexed d rx => (rx.toNibble, some d)
  | .fpRel d4 => (d4, none)
  | .indirect rx => (rx.toNibble, none)
  | .byteIndirect rx => (rx.toNibble, none)

/-- The field in bits 3:0 of the first word of an operand form, and its second word if any (R72). -/
def operandFields : Operand → Nibble × Option Word
  | .mem m => memFields m
  | .imm d => (0, some d)
  | .reg rs => (rs.toNibble, none)
  | .imm4 i4 => (i4, none)

/-- The opcodes of two-word instructions (R73). -/
abbrev twoWordOpcode (op : Nat) : Prop :=
  ((1 ≤ op / 8 ∧ op / 8 ≤ 12) ∨ (16 ≤ op / 8 ∧ op / 8 ≤ 23)) ∧ op % 8 ≤ 2

/-- The instruction is encoded with these three fields in its first word and this second word (R70): a statement in numbers,
the first word being `OP * 256 + Rd * 16 + Rx`. -/
def encodesTo (i : Instr) (op : Nat) (rd : Nibble) (low : Nibble × Option Word) : Prop :=
  (encode i).map BitVec.toNat = (op * 256 + rd.toNat * 16 + low.1.toNat) :: (low.2.map BitVec.toNat).toList

/-! Results and flags as numbers (R110, R130). -/

/-- Bit 15 of a 16-bit number. -/
def bit15 (n : Nat) : Bool := decide (32768 ≤ n)

/-- A result given as a number below 2^16, with V and C as given and S and Z from the result (R110). -/
def resultIs (r : Nat) (v c : FlagBit) : AluOut :=
  { result := BitVec.ofNat 16 r, v := v, c := c, s := bit15 r, z := decide (r = 0) }

/-- R111. -/
def addRule (a b : Nat) : AluOut :=
  let r := (a + b) % 65536
  resultIs r (.known (decide (bit15 a = bit15 b ∧ bit15 r ≠ bit15 a))) (.known (decide (65536 ≤ a + b)))

/-- R112, R113. -/
def subRule (a b : Nat) : AluOut :=
  let r := (a + 65536 - b) % 65536
  resultIs r (.known (decide (bit15 a ≠ bit15 b ∧ bit15 r ≠ bit15 a))) (.known (decide (a < b)))

/-- R119, R120: the quotient or the remainder, `q` being the parameter divmod's answer outside the common domain. -/
def divRule (f : Nat → Nat → Nat) (q : Word) (a b : Nat) : AluOut :=
  resultIs (if a < 32768 ∧ b < 32768 then f a b else q.toNat) .drawn .drawn

/-- R130: a shift whose value for a count up to 15 is `f`, above it that of the parameter shiftBig for `op`, and whose bit
moved out by a count of 1 is `out`. -/
def shiftRule (op : ShiftOp) (f : Word → Nat → Nat) (out : Word → Bool) (a n : Word) : AluOut :=
  resultIs (if n.toNat ≤ 15 then f a n.toNat else (Config.shiftBig op a n).toNat) .drawn
    (if n.toNat = 1 then .known (out a) else .drawn)

/-! Effects and frames. -/

/-- Register number `rd` takes the word `v`, by the table of R12 and the mask of R21, and no other register or flag changes. -/
def takes (rd : Reg) (v : Word) (s t : State) : Prop :=
  (rd ≠ .flag → readReg t rd = v ∧ t.flag = s.flag) ∧
  (rd = .flag → t.flag = writeFlag s.flag v) ∧
  sameRegsBut s t (physReg s rd).toList

/-- What a flag-changing instruction leaves when its result and flags are `o` (R110): the flags, with a draw taking the next
free values (R31); Rd, if it is written; the PC; and nothing else. -/
def aluEffect (o : AluOut) (store : Bool) (rd : Reg) (long : Bool) (s t : State) : Prop :=
  (store = true → readReg t rd = o.result) ∧
  t.flag.v = o.v.value (Config.drawV s.draws) ∧ t.flag.c = o.c.value (Config.drawC s.draws) ∧
  t.flag.s = o.s ∧ t.flag.z = o.z ∧ sameControlFlags s t ∧
  t.draws = (if o.v = .drawn ∨ o.c = .drawn then s.draws + 1 else s.draws) ∧
  t.pc = s.pc + (if long then 4 else 2) ∧
  sameRegsBut s t (if store then (physReg s rd).toList else []) ∧ sameBytesBut s t [] ∧ sameSystem s t

/-- A word operand at an odd address, with the MMU off, stops the instruction with a model fault (R46). -/
def oddFaults (mk : Operand → Instr) (s : State) : Prop :=
  ∀ m, s.mmu.on = false → isByteForm m = false → isOdd (effectiveAddr s m) = true →
    exec (mk (.mem m)) s = .fault .misaligned

/-- The rule of a flag-changing instruction whose result and flags are `spec` of the old Rd and the operand (R110, R121): its
opcode is `base` plus the form; with Rd = Fh it is refused; with a readable operand it has its effect. -/
def aluRule (mk : Reg → Operand → Instr) (base : Nat) (store : Bool) (spec : Word → Word → AluOut) : Prop :=
  (∀ rd src, encodesTo (mk rd src) (base + formNumber src) rd.toNibble (operandFields src)) ∧
  (∀ src s, exec (mk .flag src) s = .refused .flagDestination) ∧
  (∀ rd src s, rd ≠ .flag → operandReadable s src = true →
    ∃ t, exec (mk rd src) s = .next t ∧
      aluEffect (spec (readReg s rd) (operandValue s src)) store rd src.isLong s t)

/-- What a trap entry leaves (R215, R218): P set and E cleared, the saved PC and the old FLAG on the system stack, SSP down by
4, the PC at the handler the vector names, and nothing else changed. -/
def entryEffect (vector spc : Word) (s t : State) : Prop :=
  t.flag = { s.flag with p := true, e := false } ∧ t.regs = { s.regs with ssp := s.regs.ssp - 4 } ∧
  wordAt t (s.regs.ssp - 2) = spc ∧ wordAt t (s.regs.ssp - 4) = flagWord s.flag ∧
  t.pc = wordAt t vector ∧ sameBytesBut s t (frameBytes s) ∧ sameSystem s t ∧ t.draws = s.draws

/-- The rule of a division whose result and flags for a divisor other than 0 are `spec` (R119, R120): otherwise as `aluRule`,
with ZeroDivide through FFF8h for a divisor of 0, and sixteen states more than the other arithmetic instructions. -/
def divideRule (mk : Reg → Operand → Instr) (base : Nat) (spec : Word → Word → AluOut) : Prop :=
  (∀ rd src, encodesTo (mk rd src) (base + formNumber src) rd.toNibble (operandFields src)) ∧
  (∀ src s, exec (mk .flag src) s = .refused .flagDestination) ∧
  (∀ rd src s, rd ≠ .flag → operandReadable s src = true → operandValue s src ≠ 0 →
    ∃ t, exec (mk rd src) s = .next t ∧
      aluEffect (spec (readReg s rd) (operandValue s src)) true rd src.isLong s t) ∧
  (∀ rd src s, rd ≠ .flag → operandReadable s src = true → operandValue s src = 0 → entryReady s = true →
    ∃ t, exec (mk rd src) s = .next t ∧ entryEffect 0xFFF8 (savedPcOther s.pc (nextPc s src.isLong)) s t) ∧
  (∀ rd src, stateCount (mk rd src) = (stateCount (.add rd src)).map (· + 16))

/-- The rule of a jump with a condition code and a condition on FLAG (R140): only the PC changes. -/
def jumpRule (mk : Target → Instr) (cc : Nibble) (cond : Flag → Prop) : Prop :=
  (∀ d, encodesTo (mk (.direct d)) 0xA0 cc (0, some d)) ∧
  (∀ d rx, encodesTo (mk (.indexed d rx)) 0xA1 cc (rx.toNibble, some d)) ∧
  (∀ t s, cond s.flag → exec (mk t) s = .next (s.withPc (targetAddr s t))) ∧
  (∀ t s, ¬cond s.flag → exec (mk t) s = .next (s.withPc (s.pc + 4)))

/-! Steps. -/

/-- The opcodes R75 lists as undefined. -/
def undefinedOpcodes (op : Nat) : Prop :=
  (0x01 ≤ op ∧ op ≤ 0x07) ∨ op = 0x12 ∨ op = 0x14 ∨ op = 0x15 ∨ (0x68 ≤ op ∧ op ≤ 0x7F) ∨ (0xA2 ≤ op ∧ op ≤ 0xA7) ∨
  (0xAA ≤ op ∧ op ≤ 0xAF) ∨ (0xB1 ≤ op ∧ op ≤ 0xB5) ∨ (0xB9 ≤ op ∧ op ≤ 0xBD) ∨ (0xC1 ≤ op ∧ op ≤ 0xC3) ∨
  (0xC5 ≤ op ∧ op ≤ 0xCF) ∨ (0xD1 ≤ op ∧ op ≤ 0xD3) ∨ (0xD5 ≤ op ∧ op ≤ 0xEF) ∨ (0xF1 ≤ op ∧ op ≤ 0xFE)

/-- The first words R76 refuses: a fixed field of a defined opcode at another value. The words of A0h and A1h with the
condition Dh are R77's. -/
def reservedWord (w : Word) : Prop :=
  let op := (opField w).toNat
  let rd := rdField w
  let rx := rxField w
  ((op = 0x00 ∨ op = 0xD0 ∨ op = 0xF0 ∨ op = 0xFF) ∧ (rd ≠ 0 ∨ rx ≠ 0)) ∨
  (op = 0xD4 ∧ (rd ≠ 0xF ∨ rx ≠ 0)) ∨
  ((op = 0xC0 ∨ op = 0xC4 ∨ op = 0xB0 ∨ op = 0xB8) ∧ rx ≠ 0) ∨
  (op = 0xA8 ∧ (rd ≠ 0 ∨ rx ≠ 0)) ∨ (op = 0xA9 ∧ rd ≠ 0) ∨
  (op = 0xA0 ∧ rd ≠ 0xD ∧ rx ≠ 0) ∨
  (((0x08 ≤ op ∧ op ≤ 0x67) ∨ (0x80 ≤ op ∧ op ≤ 0x9F)) ∧ (op % 8 = 0 ∨ (op % 8 = 2 ∧ op ≠ 0x12)) ∧ rx ≠ 0)

/-- Nothing but the fetch of the words at the PC happens next: the CPU running, no transfer in progress, no interrupt ready,
the MMU off and the PC even. -/
def atFetch (s : State) : Prop :=
  s.halted = false ∧ s.dev.sdBusy = false ∧ anyIrqReady s = false ∧ wordReadable s s.pc = true

/-- The instruction run by an action, or the action's own outcome. -/
def runAction : Action → Result
  | .done r => r
  | .run i s => exec i s

/-- An interrupt source may be taken (R205, R210): E, the source's own enable bit, and its request. -/
def mayInterrupt (s : State) (q : Irq) : Prop :=
  s.flag.e = true ∧ s.pending.get q = true ∧
  match q with
  | .timer0 => s.dev.timer0Ctrl.getLsbD 15 = true
  | .timer1 => s.dev.timer1Ctrl.getLsbD 15 = true
  | .rn4020Recv => s.dev.rn4020Ctrl.getLsbD 6 = true
  | .rn4020Send => s.dev.rn4020Ctrl.getLsbD 7 = true
  | .ft232rlRecv => s.dev.ft232rlCtrl.getLsbD 6 = true
  | .ft232rlSend => s.dev.ft232rlCtrl.getLsbD 7 = true
  | .tecRecv => s.dev.tecCtrl.getLsbD 6 = true
  | .tecSend => s.dev.tecCtrl.getLsbD 7 = true
  | .microSd => s.dev.sdCtrl.getLsbD 7 = true
  | .pio => True

/-- The instruction writes FLAG as data (R30): LD, POP or IN with Rd = Fh, or RETI. -/
def loadsFlag : Instr → Bool
  | .ld rd _ | .pop rd | .inPort rd _ => decide (rd = .flag)
  | .reti => true
  | .no | .st _ _ | .add _ _ | .sub _ _ | .cmp _ _ | .and _ _ | .or _ _ | .xor _ _ | .adds _ _ | .mul _ _
  | .div _ _ | .mod _ _ | .shla _ _ | .shll _ _ | .shra _ _ | .shrl _ _ | .jz _ | .jc _ | .jm _ | .jo _ | .jgt _
  | .jge _ | .jle _ | .jlt _ | .jnz _ | .jnc _ | .jnm _ | .jno _ | .jhi _ | .jls _ | .jmp _ | .call _
  | .outPort _ _ | .push _ | .ret | .svc | .halt => false

/-- The jumps of R140's comparison table, run in a state a CMP or SUB of `a` and `b` has left, test their relations. -/
def jumpsCompare (a b : Word) (t : State) : Prop :=
  ∀ d : Word,
    exec (.jgt (.direct d)) t = .next (t.withPc (if b.toInt < a.toInt then d else t.pc + 4)) ∧
    exec (.jge (.direct d)) t = .next (t.withPc (if b.toInt ≤ a.toInt then d else t.pc + 4)) ∧
    exec (.jle (.direct d)) t = .next (t.withPc (if a.toInt ≤ b.toInt then d else t.pc + 4)) ∧
    exec (.jlt (.direct d)) t = .next (t.withPc (if a.toInt < b.toInt then d else t.pc + 4)) ∧
    exec (.jhi (.direct d)) t = .next (t.withPc (if b.toNat < a.toNat then d else t.pc + 4)) ∧
    exec (.jnc (.direct d)) t = .next (t.withPc (if b.toNat ≤ a.toNat then d else t.pc + 4)) ∧
    exec (.jls (.direct d)) t = .next (t.withPc (if a.toNat ≤ b.toNat then d else t.pc + 4)) ∧
    exec (.jc (.direct d)) t = .next (t.withPc (if a.toNat < b.toNat then d else t.pc + 4)) ∧
    exec (.jz (.direct d)) t = .next (t.withPc (if a = b then d else t.pc + 4)) ∧
    exec (.jnz (.direct d)) t = .next (t.withPc (if a ≠ b then d else t.pc + 4))

/-! Accesses with the MMU on (R57 to R59, R202, R203, R209, R221). -/

/-- The frame's number above the offset of the address in its page of 256 bytes (R57). -/
def inFrame (f : Byte) (a : Word) : Word := BitVec.ofNat 16 (f.toNat * 256 + a.toNat % 256)

/-- An access of an instruction in the state `s` with the MMU on: `k` of the physical address, or the exception translate
answers, taken from `s` with the access's page, or its address and the cause, recorded. -/
def underMmu (kind : AccessKind) (a pcn : Word) (s : State) (k : Word → Result) : Result :=
  match Config.translate s.flag.p kind a s.mmu.tlb with
  | .frame f => k (inFrame f a)
  | .tlbMiss => trapEntry .tlbMiss (savedPcOther s.pc pcn) (s.withMmu { s.mmu with page := hiByte a })
  | .violation badAddr memVio =>
    trapEntry .memViolation (savedPcOther s.pc pcn)
      (s.withMmu { s.mmu with violAddr := a, badAddr := badAddr, memVio := memVio })

/-- A word read with the MMU on: `k` of the word, or a model fault at an odd address (R46). -/
def wordLoadUnderMmu (kind : AccessKind) (a pcn : Word) (s : State) (k : Word → Result) : Result :=
  underMmu kind a pcn s fun pa => if isOdd a then .fault .misaligned else k (wordAt s pa)

/-- A word write with the MMU on: `k` of the physical address, or a model fault at an odd address or onto the overlay (R46,
R60). -/
def wordStoreUnderMmu (a pcn : Word) (s : State) (k : Word → Result) : Result :=
  underMmu .write a pcn s fun pa =>
    if isOdd a then .fault .misaligned
    else if overlaid s pa ∨ overlaid s (pa + 1) then .fault .iplWrite
    else k pa

/-- A memory form read with the MMU on: `k` of the word or of the zero-extended byte (R45). -/
def loadUnderMmu (s : State) (m : MemForm) (k : Word → Result) : Result :=
  if isByteForm m then
    underMmu .read (effectiveAddr s m) (s.pc + if m.isLong then 4 else 2) s fun pa => k (zextByte (byteAt s pa))
  else wordLoadUnderMmu .read (effectiveAddr s m) (s.pc + if m.isLong then 4 else 2) s k

/-- A word access of a trap entry with the MMU on, in privileged mode: `k` of the physical address, a model fault at an odd
address, or the refusal of an exception (R221). -/
def entryAccess (kind : AccessKind) (a : Word) (s : State) (k : Word → Result) : Result :=
  match Config.translate true kind a s.mmu.tlb with
  | .frame f => if isOdd a then .fault .misaligned else k (inFrame f a)
  | .tlbMiss | .violation _ _ => .refused .mmuInTrapEntry

/-- Trap entry with the MMU on (R215, R221): the two pushes and the vector read at their physical addresses. -/
def entryUnderMmu (vector spc : Word) (s : State) : Result :=
  entryAccess .write (s.regs.ssp - 2) s fun pa =>
    if overlaid s pa ∨ overlaid s (pa + 1) then .fault .iplWrite
    else
      entryAccess .write (s.regs.ssp - 4) s fun pb =>
        if overlaid s pb ∨ overlaid s (pb + 1) then .fault .iplWrite
        else
          entryAccess .read vector s fun pv =>
            let s1 := putWord (putWord s pa spc) pb (flagWord s.flag)
            .next (((s1.withFlag { s.flag with p := true, e := false }).withRegs
              { s.regs with ssp := s.regs.ssp - 4 }).withPc (wordAt s1 pv))

/-! The I/O space. -/

/-- A port IN and OUT are defined at (R48). -/
def portDefined (s : State) (p : Port) : Prop := (portAddr s p).toNat % 2 = 0 ∧ (portAddr s p).toNat ≤ 0xFE

/-- OUT to a port, in either form and where it is allowed, completes and leaves these device registers. -/
def outLeaves (port : Word) (f : Devices → Word → Devices) : Prop :=
  ∀ rd p s, portAddr s p = port → ioAllowed s.flag = true →
    ∃ t, exec (.outPort rd p) s = .next t ∧ t.dev = f s.dev (readReg s rd)

/-- Every device register but the one behind port `n` is unchanged (R244 to R252). -/
def sameDevicesBut (n : Nat) (d e : Devices) : Prop :=
  (n ≠ 0x00 → e.timer0Period = d.timer0Period) ∧ (n ≠ 0x02 → e.timer0Ctrl = d.timer0Ctrl) ∧
  (n ≠ 0x04 → e.timer1Period = d.timer1Period) ∧ (n ≠ 0x06 → e.timer1Ctrl = d.timer1Ctrl) ∧
  (n ≠ 0x08 → e.ft232rlData = d.ft232rlData) ∧ (n ≠ 0x0A → e.ft232rlCtrl = d.ft232rlCtrl) ∧
  (n ≠ 0x0C → e.tecData = d.tecData) ∧ (n ≠ 0x0E → e.tecCtrl = d.tecCtrl) ∧
  (n ≠ 0x10 → e.sdCtrl = d.sdCtrl ∧ e.sdBusy = d.sdBusy) ∧ (n ≠ 0x12 → e.sdMemAddr = d.sdMemAddr) ∧
  (n ≠ 0x14 → e.sdBlkAddrH = d.sdBlkAddrH) ∧ (n ≠ 0x16 → e.sdBlkAddrL = d.sdBlkAddrL) ∧
  (n ≠ 0x18 → e.ioPort = d.ioPort) ∧ (n ≠ 0x1A → e.adcRef = d.adcRef) ∧ (n ≠ 0x1C → e.outPortHi = d.outPortHi) ∧
  (n ≠ 0x20 → e.spiData = d.spiData) ∧ (n ≠ 0x22 → e.spiSclk = d.spiSclk) ∧ (n ≠ 0x24 → e.pioMask = d.pioMask) ∧
  (n ≠ 0x26 → e.pioXor = d.pioXor) ∧ (n ≠ 0x28 → e.rn4020Data = d.rn4020Data) ∧
  (n ≠ 0x2A → e.rn4020Ctrl = d.rn4020Ctrl) ∧ (n ≠ 0x2C → e.rn4020Cmd = d.rn4020Cmd) ∧
  (n ≠ 0x2E → e.rn4020Ram = d.rn4020Ram) ∧ (n ≠ 0x32 → e.tecDataSw = d.tecDataSw) ∧
  (n ≠ 0x34 → e.tecFuncSw = d.tecFuncSw) ∧ (n ≠ 0x36 → e.tecControl = d.tecControl) ∧
  (n ≠ 0xF8 → e.consoleData = d.consoleData)

/-- What OUT of the word `v` leaves in the MMU's registers (R56 to R59): A2h keeps the word and switches the MMU as mmuEnable
has it, a TLB port writes its half of its entry, and every other port leaves them. -/
def mmuAfterOut (port v : Word) (m m' : Mmu) : Prop :=
  (port = 0xA2 → m' = { m with ctl := v, on := Config.mmuEnable v }) ∧
  (∀ n : Fin 8, port.toNat = 0x80 + 4 * n.val →
    m' = { m with tlb := m'.tlb } ∧
    ∀ k : Fin 8, m'.tlb[k] = if k = n then { m.tlb[k] with page := loByte v } else m.tlb[k]) ∧
  (∀ n : Fin 8, port.toNat = 0x82 + 4 * n.val →
    m' = { m with tlb := m'.tlb } ∧
    ∀ k : Fin 8, m'.tlb[k] =
      if k = n then
        { page := m.tlb[k].page, valid := v.getLsbD 15, referenced := v.getLsbD 12, dirty := v.getLsbD 11,
          canRead := v.getLsbD 10, canWrite := v.getLsbD 9, canExec := v.getLsbD 8, frame := loByte v }
      else m.tlb[k]) ∧
  (port ≠ 0xA2 → (port.toNat < 0x80 ∨ 0x9E < port.toNat) → m' = m)

/-- The MMU's registers after IN (R58, R209): A2h, A4h and A6h clear what they read where mmuReadClears says so, and no other
port changes any. -/
def mmuAfterIn (port : Word) (m : Mmu) : Mmu :=
  if Config.mmuReadClears port then
    if port = 0xA2 then { m with violAddr := 0 }
    else if port = 0xA4 then { m with badAddr := false, memVio := false }
    else if port = 0xA6 then { m with page := 0 }
    else m
  else m

/-- The bits a read of a port may have set, by the layouts of R244 to R252 and R57, R58: an 8-bit register reads 00h in its
upper byte. -/
def portBits (p : Nat) : Word :=
  if p = 0x0A ∨ p = 0x0E ∨ p = 0x2A then 0x00C0
  else if p = 0x10 then 0x00C1
  else if p = 0x1E then 0x0007
  else if p = 0x2C then 0x000F
  else if p = 0xFC then 0x001F
  else if p = 0xFE then 0x000F
  else if p = 0x32 ∨ p = 0x34 ∨ (0x38 ≤ p ∧ p < 0x80) then 0
  else if p ≤ 0x06 ∨ p = 0x12 ∨ p = 0x14 ∨ p = 0x16 then 0xFFFF
  else if p < 0x38 then 0x00FF
  else if 0x80 ≤ p ∧ p < 0xA0 ∧ p % 4 = 0 then 0x00FF
  else if p = 0xA6 then 0x00FF
  else 0xFFFF

/-- What a read of a port that holds data of State must answer: RN4020-RAM (R251), the TLB (R57, bits 14 and 13 free) and the
MMU registers (R58). -/
def portHolds (s : State) (p : Nat) (v : Word) : Prop :=
  (p = 0x2E → v = zextByte s.dev.rn4020Ram) ∧
  (∀ n : Fin 8, p = 0x80 + 4 * n.val → v = zextByte s.mmu.tlb[n].page) ∧
  (∀ n : Fin 8, p = 0x82 + 4 * n.val →
    v.getLsbD 15 = s.mmu.tlb[n].valid ∧ v.getLsbD 12 = s.mmu.tlb[n].referenced ∧ v.getLsbD 11 = s.mmu.tlb[n].dirty ∧
    v.getLsbD 10 = s.mmu.tlb[n].canRead ∧ v.getLsbD 9 = s.mmu.tlb[n].canWrite ∧ v.getLsbD 8 = s.mmu.tlb[n].canExec ∧
    loByte v = s.mmu.tlb[n].frame) ∧
  (p = 0xA2 → v = s.mmu.violAddr) ∧
  (p = 0xA4 → v.getLsbD 1 = s.mmu.badAddr ∧ v.getLsbD 0 = s.mmu.memVio) ∧
  (p = 0xA6 → v = zextByte s.mmu.page)

end Sys2Proof.Machine
end

