-- ==== Sys2Proof/Certificates/Slice0/Obligations.lean ====
section
/-! DEFINITION. The statements for the provers. Each holds for every value of the free constants of Config and, unless it says
otherwise, for every state. Sys2Proof/Safety.lean has the terms they use. -/

open Sys2Proof Sys2Proof.Machine

/-! Encoding (R70 to R79). -/

/-- The bytes of every instruction, whatever stands after them, decode to it (R70 to R77). -/
def Obligations.DecodeOfEncode : Prop :=
  ∀ (i : Instr) (rest : List Byte), decodeBytes (encodeBytes i ++ rest) = .ok (i, rest)

/-- An instruction has one encoding: the words it was decoded from (R70 to R77, with the fixed fields of the spec's decision
D25). -/
def Obligations.EncodeOfDecode : Prop :=
  ∀ (w1 w2 : Word) (i : Instr), decode w1 w2 = .ok i → encode i = [w1, w2] ∨ encode i = [w1]

/-- An instruction has two words exactly when OP is in the rows R73 names and OP[2:0] is 0, 1 or 2, and else one (R73 is the
spec's own inference from R72 and R74); the length by which the PC advances is that one, for the instruction and for each of
its forms. -/
def Obligations.LengthFromOpcode : Prop :=
  (∀ (w1 w2 : Word) (i : Instr), decode w1 w2 = .ok i →
    (encode i).length = (if twoWordOpcode (opField w1).toNat then 2 else 1) ∧
    (i.isLong = true ↔ twoWordOpcode (opField w1).toNat)) ∧
  (∀ src : Operand, src.isLong = true ↔ formNumber src ≤ 2) ∧
  (∀ m : MemForm, m.isLong = true ↔ memFormNumber m ≤ 2) ∧
  (∀ d, (Port.direct d).isLong = true) ∧ (∀ rx, (Port.indirect rx).isLong = false)

/-- Words the spec writes out (95_test_vectors.md section 2.1) decode to the instructions it gives for them. -/
def Obligations.SampleWordsDecode : Prop :=
  decode 0x0810 0x1234 = .ok (.ld .g1 (.mem (.direct 0x1234))) ∧
  decode 0x0912 0x0010 = .ok (.ld .g1 (.mem (.indexed 0x0010 .g2))) ∧
  decode 0x0B1F 0 = .ok (.ld .g1 (.mem (.fpRel 0xF))) ∧
  decode 0x163D 0 = .ok (.st .g3 (.indirect .sp)) ∧
  decode 0x1C01 0 = .ok (.add .g0 (.reg .g1)) ∧
  decode 0x2D00 0 = .ok (.cmp .g0 (.imm4 0)) ∧
  decode 0xA103 0x0010 = .ok (.jz (.indexed 0x0010 .g3)) ∧
  decode 0xA905 0 = .ok (.call (.indexed 0 .g5)) ∧
  decode 0xBE01 0 = .ok (.outPort .g0 (.indirect .g1)) ∧
  decode 0xC4C0 0 = .ok (.pop .fp) ∧
  decode 0xD4F0 0 = .ok .reti

/-- Exactly the opcodes R75 lists are undefined, and a step that meets one takes UndefinedInstruction through FFFCh and changes
nothing else (the spec's decisions D24 and, for the saved PC, D19). -/
def Obligations.UndefinedOpcodesTrap : Prop :=
  (∀ w : Word, decodeFirst w = .error .undefinedOpcode ↔ undefinedOpcodes (opField w).toNat) ∧
  (∀ s : State, atFetch s → undefinedOpcodes (opField (wordAt s s.pc)).toNat → entryReady s = true →
    ∃ t, step s = .next t ∧ entryEffect 0xFFFC (savedPcUndef s.pc) s t)

/-- A defined opcode with a wrong fixed field is refused, and so are B7h and BFh (R76, R79: the spec's decisions D25 and
D31). -/
def Obligations.RefusedEncodings : Prop :=
  (∀ w : Word, decodeFirst w = .error .reservedField ↔ reservedWord w) ∧
  (∀ s : State, atFetch s → reservedWord (wordAt s s.pc) → step s = .refused .reservedField) ∧
  (∀ s : State, atFetch s → (opField (wordAt s s.pc) = 0xB7 ∨ opField (wordAt s s.pc) = 0xBF) →
    step s = .refused .contestedOpcode)

/-- The fifteen condition codes of OP = A0h and A1h (R77), and the refusal of the sixteenth (the spec's decision D26). -/
def Obligations.JumpConditionCodes : Prop :=
  (∀ (w1 d : Word) (k : Target → Instr),
    (rdField w1, k) ∈ [((0x0 : Nibble), Instr.jz), (0x1, .jc), (0x2, .jm), (0x3, .jo), (0x4, .jgt), (0x5, .jge),
      (0x6, .jle), (0x7, .jlt), (0x8, .jnz), (0x9, .jnc), (0xA, .jnm), (0xB, .jno), (0xC, .jhi), (0xE, .jls),
      (0xF, .jmp)] →
    (opField w1 = 0xA0 → rxField w1 = 0 → decode w1 d = .ok (k (.direct d))) ∧
    (opField w1 = 0xA1 → decode w1 d = .ok (k (.indexed d (Reg.ofNibble (rxField w1)))))) ∧
  (∀ s : State, atFetch s → (opField (wordAt s s.pc) = 0xA0 ∨ opField (wordAt s s.pc) = 0xA1) →
    rdField (wordAt s s.pc) = 0xD → step s = .refused .jumpCondition)

/-! Steps (R17, R191, R210 to R213). -/

/-- A step runs the decoded instruction: where no interrupt is ready and the words at the PC, in the state the microSD
controller's writes leave (the model's choice, log 19), decode to `i`, the step is `exec i` there, or a model fault where those
writes reach the attached IPL (R60); without a transfer in progress that state is the state itself and nothing is written. -/
def Obligations.StepRunsDecodedInstruction : Prop :=
  (∀ (s : State) (i : Instr), s.halted = false → anyIrqReady s = false → wordReadable s s.pc = true →
    decode (wordAt (dmaTick s) s.pc) (wordAt (dmaTick s) (s.pc + 2)) = .ok i →
    step s = if dmaOntoIpl s then .fault .iplWrite else exec i (dmaTick s)) ∧
  (∀ s : State, s.dev.sdBusy = false → dmaOntoIpl s = false ∧ dmaTick s = s)

/-- An instruction placed by `withFetchWord` is what the next step runs (the model's loading of a program, log 6). -/
def Obligations.PlacedInstructionRuns : Prop :=
  ∀ (s : State) (nbits w : Nat) (i : Instr), isOdd s.pc = false → decodeTableWord nbits w = some i →
    step (s.withFetchWord nbits w) = exec i (s.withFetchWord nbits w)

/-- Where no source has E, its enable bit and its request together, no interrupt is taken and the next instruction is fetched
(R22, R210; that the enable bit and the request are separate is the model's choice, log 17), unless a microSD transfer writes
to the attached IPL (R60, log 19). -/
def Obligations.InterruptNeedsEnables : Prop :=
  ∀ s : State, s.halted = false → (∀ q, ¬mayInterrupt s q) →
    step s = if dmaOntoIpl s then .fault .iplWrite else runAction (fetchInstr (dmaTick s))

/-- Where some source may interrupt, the source that irqPick proposes is taken, with the PC as the saved PC, if it is one that
may; if it may not, or none is proposed, the next instruction is fetched (R212, R213: the spec's decisions D20 and D21; that
the choice is one draw of irqPick is the model's, log 17). -/
def Obligations.InterruptTakenOrNot : Prop :=
  ∀ s : State, s.halted = false → s.dev.sdBusy = false → (∃ q, mayInterrupt s q) → entryReady s = true →
    match Config.irqPick s.draws with
    | some q =>
      (mayInterrupt s q → ∃ t, step s = .next t ∧
        entryEffect (Cause.vector (.irq q)) s.pc (s.withDraws (s.draws + 1)) t) ∧
      (¬mayInterrupt s q → step s = runAction (fetchInstr (s.withDraws (s.draws + 1))))
    | none => step s = runAction (fetchInstr (s.withDraws (s.draws + 1)))

/-! Taking an exception and returning (R200, R215 to R219). -/

/-- What taking any exception or interrupt leaves (R215, R218: the spec's decisions D17, D18 and D36); an odd SSP is a model
fault (R221, D2). -/
def Obligations.TrapEntryEffect : Prop :=
  (∀ (c : Cause) (spc : Word) (s : State), entryReady s = true →
    ∃ t, trapEntry c spc s = .next t ∧ entryEffect c.vector spc s t) ∧
  (∀ (c : Cause) (spc : Word) (s : State), s.mmu.on = false → isOdd s.regs.ssp = true →
    trapEntry c spc s = .fault .misaligned)

/-- The sixteen vector addresses (R200), and that the two saved PCs the source leaves open are constants of the machine among
the listed choices (R216: the spec's decision D19). -/
def Obligations.VectorsAndSavedPcs : Prop :=
  [Cause.irq .timer0, .irq .timer1, .irq .rn4020Recv, .irq .rn4020Send, .irq .ft232rlRecv, .irq .ft232rlSend,
    .irq .tecRecv, .irq .tecSend, .irq .microSd, .irq .pio, .tlbMiss, .memViolation, .zeroDivide, .privilege, .undefined,
    .svc].map Cause.vector =
    [0xFFE0, 0xFFE2, 0xFFE4, 0xFFE6, 0xFFE8, 0xFFEA, 0xFFEC, 0xFFEE, 0xFFF0, 0xFFF2, 0xFFF4, 0xFFF6, 0xFFF8, 0xFFFA,
      0xFFFC, 0xFFFE] ∧
  ((∀ pc0 pcn, savedPcOther pc0 pcn = pc0) ∨ (∀ pc0 pcn, savedPcOther pc0 pcn = pcn)) ∧
  ((∀ pc0, savedPcUndef pc0 = pc0) ∨ (∀ pc0, savedPcUndef pc0 = pc0 + 2) ∨ (∀ pc0, savedPcUndef pc0 = pc0 + 4))

/-- RETI right after a trap entry restores FLAG, every register and the saved PC (R219, over the entry of the spec's decision
D17 and the return of D32). -/
def Obligations.TrapThenReti : Prop :=
  ∀ (c : Cause) (spc : Word) (s : State), entryReady s = true →
    ∃ t u, trapEntry c spc s = .next t ∧ exec .reti t = .next u ∧
      u.pc = spc ∧ u.flag = s.flag ∧ u.regs = s.regs ∧ sameBytesBut s u (frameBytes s) ∧ sameSystem s u

/-! Load and store (R80 to R87, R100 to R102). -/

/-- Effective addresses, jump and CALL targets, ports and the operands that are no memory as numbers (R80 to R87, R140, R170),
modulo 2^16 (the spec's decision D6). -/
def Obligations.OperandFormValues : Prop :=
  ∀ s : State,
    (∀ d, (effectiveAddr s (.direct d)).toNat = d.toNat) ∧
    (∀ d rx, (effectiveAddr s (.indexed d rx)).toNat = (d.toNat + (readReg s rx).toNat) % 65536) ∧
    (∀ d4 : Nibble, (effectiveAddr s (.fpRel d4)).toNat =
      (s.regs.fp.toNat + if d4.toNat < 8 then 2 * d4.toNat else 65536 + 2 * d4.toNat - 32) % 65536) ∧
    (∀ rx, (effectiveAddr s (.indirect rx)).toNat = (readReg s rx).toNat) ∧
    (∀ rx, (effectiveAddr s (.byteIndirect rx)).toNat = (readReg s rx).toNat) ∧
    (∀ d, (targetAddr s (.direct d)).toNat = d.toNat) ∧
    (∀ d rx, (targetAddr s (.indexed d rx)).toNat = (d.toNat + (readReg s rx).toNat) % 65536) ∧
    (∀ d, (portAddr s (.direct d)).toNat = d.toNat) ∧
    (∀ rx, (portAddr s (.indirect rx)).toNat = (readReg s rx).toNat) ∧
    (∀ d, readOperand s (.imm d) = .ok d) ∧
    (∀ rs, readOperand s (.reg rs) = .ok (readReg s rs)) ∧
    (∀ i4 : Nibble, readOperand s (.imm4 i4) =
      .ok (BitVec.ofNat 16 (if i4.toNat < 8 then i4.toNat else 65536 + i4.toNat - 16)))

/-- R91: the short form an assembler chooses has the operand of the long form it replaces. -/
def Obligations.ShortFormsEquivalent : Prop :=
  (∀ (s : State) (d : Word) (rx : Reg),
    effectiveAddr s (chooseDisp d rx) = effectiveAddr s (.indexed d rx) ∧ isByteForm (chooseDisp d rx) = false) ∧
  (∀ (s : State) (n : Word), readOperand s (chooseImm n) = .ok n)

/-- R100. -/
def Obligations.NoOperationRule : Prop :=
  encodesTo .no 0x00 0 (0, none) ∧ ∀ s : State, exec .no s = .next (s.withPc (s.pc + 2))

/-- R101: Rd takes the operand and no flag is a side effect; with Rd = Fh FLAG takes it through its mask; corner case (g), an
odd word address. -/
def Obligations.LoadRule : Prop :=
  (∀ rd src, encodesTo (.ld rd src) (0x08 + formNumber src) rd.toNibble (operandFields src)) ∧
  (∀ rd src s, operandReadable s src = true →
    ∃ t, exec (.ld rd src) s = .next t ∧ takes rd (operandValue s src) s t ∧
      t.pc = s.pc + (if src.isLong then 4 else 2) ∧ sameElsewhere s t) ∧
  (∀ rd s, oddFaults (.ld rd) s)

/-- R102: the word in Rd, or its low byte, goes to memory at the effective address, and nothing else changes but the PC;
corner case (h), an odd word address. -/
def Obligations.StoreRule : Prop :=
  (∀ rd m, encodesTo (.st rd m) (0x10 + memFormNumber m) rd.toNibble (memFields m)) ∧
  (∀ rd m s, formWritable s m = true →
    ∃ t, exec (.st rd m) s = .next t ∧
      (isByteForm m = true → byteAt t (effectiveAddr s m) = loByte (readReg s rd)) ∧
      (isByteForm m = false → byteAt t (effectiveAddr s m) = hiByte (readReg s rd) ∧
        byteAt t (effectiveAddr s m + 1) = loByte (readReg s rd)) ∧
      sameBytesBut s t (storedBytes s m) ∧ t.regs = s.regs ∧ t.flag = s.flag ∧
      t.pc = s.pc + (if m.isLong then 4 else 2) ∧ sameSystem s t ∧ t.draws = s.draws) ∧
  (∀ rd m s, s.mmu.on = false → isByteForm m = false → isOdd (effectiveAddr s m) = true →
    exec (.st rd m) s = .fault .misaligned)

/-- A word stored at the address of the next instruction is the next instruction (R52: the spec's decision D28). -/
def Obligations.StoredWordIsFetched : Prop :=
  ∀ (s : State) (rd : Reg) (m : MemForm) (i : Instr) (w2 : Word), formWritable s m = true → isByteForm m = false →
    effectiveAddr s m = nextPc s m.isLong → s.halted = false → s.dev.sdBusy = false → anyIrqReady s = false →
    decode (readReg s rd) w2 = .ok i → i.isLong = false →
    ∃ t, exec (.st rd m) s = .next t ∧ step t = exec i t

/-! Arithmetic, logic and shifts (R110 to R134). -/

/-- R111, R112, and R113, which writes no register. -/
def Obligations.AddSubtractCompareRules : Prop :=
  aluRule .add 0x18 true (fun a b => addRule a.toNat b.toNat) ∧
  aluRule .sub 0x20 true (fun a b => subRule a.toNat b.toNat) ∧
  aluRule .cmp 0x28 false (fun a b => subRule a.toNat b.toNat)

/-- R114, R115, R116. -/
def Obligations.LogicRules : Prop :=
  aluRule .and 0x30 true (fun a b => resultIs (a.toNat &&& b.toNat) .drawn .drawn) ∧
  aluRule .or 0x38 true (fun a b => resultIs (a.toNat ||| b.toNat) .drawn .drawn) ∧
  aluRule .xor 0x40 true (fun a b => resultIs (a.toNat ^^^ b.toNat) .drawn .drawn)

/-- R117, R118; that MUL keeps the low half is the spec's decision D39. -/
def Obligations.ScaledAddAndMultiplyRules : Prop :=
  aluRule .adds 0x48 true (fun a b => resultIs ((a.toNat + 2 * b.toNat) % 65536) .drawn .drawn) ∧
  aluRule .mul 0x50 true (fun a b => resultIs (a.toNat * b.toNat % 65536) .drawn .drawn)

/-- R119, R120; where an operand has bit 15 set both ask the same parameter divmod (the spec's decision D11), and a divisor
of 0 raises ZeroDivide with nothing changed (D12). -/
def Obligations.DivideAndModuloRules : Prop :=
  divideRule .div 0x58 (fun a b => divRule (fun x y => x / y) (Config.divmod a b).1 a.toNat b.toNat) ∧
  divideRule .mod 0x60 (fun a b => divRule (fun x y => x - y * (x / y)) (Config.divmod a b).2 a.toNat b.toNat)

/-- R130 to R134, with the count above 15 and the bit shifted out as the spec's decisions D10 and D9 have them. Above 15 the
result is that of shiftBig, S and Z are read off it and V and C are drawn (R28, R29, R31; log 14). Both left shifts ask
shiftBig as SHLL, so that their results are identical in every state (R131); the right shifts are those of the signed and of
the unsigned value. -/
def Obligations.ShiftRules : Prop :=
  aluRule .shla 0x80 true (shiftRule .shll (fun a n => a.toNat * 2 ^ n % 65536) fun a => bit15 a.toNat) ∧
  aluRule .shll 0x88 true (shiftRule .shll (fun a n => a.toNat * 2 ^ n % 65536) fun a => bit15 a.toNat) ∧
  aluRule .shra 0x90 true
    (shiftRule .shra (fun a n => (a.toInt / 2 ^ n % 65536).toNat) fun a => decide (a.toNat % 2 = 1)) ∧
  aluRule .shrl 0x98 true (shiftRule .shrl (fun a n => a.toNat / 2 ^ n) fun a => decide (a.toNat % 2 = 1))

/-- Each of the fourteen flag-changing instructions with Rd = Fh is refused, in all forms and states (R121: the spec's decision
D13); FLAG as a source reads its word. -/
def Obligations.FlagDestinationRefused : Prop :=
  (∀ (i : Instr) (s : State), i.flagChangingRd = some .flag → exec i s = .refused .flagDestination) ∧
  (∀ s : State, readOperand s (.reg .flag) = .ok (flagWord s.flag))

/-- V after ADD, SUB and CMP says that the signed result does not fit 16 bits (R26). -/
def Obligations.OverflowIsSignedRange : Prop :=
  ∀ (rd : Reg) (src : Operand) (s : State), rd ≠ .flag → operandReadable s src = true →
    (∃ t, exec (.add rd src) s = .next t ∧
      (t.flag.v = true ↔ (readReg s rd).toInt + (operandValue s src).toInt < -32768 ∨
        32767 < (readReg s rd).toInt + (operandValue s src).toInt)) ∧
    (∃ t, exec (.sub rd src) s = .next t ∧
      (t.flag.v = true ↔ (readReg s rd).toInt - (operandValue s src).toInt < -32768 ∨
        32767 < (readReg s rd).toInt - (operandValue s src).toInt)) ∧
    (∃ t, exec (.cmp rd src) s = .next t ∧
      (t.flag.v = true ↔ (readReg s rd).toInt - (operandValue s src).toInt < -32768 ∨
        32767 < (readReg s rd).toInt - (operandValue s src).toInt))

/-! Jumps and CALL (R140 to R156). -/

/-- R141 to R144 and R149 to R152, R155: the jumps on one flag, and JMP. -/
def Obligations.SingleFlagJumps : Prop :=
  jumpRule .jz 0x0 (fun f => f.z = true) ∧ jumpRule .jc 0x1 (fun f => f.c = true) ∧
  jumpRule .jm 0x2 (fun f => f.s = true) ∧ jumpRule .jo 0x3 (fun f => f.v = true) ∧
  jumpRule .jnz 0x8 (fun f => f.z = false) ∧ jumpRule .jnc 0x9 (fun f => f.c = false) ∧
  jumpRule .jnm 0xA (fun f => f.s = false) ∧ jumpRule .jno 0xB (fun f => f.v = false) ∧
  jumpRule .jmp 0xF (fun _ => True)

/-- R145 to R148, R153, R154: the jumps on a relation. -/
def Obligations.RelationJumps : Prop :=
  jumpRule .jgt 0x4 (fun f => ¬(f.z = true ∨ f.s ≠ f.v)) ∧ jumpRule .jge 0x5 (fun f => ¬(f.s ≠ f.v)) ∧
  jumpRule .jle 0x6 (fun f => f.z = true ∨ f.s ≠ f.v) ∧ jumpRule .jlt 0x7 (fun f => f.s ≠ f.v) ∧
  jumpRule .jhi 0xC (fun f => f.z = false ∧ f.c = false) ∧ jumpRule .jls 0xE (fun f => f.z = true ∨ f.c = true)

/-- The comparison table of R140: after CMP or SUB each jump tests its signed or unsigned relation. -/
def Obligations.CompareThenJump : Prop :=
  ∀ (rd : Reg) (src : Operand) (s : State), rd ≠ .flag → operandReadable s src = true →
    (∃ t, exec (.cmp rd src) s = .next t ∧ jumpsCompare (readReg s rd) (operandValue s src) t) ∧
    (∃ t, exec (.sub rd src) s = .next t ∧ jumpsCompare (readReg s rd) (operandValue s src) t)

/-- The address after the CALL is pushed on the stack of the current mode and the target taken (R156: the spec's decisions D3
and D5); an odd stack pointer is a model fault (D2). -/
def Obligations.CallRule : Prop :=
  (∀ d, encodesTo (.call (.direct d)) 0xA8 0 (0, some d)) ∧
  (∀ d rx, encodesTo (.call (.indexed d rx)) 0xA9 0 (rx.toNibble, some d)) ∧
  (∀ t s, wordWritable s (readReg s .sp - 2) = true →
    ∃ u, exec (.call t) s = .next u ∧ u.pc = targetAddr s t ∧ wordAt u (readReg s .sp - 2) = s.pc + 4 ∧
      u.regs.get (activeSp s) = readReg s .sp - 2 ∧ sameRegsBut s u [activeSp s] ∧ u.flag = s.flag ∧
      sameBytesBut s u [readReg s .sp - 2, readReg s .sp - 2 + 1] ∧ sameSystem s u ∧ u.draws = s.draws) ∧
  (∀ t s, s.mmu.on = false → isOdd (readReg s .sp) = true → exec (.call t) s = .fault .misaligned)

/-! Stack and return (R180 to R184). -/

/-- R181: the register is pushed below the stack pointer of the current mode (the spec's decision D3), the active stack pointer
is refused (D38), and an odd stack pointer is a model fault (D2). -/
def Obligations.PushRule : Prop :=
  (∀ rd, encodesTo (.push rd) 0xC0 rd.toNibble (0, none)) ∧
  (∀ rd s, rd ≠ .sp → (rd = .usp → s.flag.p = true) → wordWritable s (readReg s .sp - 2) = true →
    ∃ t, exec (.push rd) s = .next t ∧ wordAt t (readReg s .sp - 2) = readReg s rd ∧
      t.regs.get (activeSp s) = readReg s .sp - 2 ∧ sameRegsBut s t [activeSp s] ∧ t.flag = s.flag ∧ t.pc = s.pc + 2 ∧
      sameBytesBut s t [readReg s .sp - 2, readReg s .sp - 2 + 1] ∧ sameSystem s t ∧ t.draws = s.draws) ∧
  (∀ s, exec (.push .sp) s = .refused .activeStackPointer) ∧
  (∀ s, s.flag.p = false → exec (.push .usp) s = .refused .activeStackPointer) ∧
  (∀ rd s, rd ≠ .sp → (rd = .usp → s.flag.p = true) → s.mmu.on = false → isOdd (readReg s .sp) = true →
    exec (.push rd) s = .fault .misaligned)

/-- R182: the register takes the word at the stack pointer of the current mode, which moves up by 2 (the spec's decision D4);
the active stack pointer is refused (D38), and an odd stack pointer is a model fault (D2). -/
def Obligations.PopRule : Prop :=
  (∀ rd, encodesTo (.pop rd) 0xC4 rd.toNibble (0, none)) ∧
  (∀ rd s, rd ≠ .sp → (rd = .usp → s.flag.p = true) → wordReadable s (readReg s .sp) = true →
    ∃ t, exec (.pop rd) s = .next t ∧
      (rd ≠ .flag → readReg t rd = wordAt s (readReg s .sp) ∧ t.flag = s.flag) ∧
      (rd = .flag → t.flag = writeFlag s.flag (wordAt s (readReg s .sp))) ∧
      t.regs.get (activeSp s) = readReg s .sp + 2 ∧ sameRegsBut s t (activeSp s :: (physReg s rd).toList) ∧
      t.pc = s.pc + 2 ∧ sameElsewhere s t) ∧
  (∀ s, exec (.pop .sp) s = .refused .activeStackPointer) ∧
  (∀ s, s.flag.p = false → exec (.pop .usp) s = .refused .activeStackPointer) ∧
  (∀ rd s, rd ≠ .sp → (rd = .usp → s.flag.p = true) → s.mmu.on = false → isOdd (readReg s .sp) = true →
    exec (.pop rd) s = .fault .misaligned)

/-- R183: the popped word is the next PC, whatever it is, and P and FLAG are not looked at or changed. -/
def Obligations.ReturnRule : Prop :=
  encodesTo .ret 0xD0 0 (0, none) ∧
  (∀ s, wordReadable s (readReg s .sp) = true →
    ∃ t, exec .ret s = .next t ∧ t.pc = wordAt s (readReg s .sp) ∧ t.regs.get (activeSp s) = readReg s .sp + 2 ∧
      sameRegsBut s t [activeSp s] ∧ t.flag = s.flag ∧ sameElsewhere s t)

/-- A RET right after a CALL resumes after the CALL, and a POP of the register just pushed restores it, FLAG included; every
register is as before, the stack pointer among them (R156, R180 to R183, with the push of the spec's decision D3). -/
def Obligations.StackRoundTrips : Prop :=
  (∀ (t : Target) (s : State), wordWritable s (readReg s .sp - 2) = true →
    ∃ u v, exec (.call t) s = .next u ∧ exec .ret u = .next v ∧ v.pc = s.pc + 4 ∧ v.regs = s.regs ∧ v.flag = s.flag) ∧
  (∀ (rd : Reg) (s : State), rd ≠ .sp → (rd = .usp → s.flag.p = true) → wordWritable s (readReg s .sp - 2) = true →
    ∃ t u, exec (.push rd) s = .next t ∧ exec (.pop rd) t = .next u ∧ u.regs = s.regs ∧ u.flag = s.flag ∧
      u.pc = s.pc + 4)

/-- R184: FLAG and then the PC are popped from the bank P selects at the start (the spec's decision D32); in user mode E, P and
I keep their values; an odd stack pointer is a model fault (D2). -/
def Obligations.ReturnFromInterruptRule : Prop :=
  encodesTo .reti 0xD4 0xF (0, none) ∧
  (∀ s, wordReadable s (readReg s .sp) = true →
    ∃ t, exec .reti s = .next t ∧ t.pc = wordAt s (readReg s .sp + 2) ∧
      (s.flag.p = true → flagWord t.flag = wordAt s (readReg s .sp) &&& 0x00FF) ∧
      (s.flag.p = false →
        flagWord t.flag = (flagWord s.flag &&& 0x00E0) ||| (wordAt s (readReg s .sp) &&& 0x001F)) ∧
      t.regs.get (activeSp s) = readReg s .sp + 4 ∧ sameRegsBut s t [activeSp s] ∧ sameElsewhere s t) ∧
  (∀ s, s.mmu.on = false → isOdd (readReg s .sp) = true → exec .reti s = .fault .misaligned)

/-! System instructions and privilege (R170, R190, R191, R206, R241). -/

/-- R190: the exception SVC through FFFEh, with the next instruction as the saved PC (the spec's decision D19), in either
mode. -/
def Obligations.SupervisorCallRule : Prop :=
  encodesTo .svc 0xF0 0 (0, none) ∧
  ∀ s, entryReady s = true → ∃ t, exec .svc s = .next t ∧ entryEffect 0xFFFE (s.pc + 2) s t

/-- HALT stops the CPU in privileged mode, and in user mode raises the privilege violation (R191: the spec's decision D16); a
halted CPU executes nothing and takes no interrupt (D29): a step changes nothing but what a running microSD transfer writes,
which is a model fault where it reaches the attached IPL (the model's choices, logs 18 and 19). -/
def Obligations.HaltRule : Prop :=
  encodesTo .halt 0xFF 0 (0, none) ∧
  (∀ s, s.flag.p = true → exec .halt s = .next ((s.withPc (s.pc + 2)).withHalted true)) ∧
  (∀ s, s.flag.p = false → entryReady s = true →
    ∃ t, exec .halt s = .next t ∧ entryEffect 0xFFFA s.pc s t) ∧
  (∀ s, s.halted = true → step s = (if dmaOntoIpl s then .fault .iplWrite else .next (dmaTick s)) ∧
    (s.dev.sdBusy = false → step s = .next s))

/-- IN and OUT with P = 0 and I = 0, and HALT with P = 0, have no effect but the exception through FFFAh, whose saved PC is
their own address (R206, R215; that these are the privileged instructions is the spec's decision D16, and the entry is D17, D18
and D36). -/
def Obligations.PrivilegeViolationRule : Prop :=
  (∀ rd p s, s.flag.p = false → s.flag.i = false → entryReady s = true →
    (∃ t, exec (.inPort rd p) s = .next t ∧ entryEffect 0xFFFA s.pc s t) ∧
    (∃ t, exec (.outPort rd p) s = .next t ∧ entryEffect 0xFFFA s.pc s t)) ∧
  (∀ s, s.flag.p = false → entryReady s = true → ∃ t, exec .halt s = .next t ∧ entryEffect 0xFFFA s.pc s t)

/-! Input and output (R48, R171, R172, R244 to R252). -/

/-- Rd takes a word within the port's layout (R171, R48), which is the stored one where the port holds data of State: the TLB and
the MMU registers, and RN4020-RAM at 2Eh, whose reading back is the model's, log 9. A read leaves the CPU's own state but Rd
and the PC; IDLE read as 1 at 10h ends a microSD transfer (R61), and A2h, A4h and A6h may clear what they read, as mmuReadClears
has it (log 12). That it leaves every other device register as it was is the model's choice, log 8: R49 and R171 allow a device
to change its own state when it is read. That P or I allows the read is the spec's decision D16; what is free in the word is the
model's, log 8. -/
def Obligations.InputRule : Prop :=
  (∀ rd d, encodesTo (.inPort rd (.direct d)) 0xB0 rd.toNibble (0, some d)) ∧
  (∀ rd rx, encodesTo (.inPort rd (.indirect rx)) 0xB6 rd.toNibble (rx.toNibble, none)) ∧
  (∀ rd p s, (s.flag.p = true ∨ s.flag.i = true) → portDefined s p →
    ∃ t v, exec (.inPort rd p) s = .next t ∧ takes rd v s t ∧ v &&& ~~~portBits (portAddr s p).toNat = 0 ∧
      portHolds s (portAddr s p).toNat v ∧ t.pc = s.pc + (if p.isLong then 4 else 2) ∧ sameBytesBut s t [] ∧
      t.ipl = s.ipl ∧ t.halted = s.halted ∧ t.pending = s.pending ∧ t.ioLog = s.ioLog ∧
      t.mmu = mmuAfterIn (portAddr s p) s.mmu ∧
      t.dev = { s.dev with
        sdBusy := if portAddr s p = 0x10 then s.dev.sdBusy && !v.getLsbD 7 else s.dev.sdBusy })

/-- R172: the write is recorded, and it changes no register but those behind its port: at A0h the attached bit, at A2h the
MMU's word and switch, at a TLB port that half of that entry, at a device's port (whose values DeviceRegisters gives) that
device register. That P or I allows it is the spec's decision D16; the record is the model's, log 10, as are mmuEnable, log 11,
and that a word with bit 0 clear written to A0h leaves the IPL as it was, log 5 (R60 gives only the write of 1). -/
def Obligations.OutputRule : Prop :=
  (∀ rd d, encodesTo (.outPort rd (.direct d)) 0xB8 rd.toNibble (0, some d)) ∧
  (∀ rd rx, encodesTo (.outPort rd (.indirect rx)) 0xBE rd.toNibble (rx.toNibble, none)) ∧
  (∀ rd p s, (s.flag.p = true ∨ s.flag.i = true) → portDefined s p →
    ∃ t, exec (.outPort rd p) s = .next t ∧ t.ioLog = s.ioLog ++ [(portAddr s p, readReg s rd)] ∧ t.regs = s.regs ∧
      t.flag = s.flag ∧ t.pc = s.pc + (if p.isLong then 4 else 2) ∧ t.mem = s.mem ∧ t.halted = s.halted ∧
      t.pending = s.pending ∧ t.draws = s.draws ∧
      (portAddr s p ≠ 0xA0 → t.ipl = s.ipl ∧ sameBytesBut s t []) ∧
      (portAddr s p = 0xA0 → t.ipl = { s.ipl with attached := s.ipl.attached && !(readReg s rd).getLsbD 0 }) ∧
      mmuAfterOut (portAddr s p) (readReg s rd) s.mmu t.mmu ∧ sameDevicesBut (portAddr s p).toNat s.dev t.dev)

/-- An odd port or one above 00FFh is a model fault, where the instruction is allowed at all (R48: the spec's decision
D27). -/
def Obligations.UndefinedPortsFault : Prop :=
  ∀ (rd : Reg) (p : Port) (s : State), (s.flag.p = true ∨ s.flag.i = true) → ¬portDefined s p →
    exec (.inPort rd p) s = .fault .ioAddress ∧ exec (.outPort rd p) s = .fault .ioAddress

/-- What OUT in either form leaves in each device register of R244 to R252, and that the ports 1Eh, 30h, FAh, FCh and FEh,
which have no register to write, leave them all. That a register keeps what was written under its layout is the model's choice,
log 10, and so is when R or W at 10h starts a microSD transfer that is in progress from then on, log 19. -/
def Obligations.DeviceRegisters : Prop :=
  outLeaves 0x00 (fun d v => { d with timer0Period := v }) ∧
  outLeaves 0x02 (fun d v => { d with timer0Ctrl := v &&& 0x8001 }) ∧
  outLeaves 0x04 (fun d v => { d with timer1Period := v }) ∧
  outLeaves 0x06 (fun d v => { d with timer1Ctrl := v &&& 0x8001 }) ∧
  outLeaves 0x08 (fun d v => { d with ft232rlData := loByte v }) ∧
  outLeaves 0x0A (fun d v => { d with ft232rlCtrl := loByte v &&& 0xC0 }) ∧
  outLeaves 0x0C (fun d v => { d with tecData := loByte v }) ∧
  outLeaves 0x0E (fun d v => { d with tecCtrl := loByte v &&& 0xC0 }) ∧
  outLeaves 0x10 (fun d v =>
    { d with sdCtrl := loByte v &&& 0x87, sdBusy := d.sdBusy || v.getLsbD 1 || v.getLsbD 0 }) ∧
  outLeaves 0x12 (fun d v => { d with sdMemAddr := v }) ∧
  outLeaves 0x14 (fun d v => { d with sdBlkAddrH := v }) ∧
  outLeaves 0x16 (fun d v => { d with sdBlkAddrL := v }) ∧
  outLeaves 0x18 (fun d v => { d with ioPort := loByte v }) ∧
  outLeaves 0x1A (fun d v => { d with adcRef := loByte v }) ∧
  outLeaves 0x1C (fun d v => { d with outPortHi := loByte v &&& 0x8F }) ∧
  outLeaves 0x20 (fun d v => { d with spiData := loByte v }) ∧
  outLeaves 0x22 (fun d v => { d with spiSclk := loByte v }) ∧
  outLeaves 0x24 (fun d v => { d with pioMask := loByte v }) ∧
  outLeaves 0x26 (fun d v => { d with pioXor := loByte v }) ∧
  outLeaves 0x28 (fun d v => { d with rn4020Data := loByte v }) ∧
  outLeaves 0x2A (fun d v => { d with rn4020Ctrl := loByte v &&& 0xC0 }) ∧
  outLeaves 0x2C (fun d v => { d with rn4020Cmd := loByte v &&& 0x0F }) ∧
  outLeaves 0x2E (fun d v => { d with rn4020Ram := loByte v }) ∧
  outLeaves 0x32 (fun d v => { d with tecDataSw := loByte v }) ∧
  outLeaves 0x34 (fun d v => { d with tecFuncSw := loByte v }) ∧
  outLeaves 0x36 (fun d v => { d with tecControl := loByte v }) ∧
  outLeaves 0xF8 (fun d v => { d with consoleData := v }) ∧
  outLeaves 0x1E (fun d _ => d) ∧ outLeaves 0x30 (fun d _ => d) ∧ outLeaves 0xFA (fun d _ => d) ∧
  outLeaves 0xFC (fun d _ => d) ∧ outLeaves 0xFE (fun d _ => d)

/-- A word written to either part of a TLB entry (R56, R57) reads back, but for the undefined bits 14 and 13 and the unused
upper byte (which reads 00h by the model's choice, log 12), and no other entry changes. -/
def Obligations.TlbReadsBack : Prop :=
  ∀ (n : Fin 8) (rd rd2 : Reg) (s : State), ioAllowed s.flag = true → rd2 ≠ .flag →
    (∃ t u, exec (.outPort rd (.direct (BitVec.ofNat 16 (0x82 + 4 * n.val)))) s = .next t ∧
      exec (.inPort rd2 (.direct (BitVec.ofNat 16 (0x82 + 4 * n.val)))) t = .next u ∧
      readReg u rd2 &&& 0x9FFF = readReg s rd &&& 0x9FFF ∧
      ∀ m : Fin 8, m ≠ n → t.mmu.tlb[m] = s.mmu.tlb[m]) ∧
    (∃ t u, exec (.outPort rd (.direct (BitVec.ofNat 16 (0x80 + 4 * n.val)))) s = .next t ∧
      exec (.inPort rd2 (.direct (BitVec.ofNat 16 (0x80 + 4 * n.val)))) t = .next u ∧
      readReg u rd2 = readReg s rd &&& 0x00FF ∧
      ∀ m : Fin 8, m ≠ n → t.mmu.tlb[m] = s.mmu.tlb[m])

/-- RN4020-RAM is a readable and writable byte that reset does not change, while RN4020-Cmd becomes 0001 (R251, R34); that it
reads back what was written is the model's reading of R251, log 9. -/
def Obligations.RnRamSurvivesReset : Prop :=
  (∀ (rd rd2 : Reg) (s : State), ioAllowed s.flag = true → rd2 ≠ .flag →
    ∃ t u, exec (.outPort rd (.direct 0x2E)) s = .next t ∧ exec (.inPort rd2 (.direct 0x2E)) t = .next u ∧
      readReg u rd2 = readReg s rd &&& 0x00FF) ∧
  (∀ s : State, s.warmReset.dev.rn4020Ram = s.dev.rn4020Ram ∧ s.warmReset.dev.rn4020Cmd = 1)

/-- While attached the overlay's bytes are read, and a store, a PUSH, a CALL or a trap entry that writes one of them is a model
fault, and so is a step in which a microSD transfer writes one (when it writes is the model's, log 19); writing 1 to bit 0 of
A0h detaches it, and then memory's own bytes are read (R58, R60: the spec's decisions D34 and U20; that writing 0 changes
nothing is the model's, log 5). -/
def Obligations.IplOverlayRule : Prop :=
  (∀ s a b, s.ipl.attached = true → s.ipl.image.lookup a.toNat = some b → byteAt s a = b) ∧
  (∀ rd m s, s.mmu.on = false → (isByteForm m = false → isOdd (effectiveAddr s m) = false) →
    (∃ a ∈ storedBytes s m, overlaid s a = true) → exec (.st rd m) s = .fault .iplWrite) ∧
  (∀ s, s.mmu.on = false → isOdd (readReg s .sp) = false →
    (overlaid s (readReg s .sp - 2) = true ∨ overlaid s (readReg s .sp - 2 + 1) = true) →
    (∀ rd, rd ≠ .sp → (rd = .usp → s.flag.p = true) → exec (.push rd) s = .fault .iplWrite) ∧
    (∀ t, exec (.call t) s = .fault .iplWrite)) ∧
  (∀ c spc s, s.mmu.on = false → isOdd s.regs.ssp = false → (∃ a ∈ frameBytes s, overlaid s a = true) →
    trapEntry c spc s = .fault .iplWrite) ∧
  (∀ s, s.dev.sdBusy = true → step s = .fault .iplWrite ∨ ∀ w ∈ Config.dmaWrites s.draws, overlaid s w.1 = false) ∧
  (∀ rd s, ioAllowed s.flag = true → (readReg s rd).getLsbD 0 = true →
    ∃ t, exec (.outPort rd (.direct 0xA0)) s = .next t ∧ t.ipl.attached = false ∧
      ∀ a, byteAt t a = Memory.read s.mem a.toNat) ∧
  (∀ rd s, ioAllowed s.flag = true → (readReg s rd).getLsbD 0 = false →
    ∃ t, exec (.outPort rd (.direct 0xA0)) s = .next t ∧ t.ipl = s.ipl)

/-! Registers, FLAG and alignment (R12 to R14, R19 to R21, R46). -/

/-- FLAG as a word is `00h ++ E P I U V C S Z` (R19; the zeros are the spec's decision D14), and its write mask in either mode
(R21: D15). -/
def Obligations.FlagLayoutAndMask : Prop :=
  (∀ f : Flag, (flagWord f).toNat =
    f.e.toNat * 128 + f.p.toNat * 64 + f.i.toNat * 32 + f.u.toNat * 16 + f.v.toNat * 8 + f.c.toNat * 4 +
      f.s.toNat * 2 + f.z.toNat) ∧
  ∀ (s : State) (w : Word),
    (s.flag.p = true → readReg (writeReg s .flag w) .flag = w &&& 0x00FF) ∧
    (s.flag.p = false →
      readReg (writeReg s .flag w) .flag = (readReg s .flag &&& 0x00E0) ||| (w &&& 0x001F))

/-- Register Dh is SSP when P = 1 and USP when P = 0, Eh is always USP, and no write in user mode reaches SSP (R12; R13 is the
spec's decision D33 and R14 its inference). -/
def Obligations.StackPointerBanks : Prop :=
  ∀ (s : State) (v : Word),
    (s.flag.p = true → readReg s .sp = s.regs.ssp ∧ (writeReg s .sp v).regs = { s.regs with ssp := v }) ∧
    (s.flag.p = false → readReg s .sp = s.regs.usp ∧ (writeReg s .sp v).regs = { s.regs with usp := v } ∧
      ∀ r, (writeReg s r v).regs.ssp = s.regs.ssp) ∧
    readReg s .usp = s.regs.usp ∧ (writeReg s .usp v).regs = { s.regs with usp := v }

/-- An odd PC, however it came about, is a model fault at the fetch and not at the transfer (R46: the spec's decision D2); a
microSD transfer's write to the attached IPL, before the fetch, is a model fault of its own (R60, log 19). -/
def Obligations.OddPcFaultsAtFetch : Prop :=
  (∀ s : State, s.halted = false → anyIrqReady s = false → s.mmu.on = false → isOdd s.pc = true →
    step s = .fault (if dmaOntoIpl s then .iplWrite else .misaligned)) ∧
  (∀ (s : State) (d : Word), s.halted = false → s.dev.sdBusy = false → anyIrqReady s = false → s.mmu.on = false →
    isOdd d = true → ∃ t, exec (.jmp (.direct d)) s = .next t ∧ step t = .fault .misaligned)

/-- With the MMU on, every access goes to its own offset in the frame the parameter translate gives for its page, or takes the
exception translate gives, with the MMU's registers recording the access (R57 to R59, R202, R203, R209): loads and the other
operand reads, stores, the stack, the fetch, with the refusal of R121 before the second word (R89), and the accesses of a trap
entry, where an exception is refused (R221). The spec's decision is D30; how translate enters is the model's, logs 11
and 13. -/
def Obligations.MmuTranslatesLoads : Prop :=
  (∀ (rd : Reg) (m : MemForm) (s : State), s.mmu.on = true →
    exec (.ld rd (.mem m)) s =
      loadUnderMmu s m fun v => .next ((writeReg s rd v).withPc (s.pc + if m.isLong then 4 else 2))) ∧
  (∀ mk ∈ [Instr.add, .sub, .cmp, .and, .or, .xor, .adds, .mul, .shla, .shll, .shra, .shrl],
    ∀ (rd : Reg) (m : MemForm) (s : State), rd ≠ .flag → s.mmu.on = true →
      exec (mk rd (.mem m)) s =
        loadUnderMmu s m fun v => exec (mk rd (.imm v)) (s.withPc (s.pc + (if m.isLong then 4 else 2) - 4))) ∧
  (∀ mk ∈ [Instr.div, .mod], ∀ (rd : Reg) (m : MemForm) (s : State), rd ≠ .flag → s.mmu.on = true →
      exec (mk rd (.mem m)) s =
        loadUnderMmu s m fun v =>
          if v = 0 then trapEntry .zeroDivide (savedPcOther s.pc (s.pc + if m.isLong then 4 else 2)) s
          else exec (mk rd (.imm v)) (s.withPc (s.pc + (if m.isLong then 4 else 2) - 4))) ∧
  (∀ (rd : Reg) (m : MemForm) (s : State), s.mmu.on = true →
    exec (.st rd m) s =
      if isByteForm m then
        underMmu .write (effectiveAddr s m) (s.pc + if m.isLong then 4 else 2) s fun pa =>
          if overlaid s pa then .fault .iplWrite
          else .next ((putByte s pa (loByte (readReg s rd))).withPc (s.pc + if m.isLong then 4 else 2))
      else
        wordStoreUnderMmu (effectiveAddr s m) (s.pc + if m.isLong then 4 else 2) s fun pa =>
          .next ((putWord s pa (readReg s rd)).withPc (s.pc + if m.isLong then 4 else 2))) ∧
  (∀ (t : Target) (s : State), s.mmu.on = true →
    exec (.call t) s = wordStoreUnderMmu (readReg s .sp - 2) (s.pc + 4) s fun pa =>
      .next ((writeReg (putWord s pa (s.pc + 4)) .sp (readReg s .sp - 2)).withPc (targetAddr s t))) ∧
  (∀ (rd : Reg) (s : State), rd ≠ .sp → (rd = .usp → s.flag.p = true) → s.mmu.on = true →
    (exec (.push rd) s = wordStoreUnderMmu (readReg s .sp - 2) (s.pc + 2) s fun pa =>
      .next ((writeReg (putWord s pa (readReg s rd)) .sp (readReg s .sp - 2)).withPc (s.pc + 2))) ∧
    (exec (.pop rd) s = wordLoadUnderMmu .read (readReg s .sp) (s.pc + 2) s fun v =>
      .next ((writeReg (writeReg s .sp (readReg s .sp + 2)) rd v).withPc (s.pc + 2)))) ∧
  (∀ s : State, s.mmu.on = true →
    (exec .ret s = wordLoadUnderMmu .read (readReg s .sp) (s.pc + 2) s fun v =>
      .next ((writeReg s .sp (readReg s .sp + 2)).withPc v)) ∧
    (exec .reti s = wordLoadUnderMmu .read (readReg s .sp) (s.pc + 2) s fun f =>
      wordLoadUnderMmu .read (readReg s .sp + 2) (s.pc + 2) s fun v =>
        .next (((writeReg s .sp (readReg s .sp + 4)).withFlag (writeFlag s.flag f)).withPc v))) ∧
  (∀ s : State, s.halted = false → s.dev.sdBusy = false → anyIrqReady s = false → s.mmu.on = true →
    step s =
      wordLoadUnderMmu .fetch s.pc (s.pc + if Config.unfetchedLong then 4 else 2) s fun w1 =>
        match decodeFirst w1 with
        | .error r => onReject r s
        | .ok (.complete i) => exec i s
        | .ok (.needsSecond finish) =>
          if (finish 0).flagChangingRd = some .flag then .refused .flagDestination
          else wordLoadUnderMmu .fetch (s.pc + 2) (s.pc + 4) s fun w2 => exec (finish w2) s) ∧
  (∀ (c : Cause) (spc : Word) (s : State), s.mmu.on = true → trapEntry c spc s = entryUnderMmu c.vector spc s)

/-- A word operand at an odd address stops each flag-changing instruction with a model fault, and an odd stack pointer stops
RET (R46: the spec's decision D2). -/
def Obligations.OddAddressesFault : Prop :=
  (∀ mk ∈ [Instr.add, .sub, .cmp, .and, .or, .xor, .adds, .mul, .div, .mod, .shla, .shll, .shra, .shrl],
    ∀ rd s, rd ≠ .flag → oddFaults (mk rd) s) ∧
  (∀ s, s.mmu.on = false → isOdd (readReg s .sp) = true → exec .ret s = .fault .misaligned)

/-! Reset (R34). -/

/-- The values R34 fixes for reset: RN4020-Cmd by the source, the others by the spec's decision D23. -/
def Obligations.ResetFixedValues : Prop :=
  State.reset.flag.p = true ∧ State.reset.flag.e = false ∧ State.reset.halted = false ∧
  State.reset.pending = IrqLines.clear ∧ State.reset.ipl.attached = true ∧ State.reset.mmu.on = false ∧
  (∀ q, q ≠ .pio → irqEnabled State.reset.dev q = false) ∧ State.reset.dev.rn4020Cmd = 1

/-- The model's own choices for reset (logs 1 to 5): the entry address, the six flags R34 leaves open, registers and memory of
zeros, and no overlay; and the two invariants hold there. -/
def Obligations.ResetChosenValues : Prop :=
  State.reset.pc = 0xE000 ∧ (∀ q, State.reset.regs.get q = 0) ∧ (∀ a, byteAt State.reset a = 0) ∧
  State.reset.flag.i = false ∧ State.reset.flag.u = false ∧ State.reset.flag.v = false ∧
  State.reset.flag.c = false ∧ State.reset.flag.s = false ∧ State.reset.flag.z = false ∧
  State.reset.ipl.image = [] ∧
  memCanonical State.reset = true ∧ layoutsHold State.reset.dev = true

/-! Every step. -/

/-- The memory's canonical form, which is the model's (log 4), is kept by every step. -/
def Obligations.StepKeepsCanonicalMemory : Prop :=
  ∀ s t : State, memCanonical s = true → step s = .next t → memCanonical t = true

/-- A device register with a stated layout never holds a bit outside it (R244 to R251, as the model keeps them, log 10). -/
def Obligations.StepKeepsDeviceLayouts : Prop :=
  ∀ s t : State, layoutsHold s.dev = true → step s = .next t → layoutsHold t.dev = true

/-- A step in user mode stays there with E, I and SSP as they were, or is a trap entry, which sets P, clears E, keeps the other
flags and pushes two words on SSP (R14, R21, R23, R242, over the spec's decisions D15 and D17). -/
def Obligations.UserModeConfined : Prop :=
  ∀ s t : State, s.flag.p = false → step s = .next t →
    (t.flag.p = false ∧ t.flag.e = s.flag.e ∧ t.flag.i = s.flag.i ∧ t.regs.ssp = s.regs.ssp) ∨
    (t.flag = { s.flag with p := true, e := false } ∧ t.regs = { s.regs with ssp := s.regs.ssp - 4 })

/-- Without P and I no step reaches the I/O space: no device register, no OUT, no TLB entry, no IPL, and no switching of the
MMU (R41, R243; R241 is the spec's decision D16). That with the MMU on an access leaves the TLB, setting no R or D bit, is the
model's choice, log 11 (the translate R59 suggests sets them), as is that a step changes no request line, log 17. -/
def Obligations.UserStepLeavesDevices : Prop :=
  ∀ s t : State, s.flag.p = false → s.flag.i = false → step s = .next t →
    t.dev = s.dev ∧ t.ioLog = s.ioLog ∧ t.ipl = s.ipl ∧ t.pending = s.pending ∧ t.halted = s.halted ∧
    t.mmu.on = s.mmu.on ∧ t.mmu.ctl = s.mmu.ctl ∧ t.mmu.tlb = s.mmu.tlb

/-- Privileged mode is left only by RETI or by LD, POP or IN with Rd = Fh (R242, its second sentence). -/
def Obligations.LeavingPrivilegedMode : Prop :=
  ∀ s t : State, s.flag.p = true → step s = .next t → t.flag.p = false →
    ∃ i s', nextAction s = .run i s' ∧ loadsFlag i = true

/-- A running CPU stops only by a HALT fetched in privileged mode (R253; R191's privilege is the spec's decision D16). -/
def Obligations.OnlyPrivilegedHaltStops : Prop :=
  ∀ s t : State, s.halted = false → step s = .next t → t.halted = true →
    s.flag.p = true ∧ readWord (dmaTick s) .fetch s.pc = .ok 0xFF00 ∧ t.pc = s.pc + 2

/-- Outside the fourteen flag-changing instructions, LD, POP and IN with Rd = Fh, and RETI, an instruction leaves V, C, S and Z
as they are; and outside the four last no instruction writes I or U (R30: the spec's decision D37). -/
def Obligations.FlagWriters : Prop :=
  ∀ (i : Instr) (s t : State), exec i s = .next t → loadsFlag i = false →
    t.flag.i = s.flag.i ∧ t.flag.u = s.flag.u ∧
    (i.flagChangingRd = none →
      t.flag.v = s.flag.v ∧ t.flag.c = s.flag.c ∧ t.flag.s = s.flag.s ∧ t.flag.z = s.flag.z)
end

