-- ==== Sys2Proof/Laws/Bits.lean ====
section
/-! SUPPORT. The fields of a first word, the bytes of a word, parity of addresses. -/

namespace Sys2Proof.Machine

@[simp] theorem opField_firstWord (op : Byte) (rd rx : Nibble) : opField (firstWord op rd rx) = op := by
  apply BitVec.eq_of_getLsbD_eq
  intro i hi
  simp only [opField, firstWord, BitVec.getLsbD_extractLsb', BitVec.getLsbD_append, hi, decide_true, Bool.true_and]
  have h1 : ¬ 8 + i < 4 := by omega
  have h2 : ¬ 8 + i - 4 < 4 := by omega
  have h3 : 8 + i - 4 - 4 = i := by omega
  simp [h1, h2, h3]

@[simp] theorem rdField_firstWord (op : Byte) (rd rx : Nibble) : rdField (firstWord op rd rx) = rd := by
  apply BitVec.eq_of_getLsbD_eq
  intro i hi
  have h1 : ¬ 4 + i < 4 := by omega
  have h2 : 4 + i - 4 = i := by omega
  simp only [rdField, firstWord, BitVec.getLsbD_extractLsb', BitVec.getLsbD_append, hi, decide_true, Bool.true_and]
  simp [h1, h2, hi]

@[simp] theorem rxField_firstWord (op : Byte) (rd rx : Nibble) : rxField (firstWord op rd rx) = rx := by
  apply BitVec.eq_of_getLsbD_eq
  intro i hi
  simp only [rxField, firstWord, BitVec.getLsbD_extractLsb', BitVec.getLsbD_append, hi, decide_true, Bool.true_and]
  simp [hi]

/-- A first word is its three fields. -/
theorem firstWord_fields (w : Word) : firstWord (opField w) (rdField w) (rxField w) = w := by
  apply BitVec.eq_of_getLsbD_eq
  intro i hi
  simp only [opField, rdField, rxField, firstWord, BitVec.getLsbD_append, BitVec.getLsbD_extractLsb']
  by_cases h1 : i < 4
  · simp [h1]
  · by_cases h2 : i - 4 < 4
    · have h3 : 4 + (i - 4) = i := by omega
      simp [h1, h2, h3]
    · have h3 : i - 4 - 4 < 8 := by omega
      have h4 : 8 + (i - 4 - 4) = i := by omega
      simp [h1, h2, h3, h4]

@[simp] theorem hiByte_joinBytes (h l : Byte) : hiByte (joinBytes h l) = h := by
  apply BitVec.eq_of_getLsbD_eq
  intro i hi
  have h1 : ¬ 8 + i < 8 := by omega
  have h2 : 8 + i - 8 = i := by omega
  simp only [hiByte, joinBytes, BitVec.getLsbD_extractLsb', BitVec.getLsbD_append, hi, decide_true, Bool.true_and]
  simp [h1, h2]

@[simp] theorem loByte_joinBytes (h l : Byte) : loByte (joinBytes h l) = l := by
  apply BitVec.eq_of_getLsbD_eq
  intro i hi
  simp only [loByte, joinBytes, BitVec.getLsbD_extractLsb', BitVec.getLsbD_append, hi, decide_true, Bool.true_and]
  simp [hi]

@[simp] theorem joinBytes_hiByte_loByte (w : Word) : joinBytes (hiByte w) (loByte w) = w := by
  apply BitVec.eq_of_getLsbD_eq
  intro i hi
  simp only [hiByte, loByte, joinBytes, BitVec.getLsbD_append, BitVec.getLsbD_extractLsb']
  by_cases h1 : i < 8
  · simp [h1]
  · have h2 : i - 8 < 8 := by omega
    have h3 : 8 + (i - 8) = i := by omega
    simp [h1, h2, h3]

@[simp] theorem ofNibble_toNibble (r : Reg) : Reg.ofNibble r.toNibble = r := by cases r <;> rfl

@[simp] theorem toNibble_ofNibble (n : Nibble) : (Reg.ofNibble n).toNibble = n := by
  revert n
  decide

theorem toNat_opField (w : Word) : (opField w).toNat = w.toNat / 256 := by
  have h := w.isLt
  simp only [opField, BitVec.extractLsb'_toNat, Nat.shiftRight_eq_div_pow]
  omega

/-! Parity. -/

theorem isOdd_eq (a : Word) : isOdd a = decide (a.toNat % 2 = 1) := by
  simp [isOdd, BitVec.getLsbD, Nat.testBit_zero]

theorem isOdd_add_two (a : Word) : isOdd (a + 2) = isOdd a := by
  have h : (a + 2).toNat % 2 = a.toNat % 2 := by
    rw [BitVec.toNat_add, show (2 : Word).toNat = 2 from rfl]
    omega
  rw [isOdd_eq, isOdd_eq, h]

theorem isOdd_add_four (a : Word) : isOdd (a + 4) = isOdd a := by
  have h : (a + 4).toNat % 2 = a.toNat % 2 := by
    rw [BitVec.toNat_add, show (4 : Word).toNat = 4 from rfl]
    omega
  rw [isOdd_eq, isOdd_eq, h]

theorem isOdd_add_one (a : Word) : isOdd (a + 1) = !isOdd a := by
  have h : (a + 1).toNat % 2 = 1 - a.toNat % 2 := by
    rw [BitVec.toNat_add, show (1 : Word).toNat = 1 from rfl]
    omega
  rw [isOdd_eq, isOdd_eq, h]
  rcases Nat.mod_two_eq_zero_or_one a.toNat with h | h <;> simp [h]

theorem isOdd_sub_two (a : Word) : isOdd (a - 2) = isOdd a := by
  have h := isOdd_add_two (a - 2)
  rwa [BitVec.sub_add_cancel, eq_comm] at h

theorem isOdd_sub_four (a : Word) : isOdd (a - 4) = isOdd a := by
  have h := isOdd_add_four (a - 4)
  rwa [BitVec.sub_add_cancel, eq_comm] at h

/-- An even address and an odd one are not the same. -/
theorem ne_of_parity {a b : Word} (h : isOdd a ≠ isOdd b) : a ≠ b := fun e => h (by rw [e])

@[simp] theorem add_one_ne_self (a : Word) : a + 1 ≠ a :=
  ne_of_parity (by rw [isOdd_add_one]; cases isOdd a <;> decide)

@[simp] theorem self_ne_add_one (a : Word) : a ≠ a + 1 := fun h => add_one_ne_self a h.symm

theorem sub_two_sub_two (a : Word) : a - 2 - 2 = a - 4 := by
  rw [BitVec.sub_sub]
  rfl

end Sys2Proof.Machine
end

