-- ==== Sys2Proof/Laws/Memory.lean ====
section
/-! SUPPORT. Memory as a list: a read after a write, and the canonical form. The read laws hold of every list, canonical or
not. -/

namespace Sys2Proof.Machine

theorem Memory.read_erase_same (m : Memory) (a : Nat) : Memory.read (Memory.erase m a) a = Config.unlistedByte := by
  induction m with
  | nil => rfl
  | cons c m ih =>
    obtain ⟨k, v⟩ := c
    by_cases h : k = a
    · simp [Memory.erase, h, ih]
    · simp [Memory.erase, Memory.read, h, Ne.symm h, ih]

theorem Memory.read_erase_ne (m : Memory) {a c : Nat} (h : c ≠ a) :
    Memory.read (Memory.erase m a) c = Memory.read m c := by
  induction m with
  | nil => rfl
  | cons x m ih =>
    obtain ⟨k, v⟩ := x
    by_cases hk : k = a
    · subst hk
      simp [Memory.erase, Memory.read, h, ih]
    · simp [Memory.erase, Memory.read, hk, ih]

/-- No listed address is `a`. -/
def Memory.lacks (m : Memory) (a : Nat) : Prop := ∀ c ∈ m, c.1 ≠ a

theorem Memory.erase_lacks (m : Memory) (a : Nat) : Memory.lacks (Memory.erase m a) a := by
  induction m with
  | nil => simp [Memory.lacks, Memory.erase]
  | cons x m ih =>
    obtain ⟨k, v⟩ := x
    by_cases hk : k = a
    · simpa [Memory.erase, hk] using ih
    · simpa [Memory.erase, hk, Memory.lacks] using ih

theorem Memory.read_insert (m : Memory) (a : Nat) (b : Byte) (c : Nat) (h : Memory.lacks m a) :
    Memory.read (Memory.insert m a b) c = if c = a then b else Memory.read m c := by
  induction m with
  | nil => rfl
  | cons x m ih =>
    obtain ⟨k, v⟩ := x
    have hk : k ≠ a := h (k, v) (by simp)
    have hm : Memory.lacks m a := fun y hy => h y (by simp [hy])
    by_cases hlt : a < k
    · simp [Memory.insert, Memory.read, hlt]
    · simp only [Memory.insert, hlt, if_false, Memory.read, ih hm]
      by_cases hck : c = k
      · simp [hck, hk]
      · simp [hck]

/-- Read after write. -/
theorem Memory.read_write (m : Memory) (a : Nat) (b : Byte) (c : Nat) :
    Memory.read (Memory.write m a b) c = if c = a then b else Memory.read m c := by
  unfold Memory.write
  split
  · rename_i h
    by_cases hc : c = a
    · simp [hc, Memory.read_erase_same, h]
    · simp [hc, Memory.read_erase_ne m hc]
  · rw [Memory.read_insert _ _ _ _ (Memory.erase_lacks m a)]
    by_cases hc : c = a
    · simp [hc]
    · simp [hc, Memory.read_erase_ne m hc]

/-! The canonical form. -/

theorem Memory.wf_cons (k : Nat) (v : Byte) (m : Memory) :
    Memory.wf ((k, v) :: m) = true ↔
      k < 65536 ∧ v ≠ Config.unlistedByte ∧ (∀ c ∈ m, k < c.1) ∧ Memory.wf m = true := by
  simp [Memory.wf, and_assoc]

theorem Memory.mem_of_mem_erase {m : Memory} {a : Nat} {c : Host.Cell} (h : c ∈ Memory.erase m a) : c ∈ m := by
  induction m with
  | nil => simp [Memory.erase] at h
  | cons x m ih =>
    obtain ⟨k, v⟩ := x
    by_cases hk : k = a
    · simp only [Memory.erase, hk, if_true] at h
      exact List.mem_cons_of_mem _ (ih h)
    · simp only [Memory.erase, hk, if_false, List.mem_cons] at h
      rcases h with h | h
      · simp [h]
      · exact List.mem_cons_of_mem _ (ih h)

theorem Memory.mem_insert {m : Memory} {a : Nat} {b : Byte} {c : Host.Cell} (h : c ∈ Memory.insert m a b) :
    c = (a, b) ∨ c ∈ m := by
  induction m with
  | nil => simpa [Memory.insert] using h
  | cons x m ih =>
    obtain ⟨k, v⟩ := x
    by_cases hlt : a < k
    · simpa [Memory.insert, hlt] using h
    · simp only [Memory.insert, hlt, if_false, List.mem_cons] at h
      rcases h with h | h
      · simp [h]
      · rcases ih h with h | h <;> simp [h]

theorem Memory.wf_erase {m : Memory} (a : Nat) (h : Memory.wf m = true) : Memory.wf (Memory.erase m a) = true := by
  induction m with
  | nil => rfl
  | cons x m ih =>
    obtain ⟨k, v⟩ := x
    rw [Memory.wf_cons] at h
    by_cases hk : k = a
    · simpa [Memory.erase, hk] using ih h.2.2.2
    · simp only [Memory.erase, hk, if_false]
      exact (Memory.wf_cons _ _ _).2 ⟨h.1, h.2.1, fun c hc => h.2.2.1 c (Memory.mem_of_mem_erase hc), ih h.2.2.2⟩

theorem Memory.wf_insert {m : Memory} {a : Nat} {b : Byte} (ha : a < 65536) (hb : b ≠ Config.unlistedByte)
    (hl : Memory.lacks m a) (h : Memory.wf m = true) : Memory.wf (Memory.insert m a b) = true := by
  induction m with
  | nil => exact (Memory.wf_cons _ _ _).2 ⟨ha, hb, by simp, rfl⟩
  | cons x m ih =>
    obtain ⟨k, v⟩ := x
    have hk : k ≠ a := hl (k, v) (by simp)
    have hm : Memory.lacks m a := fun y hy => hl y (by simp [hy])
    rw [Memory.wf_cons] at h
    by_cases hlt : a < k
    · simp only [Memory.insert, hlt, if_true]
      refine (Memory.wf_cons _ _ _).2 ⟨ha, hb, ?_, (Memory.wf_cons _ _ _).2 h⟩
      intro c hc
      rcases List.mem_cons.1 hc with rfl | hc
      · exact hlt
      · exact Nat.lt_trans hlt (h.2.2.1 c hc)
    · simp only [Memory.insert, hlt, if_false]
      refine (Memory.wf_cons _ _ _).2 ⟨h.1, h.2.1, ?_, ih hm h.2.2.2⟩
      intro c hc
      rcases Memory.mem_insert hc with rfl | hc
      · exact show k < a by omega
      · exact h.2.2.1 c hc

/-- A write keeps the canonical form. -/
theorem Memory.wf_write {m : Memory} {a : Nat} (b : Byte) (ha : a < 65536) (h : Memory.wf m = true) :
    Memory.wf (Memory.write m a b) = true := by
  unfold Memory.write
  split
  · exact Memory.wf_erase a h
  · rename_i hb
    exact Memory.wf_insert ha hb (Memory.erase_lacks m a) (Memory.wf_erase a h)

/-- Several writes keep the canonical form. -/
theorem Memory.wf_writeAll {m : Memory} (ws : List (Word × Byte)) (h : Memory.wf m = true) :
    Memory.wf (Memory.writeAll m ws) = true := by
  induction ws generalizing m with
  | nil => exact h
  | cons w ws ih =>
    obtain ⟨a, b⟩ := w
    exact ih (Memory.wf_write b a.isLt h)

/-- The memory after reset is canonical. -/
theorem reset_mem_wf : Memory.wf State.reset.mem = true := rfl

end Sys2Proof.Machine
end

