-- ==== Sys2Proof/Laws/State.lean ====
section
/-! SUPPORT. Reading a field after an update of the state: one lemma per field per update. -/

namespace Sys2Proof.Machine

section
variable (s : State)

@[simp] theorem State.regs_withRegs (x : Regs) : (s.withRegs x).regs = x := rfl
@[simp] theorem State.flag_withRegs (x : Regs) : (s.withRegs x).flag = s.flag := rfl
@[simp] theorem State.pc_withRegs (x : Regs) : (s.withRegs x).pc = s.pc := rfl
@[simp] theorem State.mem_withRegs (x : Regs) : (s.withRegs x).mem = s.mem := rfl
@[simp] theorem State.ipl_withRegs (x : Regs) : (s.withRegs x).ipl = s.ipl := rfl
@[simp] theorem State.halted_withRegs (x : Regs) : (s.withRegs x).halted = s.halted := rfl
@[simp] theorem State.pending_withRegs (x : Regs) : (s.withRegs x).pending = s.pending := rfl
@[simp] theorem State.mmu_withRegs (x : Regs) : (s.withRegs x).mmu = s.mmu := rfl
@[simp] theorem State.dev_withRegs (x : Regs) : (s.withRegs x).dev = s.dev := rfl
@[simp] theorem State.ioLog_withRegs (x : Regs) : (s.withRegs x).ioLog = s.ioLog := rfl
@[simp] theorem State.draws_withRegs (x : Regs) : (s.withRegs x).draws = s.draws := rfl

@[simp] theorem State.regs_withFlag (x : Flag) : (s.withFlag x).regs = s.regs := rfl
@[simp] theorem State.flag_withFlag (x : Flag) : (s.withFlag x).flag = x := rfl
@[simp] theorem State.pc_withFlag (x : Flag) : (s.withFlag x).pc = s.pc := rfl
@[simp] theorem State.mem_withFlag (x : Flag) : (s.withFlag x).mem = s.mem := rfl
@[simp] theorem State.ipl_withFlag (x : Flag) : (s.withFlag x).ipl = s.ipl := rfl
@[simp] theorem State.halted_withFlag (x : Flag) : (s.withFlag x).halted = s.halted := rfl
@[simp] theorem State.pending_withFlag (x : Flag) : (s.withFlag x).pending = s.pending := rfl
@[simp] theorem State.mmu_withFlag (x : Flag) : (s.withFlag x).mmu = s.mmu := rfl
@[simp] theorem State.dev_withFlag (x : Flag) : (s.withFlag x).dev = s.dev := rfl
@[simp] theorem State.ioLog_withFlag (x : Flag) : (s.withFlag x).ioLog = s.ioLog := rfl
@[simp] theorem State.draws_withFlag (x : Flag) : (s.withFlag x).draws = s.draws := rfl

@[simp] theorem State.regs_withPc (x : Word) : (s.withPc x).regs = s.regs := rfl
@[simp] theorem State.flag_withPc (x : Word) : (s.withPc x).flag = s.flag := rfl
@[simp] theorem State.pc_withPc (x : Word) : (s.withPc x).pc = x := rfl
@[simp] theorem State.mem_withPc (x : Word) : (s.withPc x).mem = s.mem := rfl
@[simp] theorem State.ipl_withPc (x : Word) : (s.withPc x).ipl = s.ipl := rfl
@[simp] theorem State.halted_withPc (x : Word) : (s.withPc x).halted = s.halted := rfl
@[simp] theorem State.pending_withPc (x : Word) : (s.withPc x).pending = s.pending := rfl
@[simp] theorem State.mmu_withPc (x : Word) : (s.withPc x).mmu = s.mmu := rfl
@[simp] theorem State.dev_withPc (x : Word) : (s.withPc x).dev = s.dev := rfl
@[simp] theorem State.ioLog_withPc (x : Word) : (s.withPc x).ioLog = s.ioLog := rfl
@[simp] theorem State.draws_withPc (x : Word) : (s.withPc x).draws = s.draws := rfl

@[simp] theorem State.regs_withMem (x : Memory) : (s.withMem x).regs = s.regs := rfl
@[simp] theorem State.flag_withMem (x : Memory) : (s.withMem x).flag = s.flag := rfl
@[simp] theorem State.pc_withMem (x : Memory) : (s.withMem x).pc = s.pc := rfl
@[simp] theorem State.mem_withMem (x : Memory) : (s.withMem x).mem = x := rfl
@[simp] theorem State.ipl_withMem (x : Memory) : (s.withMem x).ipl = s.ipl := rfl
@[simp] theorem State.halted_withMem (x : Memory) : (s.withMem x).halted = s.halted := rfl
@[simp] theorem State.pending_withMem (x : Memory) : (s.withMem x).pending = s.pending := rfl
@[simp] theorem State.mmu_withMem (x : Memory) : (s.withMem x).mmu = s.mmu := rfl
@[simp] theorem State.dev_withMem (x : Memory) : (s.withMem x).dev = s.dev := rfl
@[simp] theorem State.ioLog_withMem (x : Memory) : (s.withMem x).ioLog = s.ioLog := rfl
@[simp] theorem State.draws_withMem (x : Memory) : (s.withMem x).draws = s.draws := rfl

@[simp] theorem State.regs_withIpl (x : Ipl) : (s.withIpl x).regs = s.regs := rfl
@[simp] theorem State.flag_withIpl (x : Ipl) : (s.withIpl x).flag = s.flag := rfl
@[simp] theorem State.pc_withIpl (x : Ipl) : (s.withIpl x).pc = s.pc := rfl
@[simp] theorem State.mem_withIpl (x : Ipl) : (s.withIpl x).mem = s.mem := rfl
@[simp] theorem State.ipl_withIpl (x : Ipl) : (s.withIpl x).ipl = x := rfl
@[simp] theorem State.halted_withIpl (x : Ipl) : (s.withIpl x).halted = s.halted := rfl
@[simp] theorem State.pending_withIpl (x : Ipl) : (s.withIpl x).pending = s.pending := rfl
@[simp] theorem State.mmu_withIpl (x : Ipl) : (s.withIpl x).mmu = s.mmu := rfl
@[simp] theorem State.dev_withIpl (x : Ipl) : (s.withIpl x).dev = s.dev := rfl
@[simp] theorem State.ioLog_withIpl (x : Ipl) : (s.withIpl x).ioLog = s.ioLog := rfl
@[simp] theorem State.draws_withIpl (x : Ipl) : (s.withIpl x).draws = s.draws := rfl

@[simp] theorem State.regs_withHalted (x : Bool) : (s.withHalted x).regs = s.regs := rfl
@[simp] theorem State.flag_withHalted (x : Bool) : (s.withHalted x).flag = s.flag := rfl
@[simp] theorem State.pc_withHalted (x : Bool) : (s.withHalted x).pc = s.pc := rfl
@[simp] theorem State.mem_withHalted (x : Bool) : (s.withHalted x).mem = s.mem := rfl
@[simp] theorem State.ipl_withHalted (x : Bool) : (s.withHalted x).ipl = s.ipl := rfl
@[simp] theorem State.halted_withHalted (x : Bool) : (s.withHalted x).halted = x := rfl
@[simp] theorem State.pending_withHalted (x : Bool) : (s.withHalted x).pending = s.pending := rfl
@[simp] theorem State.mmu_withHalted (x : Bool) : (s.withHalted x).mmu = s.mmu := rfl
@[simp] theorem State.dev_withHalted (x : Bool) : (s.withHalted x).dev = s.dev := rfl
@[simp] theorem State.ioLog_withHalted (x : Bool) : (s.withHalted x).ioLog = s.ioLog := rfl
@[simp] theorem State.draws_withHalted (x : Bool) : (s.withHalted x).draws = s.draws := rfl

@[simp] theorem State.regs_withPending (x : IrqLines) : (s.withPending x).regs = s.regs := rfl
@[simp] theorem State.flag_withPending (x : IrqLines) : (s.withPending x).flag = s.flag := rfl
@[simp] theorem State.pc_withPending (x : IrqLines) : (s.withPending x).pc = s.pc := rfl
@[simp] theorem State.mem_withPending (x : IrqLines) : (s.withPending x).mem = s.mem := rfl
@[simp] theorem State.ipl_withPending (x : IrqLines) : (s.withPending x).ipl = s.ipl := rfl
@[simp] theorem State.halted_withPending (x : IrqLines) : (s.withPending x).halted = s.halted := rfl
@[simp] theorem State.pending_withPending (x : IrqLines) : (s.withPending x).pending = x := rfl
@[simp] theorem State.mmu_withPending (x : IrqLines) : (s.withPending x).mmu = s.mmu := rfl
@[simp] theorem State.dev_withPending (x : IrqLines) : (s.withPending x).dev = s.dev := rfl
@[simp] theorem State.ioLog_withPending (x : IrqLines) : (s.withPending x).ioLog = s.ioLog := rfl
@[simp] theorem State.draws_withPending (x : IrqLines) : (s.withPending x).draws = s.draws := rfl

@[simp] theorem State.regs_withMmu (x : Mmu) : (s.withMmu x).regs = s.regs := rfl
@[simp] theorem State.flag_withMmu (x : Mmu) : (s.withMmu x).flag = s.flag := rfl
@[simp] theorem State.pc_withMmu (x : Mmu) : (s.withMmu x).pc = s.pc := rfl
@[simp] theorem State.mem_withMmu (x : Mmu) : (s.withMmu x).mem = s.mem := rfl
@[simp] theorem State.ipl_withMmu (x : Mmu) : (s.withMmu x).ipl = s.ipl := rfl
@[simp] theorem State.halted_withMmu (x : Mmu) : (s.withMmu x).halted = s.halted := rfl
@[simp] theorem State.pending_withMmu (x : Mmu) : (s.withMmu x).pending = s.pending := rfl
@[simp] theorem State.mmu_withMmu (x : Mmu) : (s.withMmu x).mmu = x := rfl
@[simp] theorem State.dev_withMmu (x : Mmu) : (s.withMmu x).dev = s.dev := rfl
@[simp] theorem State.ioLog_withMmu (x : Mmu) : (s.withMmu x).ioLog = s.ioLog := rfl
@[simp] theorem State.draws_withMmu (x : Mmu) : (s.withMmu x).draws = s.draws := rfl

@[simp] theorem State.regs_withDev (x : Devices) : (s.withDev x).regs = s.regs := rfl
@[simp] theorem State.flag_withDev (x : Devices) : (s.withDev x).flag = s.flag := rfl
@[simp] theorem State.pc_withDev (x : Devices) : (s.withDev x).pc = s.pc := rfl
@[simp] theorem State.mem_withDev (x : Devices) : (s.withDev x).mem = s.mem := rfl
@[simp] theorem State.ipl_withDev (x : Devices) : (s.withDev x).ipl = s.ipl := rfl
@[simp] theorem State.halted_withDev (x : Devices) : (s.withDev x).halted = s.halted := rfl
@[simp] theorem State.pending_withDev (x : Devices) : (s.withDev x).pending = s.pending := rfl
@[simp] theorem State.mmu_withDev (x : Devices) : (s.withDev x).mmu = s.mmu := rfl
@[simp] theorem State.dev_withDev (x : Devices) : (s.withDev x).dev = x := rfl
@[simp] theorem State.ioLog_withDev (x : Devices) : (s.withDev x).ioLog = s.ioLog := rfl
@[simp] theorem State.draws_withDev (x : Devices) : (s.withDev x).draws = s.draws := rfl

@[simp] theorem State.regs_withIoLog (x : List (Word × Word)) : (s.withIoLog x).regs = s.regs := rfl
@[simp] theorem State.flag_withIoLog (x : List (Word × Word)) : (s.withIoLog x).flag = s.flag := rfl
@[simp] theorem State.pc_withIoLog (x : List (Word × Word)) : (s.withIoLog x).pc = s.pc := rfl
@[simp] theorem State.mem_withIoLog (x : List (Word × Word)) : (s.withIoLog x).mem = s.mem := rfl
@[simp] theorem State.ipl_withIoLog (x : List (Word × Word)) : (s.withIoLog x).ipl = s.ipl := rfl
@[simp] theorem State.halted_withIoLog (x : List (Word × Word)) : (s.withIoLog x).halted = s.halted := rfl
@[simp] theorem State.pending_withIoLog (x : List (Word × Word)) : (s.withIoLog x).pending = s.pending := rfl
@[simp] theorem State.mmu_withIoLog (x : List (Word × Word)) : (s.withIoLog x).mmu = s.mmu := rfl
@[simp] theorem State.dev_withIoLog (x : List (Word × Word)) : (s.withIoLog x).dev = s.dev := rfl
@[simp] theorem State.ioLog_withIoLog (x : List (Word × Word)) : (s.withIoLog x).ioLog = x := rfl
@[simp] theorem State.draws_withIoLog (x : List (Word × Word)) : (s.withIoLog x).draws = s.draws := rfl

@[simp] theorem State.regs_withDraws (x : Nat) : (s.withDraws x).regs = s.regs := rfl
@[simp] theorem State.flag_withDraws (x : Nat) : (s.withDraws x).flag = s.flag := rfl
@[simp] theorem State.pc_withDraws (x : Nat) : (s.withDraws x).pc = s.pc := rfl
@[simp] theorem State.mem_withDraws (x : Nat) : (s.withDraws x).mem = s.mem := rfl
@[simp] theorem State.ipl_withDraws (x : Nat) : (s.withDraws x).ipl = s.ipl := rfl
@[simp] theorem State.halted_withDraws (x : Nat) : (s.withDraws x).halted = s.halted := rfl
@[simp] theorem State.pending_withDraws (x : Nat) : (s.withDraws x).pending = s.pending := rfl
@[simp] theorem State.mmu_withDraws (x : Nat) : (s.withDraws x).mmu = s.mmu := rfl
@[simp] theorem State.dev_withDraws (x : Nat) : (s.withDraws x).dev = s.dev := rfl
@[simp] theorem State.ioLog_withDraws (x : Nat) : (s.withDraws x).ioLog = s.ioLog := rfl
@[simp] theorem State.draws_withDraws (x : Nat) : (s.withDraws x).draws = x := rfl

end

/-- Two states are equal when every field is. -/
theorem State.eq_of_fields {s t : State} (h1 : s.regs = t.regs) (h2 : s.flag = t.flag) (h3 : s.pc = t.pc)
    (h4 : s.mem = t.mem) (h5 : s.ipl = t.ipl) (h6 : s.halted = t.halted) (h7 : s.pending = t.pending)
    (h8 : s.mmu = t.mmu) (h9 : s.dev = t.dev) (h10 : s.ioLog = t.ioLog) (h11 : s.draws = t.draws) : s = t := by
  cases s
  cases t
  simp only at *
  subst_vars
  rfl

end Sys2Proof.Machine
end

