-- ==== Sys2Proof/Laws/Registers.lean ====
section
/-! SUPPORT. Register access: what a write to a register number changes, and what it does not. -/

namespace Sys2Proof.Machine

section
variable (s : State) (r : Reg) (v : Word)

@[simp] theorem writeReg_pc : (writeReg s r v).pc = s.pc := by
  cases r <;> (try rfl)
  simp only [writeReg]
  split <;> rfl

@[simp] theorem writeReg_mem : (writeReg s r v).mem = s.mem := by
  cases r <;> (try rfl)
  simp only [writeReg]
  split <;> rfl

@[simp] theorem writeReg_ipl : (writeReg s r v).ipl = s.ipl := by
  cases r <;> (try rfl)
  simp only [writeReg]
  split <;> rfl

@[simp] theorem writeReg_halted : (writeReg s r v).halted = s.halted := by
  cases r <;> (try rfl)
  simp only [writeReg]
  split <;> rfl

@[simp] theorem writeReg_pending : (writeReg s r v).pending = s.pending := by
  cases r <;> (try rfl)
  simp only [writeReg]
  split <;> rfl

@[simp] theorem writeReg_mmu : (writeReg s r v).mmu = s.mmu := by
  cases r <;> (try rfl)
  simp only [writeReg]
  split <;> rfl

@[simp] theorem writeReg_dev : (writeReg s r v).dev = s.dev := by
  cases r <;> (try rfl)
  simp only [writeReg]
  split <;> rfl

@[simp] theorem writeReg_ioLog : (writeReg s r v).ioLog = s.ioLog := by
  cases r <;> (try rfl)
  simp only [writeReg]
  split <;> rfl

@[simp] theorem writeReg_draws : (writeReg s r v).draws = s.draws := by
  cases r <;> (try rfl)
  simp only [writeReg]
  split <;> rfl

/-- FLAG after a register write: only register Fh reaches it, under the mask (R21). -/
theorem writeReg_flag : (writeReg s r v).flag = if r = .flag then writeFlag s.flag v else s.flag := by
  cases r <;> (try rfl)
  simp only [writeReg]
  split <;> rfl

/-- The physical registers after a register write: the one the number names takes the value (R12, R13). -/
theorem writeReg_get (q : PhysReg) :
    (writeReg s r v).regs.get q = if physReg s r = some q then v else s.regs.get q := by
  cases r <;> cases q <;> simp [writeReg, physReg, Regs.get] <;> split <;> simp_all

/-- A register number but Fh reads its physical register. -/
theorem readReg_eq_get {q : PhysReg} (h : physReg s r = some q) : readReg s r = s.regs.get q := by
  cases r <;> simp only [physReg, Option.some.injEq, reduceCtorEq] at h <;> (try subst h) <;> (try rfl)
  revert h
  simp only [readReg]
  split <;> rintro ⟨⟩ <;> rfl

end

@[simp] theorem writeReg_flag_of_ne {r : Reg} (s : State) (v : Word) (h : r ≠ .flag) :
    (writeReg s r v).flag = s.flag := by
  simp [writeReg_flag, h]

/-- A register number but Fh names a physical register. -/
theorem physReg_isSome (s : State) {r : Reg} (h : r ≠ .flag) : ∃ q, physReg s r = some q := by
  cases r <;> simp only [physReg, Option.some.injEq, exists_eq'] <;> (try trivial)
  split <;> simp

/-- What a register number names depends on P alone. -/
theorem physReg_congr {s t : State} (r : Reg) (h : t.flag.p = s.flag.p) : physReg t r = physReg s r := by
  cases r <;> simp [physReg, h]

/-- A register but FLAG reads back what was written. -/
theorem readReg_writeReg_same (s : State) {r : Reg} (v : Word) (h : r ≠ .flag) : readReg (writeReg s r v) r = v := by
  obtain ⟨q, hq⟩ := physReg_isSome s h
  have hq' : physReg (writeReg s r v) r = some q :=
    (physReg_congr r (by rw [writeReg_flag_of_ne s v h])).trans hq
  rw [readReg_eq_get _ _ hq', writeReg_get, if_pos hq]

/-- Reading a register depends on the physical registers and FLAG alone. -/
theorem readReg_congr {s t : State} (r : Reg) (h1 : t.regs = s.regs) (h2 : t.flag = s.flag) :
    readReg t r = readReg s r := by
  cases r <;> simp [readReg, h1, h2]

/-- The physical registers are equal when each is. -/
theorem Regs.eq_of_get {x y : Regs} (h : ∀ q, x.get q = y.get q) : x = y := by
  obtain ⟨⟩ := x
  obtain ⟨⟩ := y
  simp only [Regs.mk.injEq]
  exact ⟨h .g0, h .g1, h .g2, h .g3, h .g4, h .g5, h .g6, h .g7, h .g8, h .g9, h .g10, h .g11, h .fp, h .ssp, h .usp⟩

/-- The stack pointer in use. -/
theorem physReg_sp (s : State) : physReg s .sp = some (activeSp s) := by
  simp only [physReg, activeSp]
  split <;> rfl

theorem readReg_sp (s : State) : readReg s .sp = s.regs.get (activeSp s) := readReg_eq_get _ _ (physReg_sp s)

end Sys2Proof.Machine
end

