-- ==== Sys2Proof/Laws/Access.lean ====
section
/-! SUPPORT. Memory access: what a write changes, what a read answers with the MMU off, and everything an access can do. -/

namespace Sys2Proof.Machine

/-! Writes. -/

section
variable (s : State) (a v : Word) (b : Byte)

@[simp] theorem putByte_regs : (putByte s a b).regs = s.regs := rfl
@[simp] theorem putByte_flag : (putByte s a b).flag = s.flag := rfl
@[simp] theorem putByte_pc : (putByte s a b).pc = s.pc := rfl
@[simp] theorem putByte_ipl : (putByte s a b).ipl = s.ipl := rfl
@[simp] theorem putByte_halted : (putByte s a b).halted = s.halted := rfl
@[simp] theorem putByte_pending : (putByte s a b).pending = s.pending := rfl
@[simp] theorem putByte_mmu : (putByte s a b).mmu = s.mmu := rfl
@[simp] theorem putByte_dev : (putByte s a b).dev = s.dev := rfl
@[simp] theorem putByte_ioLog : (putByte s a b).ioLog = s.ioLog := rfl
@[simp] theorem putByte_draws : (putByte s a b).draws = s.draws := rfl
@[simp] theorem putWord_regs : (putWord s a v).regs = s.regs := rfl
@[simp] theorem putWord_flag : (putWord s a v).flag = s.flag := rfl
@[simp] theorem putWord_pc : (putWord s a v).pc = s.pc := rfl
@[simp] theorem putWord_ipl : (putWord s a v).ipl = s.ipl := rfl
@[simp] theorem putWord_halted : (putWord s a v).halted = s.halted := rfl
@[simp] theorem putWord_pending : (putWord s a v).pending = s.pending := rfl
@[simp] theorem putWord_mmu : (putWord s a v).mmu = s.mmu := rfl
@[simp] theorem putWord_dev : (putWord s a v).dev = s.dev := rfl
@[simp] theorem putWord_ioLog : (putWord s a v).ioLog = s.ioLog := rfl
@[simp] theorem putWord_draws : (putWord s a v).draws = s.draws := rfl

end

theorem overlayByte_congr {s t : State} (a : Word) (h : t.ipl = s.ipl) : overlayByte t a = overlayByte s a := by
  simp [overlayByte, h]

theorem overlaid_congr {s t : State} (a : Word) (h : t.ipl = s.ipl) : overlaid t a = overlaid s a := by
  simp [overlaid, overlayByte_congr a h]

/-- The byte at an address depends on the overlay and the memory alone. -/
theorem byteAt_congr {s t : State} (a : Word) (h1 : t.ipl = s.ipl) (h2 : t.mem = s.mem) : byteAt t a = byteAt s a := by
  simp [byteAt, overlayByte_congr a h1, h2]

theorem wordAt_congr {s t : State} (a : Word) (h1 : t.ipl = s.ipl) (h2 : t.mem = s.mem) : wordAt t a = wordAt s a := by
  simp [wordAt, byteAt_congr _ h1 h2]

/-- A byte written where no overlay covers it reads back, and every other byte reads as before. -/
theorem byteAt_putByte (s : State) (a : Word) (b : Byte) (c : Word) (h : overlaid s a = false) :
    byteAt (putByte s a b) c = if c = a then b else byteAt s c := by
  have hmem : (putByte s a b).mem = Memory.write s.mem a.toNat b := rfl
  simp only [byteAt, overlayByte_congr c (putByte_ipl s a b), hmem, Memory.read_write, BitVec.toNat_inj]
  by_cases hc : c = a
  · subst hc
    simp only [overlaid, Option.isSome_eq_false_iff, Option.isNone_iff_eq_none] at h
    simp [h]
  · simp [hc]

/-- A word written where no overlay covers it: its two bytes change and no other. -/
theorem byteAt_putWord (s : State) (a v c : Word) (h0 : overlaid s a = false) (h1 : overlaid s (a + 1) = false) :
    byteAt (putWord s a v) c = if c = a then hiByte v else if c = a + 1 then loByte v else byteAt s c := by
  have h1' : overlaid (putByte s a (hiByte v)) (a + 1) = false :=
    (overlaid_congr (s := s) _ rfl).trans h1
  rw [putWord, byteAt_putByte _ _ _ _ h1', byteAt_putByte _ _ _ _ h0]
  by_cases hc : c = a
  · subst hc
    rw [if_neg (self_ne_add_one c), if_pos rfl, if_pos rfl]
  · simp [hc]

/-- A word written reads back. -/
theorem wordAt_putWord_same (s : State) (a v : Word) (h0 : overlaid s a = false) (h1 : overlaid s (a + 1) = false) :
    wordAt (putWord s a v) a = v := by
  rw [wordAt, byteAt_putWord s a v a h0 h1, byteAt_putWord s a v (a + 1) h0 h1, if_pos rfl,
    if_neg (add_one_ne_self a), if_pos rfl, joinBytes_hiByte_loByte]

/-- A word at an even address is not changed by a write of the word at another. -/
theorem wordAt_putWord_ne (s : State) (a v c : Word) (h0 : overlaid s a = false) (h1 : overlaid s (a + 1) = false)
    (hp : isOdd c = isOdd a) (hne : c ≠ a) : wordAt (putWord s a v) c = wordAt s c := by
  have e1 : c ≠ a + 1 := ne_of_parity (by rw [isOdd_add_one, hp]; cases isOdd a <;> decide)
  have e2 : c + 1 ≠ a := ne_of_parity (by rw [isOdd_add_one, hp]; cases isOdd a <;> decide)
  have e3 : c + 1 ≠ a + 1 := fun h => hne ((BitVec.add_left_inj 1).1 h)
  rw [wordAt, byteAt_putWord s a v c h0 h1, byteAt_putWord s a v (c + 1) h0 h1, if_neg hne, if_neg e1, if_neg e2,
    if_neg e3, wordAt]

/-! Accesses with the MMU off. -/

theorem translateAddr_off {s : State} (k : AccessKind) (a : Word) (h : s.mmu.on = false) :
    translateAddr s k a = .ok a := by
  simp [translateAddr, h]

/-- A translated address keeps its offset in the page, its parity among it. -/
@[simp] theorem isOdd_physAddr (f : Byte) (a : Word) : isOdd (physAddr f a) = isOdd a := by
  simp only [isOdd, physAddr, joinBytes, loByte, BitVec.getLsbD_append, BitVec.getLsbD_extractLsb']
  rfl

/-- A translation that answers keeps the parity of the address. -/
theorem translateAddr_ok {s : State} {k : AccessKind} {a pa : Word} (h : translateAddr s k a = .ok pa) :
    isOdd pa = isOdd a := by
  unfold translateAddr at h
  split at h
  · split at h <;> cases h
    exact isOdd_physAddr _ _
  · cases h
    rfl

/-- A physical address as a number, the frame's above the offset. -/
theorem physAddr_eq_inFrame (f : Byte) (a : Word) : physAddr f a = inFrame f a := by
  apply BitVec.eq_of_toNat_eq
  have h : (loByte a).toNat = a.toNat % 256 := by simp [loByte]
  have hf := f.isLt
  rw [inFrame, physAddr, joinBytes, BitVec.toNat_append, ← Nat.shiftLeft_add_eq_or_of_lt (loByte a).isLt,
    Nat.shiftLeft_eq, h, BitVec.toNat_ofNat]
  omega

/-- What an access's translation answers with the MMU on. -/
theorem translateAddr_on {s : State} (k : AccessKind) (a : Word) (h : s.mmu.on = true) :
    translateAddr s k a = match Config.translate s.flag.p k a s.mmu.tlb with
      | .frame f => .ok (inFrame f a)
      | .tlbMiss => .trap (.tlbMiss (hiByte a))
      | .violation badAddr memVio => .trap (.violation a badAddr memVio) := by
  unfold translateAddr
  rw [if_pos h]
  cases Config.translate s.flag.p k a s.mmu.tlb with
  | frame f => simp only [physAddr_eq_inFrame]
  | tlbMiss => rfl
  | violation badAddr memVio => rfl

theorem readByte_off {s : State} (k : AccessKind) (a : Word) (h : s.mmu.on = false) :
    readByte s k a = .ok (byteAt s a) := by
  simp [readByte, translateAddr_off k a h]

theorem readWord_off {s : State} (k : AccessKind) (a : Word) (h : s.mmu.on = false) :
    readWord s k a = if isOdd a then .fault .misaligned else .ok (wordAt s a) := by
  simp [readWord, translateAddr_off k a h]

theorem writeByte_off {s : State} (a : Word) (b : Byte) (h : s.mmu.on = false) :
    writeByte s a b = if overlaid s a then .fault .iplWrite else .ok (putByte s a b) := by
  simp [writeByte, translateAddr_off .write a h]

theorem writeWord_off {s : State} (a v : Word) (h : s.mmu.on = false) :
    writeWord s a v =
      if isOdd a then .fault .misaligned
      else if overlaid s a || overlaid s (a + 1) then .fault .iplWrite else .ok (putWord s a v) := by
  simp [writeWord, translateAddr_off .write a h]

theorem wordReadable_iff {s : State} {a : Word} :
    wordReadable s a = true ↔ s.mmu.on = false ∧ isOdd a = false := by
  simp [wordReadable]

theorem wordWritable_iff {s : State} {a : Word} :
    wordWritable s a = true ↔
      s.mmu.on = false ∧ isOdd a = false ∧ overlaid s a = false ∧ overlaid s (a + 1) = false := by
  simp [wordWritable, and_assoc]

theorem byteWritable_iff {s : State} {a : Word} :
    byteWritable s a = true ↔ s.mmu.on = false ∧ overlaid s a = false := by
  simp [byteWritable]

/-- A readable word is read. -/
theorem readWord_ready {s : State} {a : Word} (k : AccessKind) (h : wordReadable s a = true) :
    readWord s k a = .ok (wordAt s a) := by
  obtain ⟨h1, h2⟩ := wordReadable_iff.1 h
  simp [readWord_off k a h1, h2]

/-- A writable word is written. -/
theorem writeWord_ready {s : State} {a : Word} (v : Word) (h : wordWritable s a = true) :
    writeWord s a v = .ok (putWord s a v) := by
  obtain ⟨h1, h2, h3, h4⟩ := wordWritable_iff.1 h
  rw [writeWord_off a v h1, h2, h3, h4]
  rfl

/-- A readable form answers its value. -/
theorem loadForm_ready {s : State} {m : MemForm} (h : formReadable s m = true) :
    loadForm s m = .ok (formValue s m) := by
  simp only [formReadable, Bool.and_eq_true, Bool.not_eq_true', Bool.or_eq_true] at h
  by_cases hb : isByteForm m = true
  · simp [loadForm, formValue, hb, readByte_off .read _ h.1]
  · simp only [hb, false_or, Bool.false_eq_true] at h
    simp [loadForm, formValue, hb, readWord_off .read _ h.1, h.2]

/-- A readable operand answers its value. -/
theorem readOperand_ready {s : State} {src : Operand} (h : operandReadable s src = true) :
    readOperand s src = .ok (operandValue s src) := by
  cases src with
  | mem m => exact loadForm_ready h
  | imm d => rfl
  | reg rs => rfl
  | imm4 i => rfl

/-! What an access can do at all. -/

/-- A write that succeeds writes the word at one physical address. -/
theorem writeWord_ok {s s' : State} {a v : Word} (h : writeWord s a v = .ok s') :
    ∃ pa, isOdd pa = false ∧ overlaid s pa = false ∧ overlaid s (pa + 1) = false ∧ s' = putWord s pa v := by
  unfold writeWord at h
  split at h
  · rename_i pa hpa
    split at h
    · cases h
    · split at h
      · cases h
      · rename_i h1 h2
        simp only [Bool.or_eq_true, not_or, Bool.not_eq_true] at h1 h2
        cases h
        exact ⟨pa, (translateAddr_ok hpa).trans h1, h2.1, h2.2, rfl⟩
  · cases h
  · cases h

/-- A byte write that succeeds writes the byte at one physical address. -/
theorem writeByte_ok {s s' : State} {a : Word} {b : Byte} (h : writeByte s a b = .ok s') :
    ∃ pa, overlaid s pa = false ∧ s' = putByte s pa b := by
  unfold writeByte at h
  split at h
  · rename_i pa _
    split at h
    · cases h
    · rename_i h1
      cases h
      exact ⟨pa, by simpa using h1, rfl⟩
  · cases h
  · cases h

/-- A store that succeeds writes a byte or a word at one physical address. -/
theorem storeForm_ok {s s' : State} {m : MemForm} {v : Word} (h : storeForm s m v = .ok s') :
    ∃ pa, s' = putByte s pa (loByte v) ∨ s' = putWord s pa v := by
  unfold storeForm at h
  split at h
  · obtain ⟨pa, _, rfl⟩ := writeByte_ok h
    exact ⟨pa, .inl rfl⟩
  · obtain ⟨pa, _, _, _, rfl⟩ := writeWord_ok h
    exact ⟨pa, .inr rfl⟩

/-- A push that succeeds writes one word and moves the stack pointer in use. -/
theorem pushWord_ok {s s' : State} {v : Word} (h : pushWord s v = .ok s') :
    ∃ pa, s' = writeReg (putWord s pa v) .sp (readReg s .sp - 2) := by
  unfold pushWord at h
  simp only at h
  split at h
  · rename_i s1 h1
    obtain ⟨pa, _, _, _, rfl⟩ := writeWord_ok h1
    cases h
    exact ⟨pa, rfl⟩
  · cases h
  · cases h

/-- A pop that succeeds moves the stack pointer in use and nothing else. -/
theorem popWord_ok {s : State} {r : Word × State} (h : popWord s = .ok r) :
    r.2 = writeReg s .sp (readReg s .sp + 2) := by
  unfold popWord at h
  simp only at h
  split at h
  · cases h
    rfl
  · cases h
  · cases h

/-- What follows an access gives a next state only after a value, or by taking the access's MMU exception. -/
theorem orRaise_next {α : Type} {x : Access α} {pcn : Word} {s t : State} {k : α → Result}
    (h : x.orRaise pcn s k = .next t) :
    (∃ a, x = .ok a ∧ k a = .next t) ∨ (∃ m, x = .trap m ∧ raiseMmu m pcn s = .next t) := by
  cases x with
  | ok a => exact .inl ⟨a, rfl, h⟩
  | trap m => exact .inr ⟨m, rfl, h⟩
  | fault f => cases h

/-- What follows an access of a trap entry gives a next state only after a value. -/
theorem inEntry_next {α : Type} {x : Access α} {t : State} {k : α → Result} (h : x.inEntry k = .next t) :
    ∃ a, x = .ok a ∧ k a = .next t := by
  cases x with
  | ok a => exact ⟨a, rfl, h⟩
  | trap m => cases h
  | fault f => cases h

@[simp] theorem orRaise_ok {α : Type} (a : α) (pcn : Word) (s : State) (k : α → Result) :
    (Access.ok a).orRaise pcn s k = k a := rfl

@[simp] theorem inEntry_ok {α : Type} (a : α) (k : α → Result) : (Access.ok a).inEntry k = k a := rfl

end Sys2Proof.Machine
end

