-- ==== Sys2Proof/Laws/Decode.lean ====
section
/-! SUPPORT. When the decoder rejects a first word, and why: each piece of `decodeFirst` once, then the whole of it as two
tables over the row and the form of OP. -/

namespace Sys2Proof.Machine

open Sys2Proof

theorem formOf_lt (w : Word) : formOf w < 8 := Nat.mod_lt _ (by omega)

theorem rowOf_lt (w : Word) : rowOf w < 32 := by
  have := (opField w).isLt
  unfold rowOf
  omega

/-- OP from its row and form. -/
theorem opField_eq {w : Word} {r f : Nat} (op : Byte) (h1 : rowOf w = r) (h2 : formOf w = f) (h : op.toNat = 8 * r + f) :
    opField w = op := by
  apply BitVec.eq_of_toNat_eq
  unfold rowOf at h1
  unfold formOf at h2
  omega

/-- A word is its three fields. -/
theorem eq_firstWord_iff (w : Word) (op : Byte) (rd rx : Nibble) :
    w = firstWord op rd rx ↔ opField w = op ∧ rdField w = rd ∧ rxField w = rx := by
  constructor
  · rintro rfl
    simp
  · rintro ⟨rfl, rfl, rfl⟩
    exact (firstWord_fields w).symm

theorem rxZero_error (w : Word) (r : FirstWord) (e : Reject) :
    rxZero w r = .error e ↔ rxField w ≠ 0 ∧ e = .reservedField := by
  unfold rxZero
  split <;> simp_all [@eq_comm Reject]

theorem wholeWord_error (w p : Word) (i : Instr) (e : Reject) :
    wholeWord w p i = .error e ↔ w ≠ p ∧ e = .reservedField := by
  unfold wholeWord
  split <;> simp_all [@eq_comm Reject]

theorem decodeMem_error (w : Word) (k : MemForm → Instr) (e : Reject) : decodeMem w k = .error e ↔
    (formOf w = 0 ∧ rxField w ≠ 0 ∧ e = .reservedField) ∨
    ((formOf w = 2 ∨ formOf w = 4 ∨ formOf w = 5) ∧ e = .undefinedOpcode) := by
  have := formOf_lt w
  unfold decodeMem
  generalize formOf w = f at *
  interval_cases f <;> simp [rxZero_error, @eq_comm Reject]

theorem decodeOperand_error (w : Word) (k : Operand → Instr) (e : Reject) : decodeOperand w k = .error e ↔
    (formOf w = 0 ∨ formOf w = 2) ∧ rxField w ≠ 0 ∧ e = .reservedField := by
  have := formOf_lt w
  have hm := decodeMem_error w (fun m => k (.mem m)) e
  unfold decodeOperand
  generalize hf : formOf w = f at *
  interval_cases f <;> simp [rxZero_error, hm]

theorem decodeTarget_error (w : Word) (k : Target → Instr) (e : Reject) : decodeTarget w k = .error e ↔
    (formOf w = 0 ∧ rxField w ≠ 0 ∧ e = .reservedField) ∨ (2 ≤ formOf w ∧ e = .undefinedOpcode) := by
  have := formOf_lt w
  unfold decodeTarget
  generalize formOf w = f at *
  interval_cases f <;> simp [rxZero_error, @eq_comm Reject]

theorem decodePort_error (w : Word) (k : Port → Instr) (e : Reject) : decodePort w k = .error e ↔
    (formOf w = 0 ∧ rxField w ≠ 0 ∧ e = .reservedField) ∨
    (1 ≤ formOf w ∧ formOf w ≤ 5 ∧ e = .undefinedOpcode) ∨ (formOf w = 7 ∧ e = .contestedOpcode) := by
  have := formOf_lt w
  unfold decodePort
  generalize formOf w = f at *
  interval_cases f <;> simp [rxZero_error, @eq_comm Reject]

theorem jumpOf_eq_none (n : Nibble) : jumpOf n = none ↔ n = 0xD := by
  have : n.toNat < 16 := n.isLt
  constructor
  · intro h
    apply BitVec.eq_of_toNat_eq
    unfold jumpOf at h
    generalize n.toNat = k at *
    interval_cases k <;> first | rfl | simp at h
  · rintro rfl
    rfl

theorem decodeJump_error (w : Word) (e : Reject) : decodeJump w = .error e ↔
    (formOf w = 0 ∧ rdField w ≠ 0xD ∧ rxField w ≠ 0 ∧ e = .reservedField) ∨ (2 ≤ formOf w ∧ e = .undefinedOpcode) ∨
    (formOf w ≤ 1 ∧ rdField w = 0xD ∧ e = .jumpCondition) := by
  unfold decodeJump
  cases h : jumpOf (rdField w) with
  | none =>
    have h' := (jumpOf_eq_none _).1 h
    simp only [h']
    split <;> rename_i hle <;> simp [@eq_comm Reject, hle]
    intros
    omega
  | some k =>
    have h' : rdField w ≠ 0xD := fun e => by
      rw [(jumpOf_eq_none _).2 e] at h
      cases h
    simp only [decodeTarget_error, h', ne_eq, not_false_eq_true, true_and, false_and, and_false, or_false]

theorem decodeCall_error (w : Word) (e : Reject) : decodeCall w = .error e ↔
    (formOf w ≤ 1 ∧ rdField w ≠ 0 ∧ e = .reservedField) ∨
    (formOf w = 0 ∧ rdField w = 0 ∧ rxField w ≠ 0 ∧ e = .reservedField) ∨ (2 ≤ formOf w ∧ e = .undefinedOpcode) := by
  have := formOf_lt w
  unfold decodeCall
  simp only [decodeTarget_error, apply_ite (fun x => x = Except.error e), Except.error.injEq, @eq_comm Reject .reservedField]
  by_cases h : rdField w = 0 <;> simp only [h, true_or, if_true, false_or, ne_eq, not_true_eq_false, not_false_eq_true,
    true_and, false_and, and_false]
  split <;> rename_i h1
  · constructor
    · rintro (⟨h2, _⟩ | h2)
      · omega
      · exact .inr h2
    · rintro (⟨h2, _⟩ | h2)
      · omega
      · exact .inr h2
  · constructor
    · exact fun h2 => .inl ⟨by omega, h2⟩
    · rintro (h2 | ⟨h2, _⟩)
      · exact h2.2
      · omega

/-- The undefined cells of the opcode map, by row and form (R75). -/
def undefinedCell (r f : Nat) : Bool :=
  match r with
  | 0 | 30 => f != 0
  | 1 | 3 | 4 | 5 | 6 | 7 | 8 | 9 | 10 | 11 | 12 | 16 | 17 | 18 | 19 => false
  | 2 => f == 2 || f == 4 || f == 5
  | 20 | 21 => decide (2 ≤ f)
  | 22 | 23 => decide (1 ≤ f) && decide (f ≤ 5)
  | 24 | 26 => f != 0 && f != 4
  | 31 => f != 7
  | _ => true

theorem ite_eq_cases {α : Type} {c : Prop} [Decidable c] {x y z : α} :
    (if c then x else y) = z ↔ (c ∧ x = z) ∨ (¬c ∧ y = z) := by
  split <;> simp_all

/-- Which first words are undefined opcodes, cell by cell. -/
theorem decodeFirst_undefined (w : Word) :
    decodeFirst w = .error .undefinedOpcode ↔ undefinedCell (rowOf w) (formOf w) = true := by
  have hf := formOf_lt w
  unfold decodeFirst undefinedCell
  simp only
  split <;> rename_i hr <;>
    simp only [hr, decodeMem_error, decodeOperand_error, decodePort_error, decodeJump_error, decodeCall_error,
      ite_eq_cases, wholeWord_error, reduceCtorEq, and_false, false_or, or_false, and_true, Bool.false_eq_true]
  all_goals
    generalize formOf w = f at *
    interval_cases f <;> simp [wholeWord_error, rxZero_error]

/-- The cells with a fixed field, and whether its value is wrong: Rd is not 0h, not Dh, not Fh, and Rx is not 0h (R76). -/
def reservedCell (r f : Nat) (rd0 rdD rdF rx0 : Bool) : Bool :=
  match r with
  | 0 | 30 => f == 0 && (rd0 || rx0)
  | 1 | 3 | 4 | 5 | 6 | 7 | 8 | 9 | 10 | 11 | 12 | 16 | 17 | 18 | 19 => (f == 0 || f == 2) && rx0
  | 2 | 22 | 23 => f == 0 && rx0
  | 20 => f == 0 && rdD && rx0
  | 21 => (f == 0 && (rd0 || rx0)) || (f == 1 && rd0)
  | 24 => (f == 0 || f == 4) && rx0
  | 26 => (f == 0 && (rd0 || rx0)) || (f == 4 && (rdF || rx0))
  | 31 => f == 7 && (rd0 || rx0)
  | _ => false

theorem wholeWord_reserved {w p : Word} {i : Instr} {op : Byte} {rd rx : Nibble} (hp : p = firstWord op rd rx)
    (ho : opField w = op) : wholeWord w p i = .error .reservedField ↔ (rdField w != rd || rxField w != rx) = true := by
  rw [wholeWord_error, hp, ne_eq, eq_firstWord_iff]
  by_cases h : rdField w = rd <;> simp [ho, h]

/-- Which first words have a wrong fixed field, cell by cell. -/
theorem decodeFirst_reserved (w : Word) :
    decodeFirst w = .error .reservedField ↔
      reservedCell (rowOf w) (formOf w) (rdField w != 0) (rdField w != 0xD) (rdField w != 0xF) (rxField w != 0) = true := by
  have hf := formOf_lt w
  have whole : ∀ (op : Byte) (rd rx : Nibble) (i : Instr) (r f : Nat), rowOf w = r → formOf w = f →
      op.toNat = 8 * r + f →
      (wholeWord w (firstWord op rd rx) i = .error .reservedField ↔ (rdField w != rd || rxField w != rx) = true) :=
    fun op rd rx i r f h1 h2 h3 => wholeWord_reserved rfl (opField_eq op h1 h2 h3)
  unfold decodeFirst reservedCell
  simp only
  split <;> rename_i hr <;>
    simp only [hr, decodeMem_error, decodeOperand_error, decodePort_error, decodeJump_error, decodeCall_error,
      ite_eq_cases, reduceCtorEq, and_false, or_false, and_true, Bool.false_eq_true]
  case h_1 =>
    by_cases h : formOf w = 0
    · simp only [h, show (0x0000 : Word) = firstWord 0x00 0 0 from by decide, whole 0x00 0 0 .no _ _ hr h rfl]
      simp
    · simp [h]
  case h_22 =>
    generalize formOf w = f at *
    interval_cases f <;> simp [rxZero_error]
  case h_23 =>
    generalize hg : formOf w = f at *
    interval_cases f
    · simp only [show (0xD000 : Word) = firstWord 0xD0 0 0 from by decide, whole 0xD0 0 0 .ret _ _ hr rfl rfl]
      simp
    · simp
    · simp
    · simp
    · simp only [show (0xD4F0 : Word) = firstWord 0xD4 0xF 0 from by decide, whole 0xD4 0xF 0 .reti _ _ hr rfl rfl]
      simp
    · simp
    · simp
    · simp
  case h_24 =>
    by_cases h : formOf w = 0
    · simp only [h, show (0xF000 : Word) = firstWord 0xF0 0 0 from by decide, whole 0xF0 0 0 .svc _ _ hr h rfl]
      simp
    · simp [h]
  case h_25 =>
    by_cases h : formOf w = 7
    · simp only [h, show (0xFF00 : Word) = firstWord 0xFF 0 0 from by decide, whole 0xFF 0 0 .halt _ _ hr h rfl]
      simp
    · simp [h]
  case h_19 =>
    generalize formOf w = f at *
    by_cases h : rdField w = 0#4 <;> interval_cases f <;> simp [h]
  all_goals
    generalize formOf w = f at *
    interval_cases f <;> simp

/-! The second word is an address or a number: it does not change which instruction the first word names, nor its Rd. -/

theorem rxZero_second {w : Word} {r : FirstWord} {g : Word → Instr} (h : rxZero w r = .ok (.needsSecond g)) :
    r = .needsSecond g := by
  unfold rxZero at h
  split at h <;> cases h
  rfl

section
variable {w : Word} {g : Word → Instr}

theorem decodeMem_second {k : MemForm → Instr} (hk : ∀ m m', (k m).flagChangingRd = (k m').flagChangingRd)
    (h : decodeMem w k = .ok (.needsSecond g)) (a b : Word) : (g a).flagChangingRd = (g b).flagChangingRd := by
  unfold decodeMem at h
  split at h
  · cases rxZero_second h
    exact hk _ _
  all_goals cases h
  exact hk _ _

theorem decodeOperand_second {k : Operand → Instr} (hk : ∀ m m', (k m).flagChangingRd = (k m').flagChangingRd)
    (h : decodeOperand w k = .ok (.needsSecond g)) (a b : Word) : (g a).flagChangingRd = (g b).flagChangingRd := by
  unfold decodeOperand at h
  split at h
  · cases rxZero_second h
    exact hk _ _
  · cases h
  · cases h
  · exact decodeMem_second (fun m m' => hk (.mem m) (.mem m')) h a b

theorem decodeTarget_second {k : Target → Instr} (hk : ∀ m m', (k m).flagChangingRd = (k m').flagChangingRd)
    (h : decodeTarget w k = .ok (.needsSecond g)) (a b : Word) : (g a).flagChangingRd = (g b).flagChangingRd := by
  unfold decodeTarget at h
  split at h
  · cases rxZero_second h
    exact hk _ _
  all_goals cases h
  exact hk _ _

theorem decodePort_second {k : Port → Instr} (hk : ∀ m m', (k m).flagChangingRd = (k m').flagChangingRd)
    (h : decodePort w k = .ok (.needsSecond g)) (a b : Word) : (g a).flagChangingRd = (g b).flagChangingRd := by
  unfold decodePort at h
  split at h
  · cases rxZero_second h
    exact hk _ _
  all_goals cases h

theorem jumpOf_flagChangingRd {n : Nibble} {k : Target → Instr} (h : jumpOf n = some k) (m : Target) :
    (k m).flagChangingRd = none := by
  unfold jumpOf at h
  split at h <;> cases h <;> rfl

/-- Whatever the second word, a flag-changing instruction of two words has the same Rd. -/
theorem decodeFirst_second (h : decodeFirst w = .ok (.needsSecond g)) (a b : Word) :
    (g a).flagChangingRd = (g b).flagChangingRd := by
  have whole : ∀ {p i}, wholeWord w p i ≠ .ok (.needsSecond g) := by
    intro p i
    unfold wholeWord
    split <;> simp
  unfold decodeFirst at h
  simp only at h
  split at h
  case h_1 | h_24 | h_25 =>
    split at h
    · exact absurd h whole
    · cases h
  case h_3 => exact decodeMem_second (fun _ _ => rfl) h a b
  case h_18 =>
    unfold decodeJump at h
    split at h
    · rename_i k hk
      exact decodeTarget_second
        (fun m m' => (jumpOf_flagChangingRd hk m).trans (jumpOf_flagChangingRd hk m').symm) h a b
    · split at h <;> cases h
  case h_19 =>
    unfold decodeCall at h
    split at h
    · exact decodeTarget_second (fun _ _ => rfl) h a b
    · cases h
  case h_20 | h_21 => exact decodePort_second (fun _ _ => rfl) h a b
  case h_22 =>
    split at h
    · cases rxZero_second h
    · cases rxZero_second h
    · cases h
  case h_23 =>
    split at h
    · exact absurd h whole
    · exact absurd h whole
    · cases h
  case h_26 => cases h
  all_goals exact decodeOperand_second (fun _ _ => rfl) h a b

/-- The fetch's test for the refusal of R121 is that of the instruction, whatever its second word. -/
theorem refusesFlag_iff (h : decodeFirst w = .ok (.needsSecond g)) (d : Word) :
    refusesFlag g = true ↔ (g d).flagChangingRd = some .flag := by
  rw [refusesFlag, decide_eq_true_eq, decodeFirst_second h 0 d]

end

end Sys2Proof.Machine
end

