-- ==== Sys2Proof/Laws/Entry.lean ====
section
/-! SUPPORT. Taking an exception and returning from one, once: what they do when the accesses are defined, and everything
they can do at all. -/

namespace Sys2Proof.Machine

/-- The state after the two pushes of a trap entry at the addresses `pa` and `pb`. -/
def entryPushed (pa pb spc : Word) (s : State) : State :=
  let s1 := s.withFlag { s.flag with p := true, e := false }
  let s3 := putWord (putWord s1 pa spc) pb (flagWord s.flag)
  s3.withRegs { s3.regs with ssp := s.regs.ssp - 2 - 2 }

section
variable (pa pb spc : Word) (s : State)

@[simp] theorem entryPushed_regs :
    (entryPushed pa pb spc s).regs = { s.regs with ssp := s.regs.ssp - 2 - 2 } := rfl
@[simp] theorem entryPushed_flag : (entryPushed pa pb spc s).flag = { s.flag with p := true, e := false } := rfl
@[simp] theorem entryPushed_ipl : (entryPushed pa pb spc s).ipl = s.ipl := rfl
@[simp] theorem entryPushed_halted : (entryPushed pa pb spc s).halted = s.halted := rfl
@[simp] theorem entryPushed_pending : (entryPushed pa pb spc s).pending = s.pending := rfl
@[simp] theorem entryPushed_mmu : (entryPushed pa pb spc s).mmu = s.mmu := rfl
@[simp] theorem entryPushed_dev : (entryPushed pa pb spc s).dev = s.dev := rfl
@[simp] theorem entryPushed_ioLog : (entryPushed pa pb spc s).ioLog = s.ioLog := rfl
@[simp] theorem entryPushed_draws : (entryPushed pa pb spc s).draws = s.draws := rfl

end

theorem entryPushed_mem (pa pb spc : Word) (s : State) :
    (entryPushed pa pb spc s).mem = (putWord (putWord s pa spc) pb (flagWord s.flag)).mem := rfl

/-- A trap entry that succeeds pushes two words somewhere and sets the PC. -/
theorem trapEntry_next {cause : Cause} {spc : Word} {s t : State} (h : trapEntry cause spc s = .next t) :
    ∃ pa pb handler, t = (entryPushed pa pb spc s).withPc handler := by
  unfold trapEntry at h
  obtain ⟨s2, h2, h⟩ := inEntry_next h
  obtain ⟨s3, h3, h⟩ := inEntry_next h
  obtain ⟨handler, _, h⟩ := inEntry_next h
  obtain ⟨pa, _, _, _, rfl⟩ := writeWord_ok h2
  obtain ⟨pb, _, _, _, rfl⟩ := writeWord_ok h3
  cases h
  exact ⟨pa, pb, handler, rfl⟩

/-- Where both pushes are defined, a trap entry pushes at SSP - 2 and SSP - 4 and goes to the handler. -/
theorem trapEntry_ready {cause : Cause} {spc : Word} {s : State} (h : entryReady s = true) :
    trapEntry cause spc s =
      .next ((entryPushed (s.regs.ssp - 2) (s.regs.ssp - 4) spc s).withPc
        (wordAt (entryPushed (s.regs.ssp - 2) (s.regs.ssp - 4) spc s) cause.vector)) := by
  simp only [entryReady, Bool.and_eq_true] at h
  obtain ⟨h1, h2⟩ := h
  rw [← sub_two_sub_two] at h2 ⊢
  have e1 : wordWritable (s.withFlag { s.flag with p := true, e := false }) (s.regs.ssp - 2) = true := h1
  have e2 : wordWritable
      (putWord (s.withFlag { s.flag with p := true, e := false }) (s.regs.ssp - 2) spc) (s.regs.ssp - 2 - 2) = true := h2
  have e3 : wordReadable (entryPushed (s.regs.ssp - 2) (s.regs.ssp - 2 - 2) spc s) cause.vector = true := by
    have hm := (wordWritable_iff.1 h1).1
    refine wordReadable_iff.2 ⟨hm, ?_⟩
    rcases cause with q | _ <;> (try rfl)
    cases q <;> rfl
  unfold trapEntry
  simp only [writeWord_ready _ e1, inEntry_ok, writeWord_ready _ e2]
  exact congrArg (fun x => Access.inEntry x _) (readWord_ready .read e3)

/-- A return that succeeds loads FLAG under its mask, moves the stack pointer in use by 4 and sets the PC; or it takes the
MMU exception of one of its reads. -/
theorem returnFromTrap_next {pcn : Word} {s t : State} (h : returnFromTrap pcn s = .next t) :
    (∃ f npc, t = ((writeReg s .sp (readReg s .sp + 4)).withFlag (writeFlag s.flag f)).withPc npc) ∨
      (∃ m, raiseMmu m pcn s = .next t) := by
  unfold returnFromTrap at h
  rcases orRaise_next h with ⟨f, _, h⟩ | ⟨m, _, h⟩
  · rcases orRaise_next h with ⟨npc, _, h⟩ | ⟨m, _, h⟩
    · cases h
      exact .inl ⟨f, npc, rfl⟩
    · exact .inr ⟨m, h⟩
  · exact .inr ⟨m, h⟩

/-- An MMU exception that is taken is a trap entry from a state that differs in its MMU registers alone. -/
theorem raiseMmu_next {m : MmuTrap} {pcn : Word} {s t : State} (h : raiseMmu m pcn s = .next t) :
    ∃ x pa pb spc handler, t = (entryPushed pa pb spc (s.withMmu x)).withPc handler := by
  unfold raiseMmu at h
  have hr : ∃ x, recordMmu m s = s.withMmu x := by
    cases m
    · exact ⟨_, rfl⟩
    · exact ⟨_, rfl⟩
  obtain ⟨x, hx⟩ := hr
  rw [hx] at h
  obtain ⟨pa, pb, handler, rfl⟩ := trapEntry_next h
  exact ⟨x, pa, pb, _, handler, rfl⟩

end Sys2Proof.Machine
end

