-- ==== Sys2Proof/Laws/Exec.lean ====
section
/-! SUPPORT. The shared shapes of the meanings, once: what each does when its operand is readable, and everything it can do
at all. -/

namespace Sys2Proof.Machine

section
variable (o : AluOut) (s : State)

@[simp] theorem applyFlags_regs : (applyFlags o s).regs = s.regs := rfl
@[simp] theorem applyFlags_pc : (applyFlags o s).pc = s.pc := rfl
@[simp] theorem applyFlags_mem : (applyFlags o s).mem = s.mem := rfl
@[simp] theorem applyFlags_ipl : (applyFlags o s).ipl = s.ipl := rfl
@[simp] theorem applyFlags_halted : (applyFlags o s).halted = s.halted := rfl
@[simp] theorem applyFlags_pending : (applyFlags o s).pending = s.pending := rfl
@[simp] theorem applyFlags_mmu : (applyFlags o s).mmu = s.mmu := rfl
@[simp] theorem applyFlags_dev : (applyFlags o s).dev = s.dev := rfl
@[simp] theorem applyFlags_ioLog : (applyFlags o s).ioLog = s.ioLog := rfl
@[simp] theorem applyFlags_e : (applyFlags o s).flag.e = s.flag.e := rfl
@[simp] theorem applyFlags_p : (applyFlags o s).flag.p = s.flag.p := rfl
@[simp] theorem applyFlags_i : (applyFlags o s).flag.i = s.flag.i := rfl
@[simp] theorem applyFlags_u : (applyFlags o s).flag.u = s.flag.u := rfl
@[simp] theorem applyFlags_v : (applyFlags o s).flag.v = o.v.value (Config.drawV s.draws) := rfl
@[simp] theorem applyFlags_c : (applyFlags o s).flag.c = o.c.value (Config.drawC s.draws) := rfl
@[simp] theorem applyFlags_s : (applyFlags o s).flag.s = o.s := rfl
@[simp] theorem applyFlags_z : (applyFlags o s).flag.z = o.z := rfl
@[simp] theorem applyFlags_draws : (applyFlags o s).draws = if o.draws then s.draws + 1 else s.draws := rfl

end

/-- FLAG as the destination of a flag-changing instruction is refused, whatever the state (R121). -/
theorem exec_flagDestination {i : Instr} (h : i.flagChangingRd = some .flag) (s : State) :
    exec i s = .refused .flagDestination := by
  cases i <;> simp [Instr.flagChangingRd] at h <;> subst h <;> rfl

/-- A flag-changing instruction with a readable operand. -/
theorem aluOp_ready {f : Word → Word → AluOut} {store : Bool} {rd : Reg} {src : Operand} {s : State}
    (hrd : rd ≠ .flag) (h : operandReadable s src = true) :
    aluOp f store rd src s =
      .next ((if store then
          writeReg (applyFlags (f (readReg s rd) (operandValue s src)) s) rd
            (f (readReg s rd) (operandValue s src)).result
        else applyFlags (f (readReg s rd) (operandValue s src)) s).withPc (nextPc s src.isLong)) := by
  simp [aluOp, hrd, readOperand_ready h]

/-- Everything a flag-changing instruction can do. -/
theorem aluOp_next {f : Word → Word → AluOut} {store : Bool} {rd : Reg} {src : Operand} {s t : State}
    (h : aluOp f store rd src s = .next t) :
    rd ≠ .flag ∧
      ((∃ b, t = ((if store then writeReg (applyFlags (f (readReg s rd) b) s) rd (f (readReg s rd) b).result
          else applyFlags (f (readReg s rd) b) s).withPc (nextPc s src.isLong))) ∨
        (∃ m, raiseMmu m (nextPc s src.isLong) s = .next t)) := by
  unfold aluOp at h
  split at h
  · cases h
  · rename_i hrd
    refine ⟨hrd, ?_⟩
    rcases orRaise_next h with ⟨b, _, h⟩ | ⟨m, _, h⟩
    · cases h
      exact .inl ⟨b, rfl⟩
    · exact .inr ⟨m, h⟩

/-- A division with a readable operand. -/
theorem divideOp_ready {f : Word → Word → AluOut} {rd : Reg} {src : Operand} {s : State}
    (hrd : rd ≠ .flag) (h : operandReadable s src = true) :
    divideOp f rd src s =
      if operandValue s src = 0 then raiseZeroDivide (nextPc s src.isLong) s
      else
        .next ((writeReg (applyFlags (f (readReg s rd) (operandValue s src)) s) rd
          (f (readReg s rd) (operandValue s src)).result).withPc (nextPc s src.isLong)) := by
  simp [divideOp, hrd, readOperand_ready h]

/-- Everything a division can do. -/
theorem divideOp_next {f : Word → Word → AluOut} {rd : Reg} {src : Operand} {s t : State}
    (h : divideOp f rd src s = .next t) :
    rd ≠ .flag ∧
      ((∃ b, t = ((writeReg (applyFlags (f (readReg s rd) b) s) rd (f (readReg s rd) b).result).withPc
          (nextPc s src.isLong))) ∨
        raiseZeroDivide (nextPc s src.isLong) s = .next t ∨
        (∃ m, raiseMmu m (nextPc s src.isLong) s = .next t)) := by
  unfold divideOp at h
  split at h
  · cases h
  · rename_i hrd
    refine ⟨hrd, ?_⟩
    rcases orRaise_next h with ⟨b, _, h⟩ | ⟨m, _, h⟩
    · simp only at h
      split at h
      · exact .inr (.inl h)
      · cases h
        exact .inl ⟨b, rfl⟩
    · exact .inr (.inr ⟨m, h⟩)

/-- Where the word below the stack pointer in use is writable, a push writes it. -/
theorem pushWord_ready {s : State} {v : Word} (h : wordWritable s (readReg s .sp - 2) = true) :
    pushWord s v = .ok (writeReg (putWord s (readReg s .sp - 2) v) .sp (readReg s .sp - 2)) := by
  simp only [pushWord, writeWord_ready v h]

/-- Where the word at the stack pointer in use is readable, a pop reads it. -/
theorem popWord_ready {s : State} (h : wordReadable s (readReg s .sp) = true) :
    popWord s = .ok (wordAt s (readReg s .sp), writeReg s .sp (readReg s .sp + 2)) := by
  simp only [popWord, readWord_ready .read h]

end Sys2Proof.Machine
end

