-- ==== Sys2Proof/Laws/Devices.lean ====
section
/-! SUPPORT. The I/O space: IN and OUT at a defined port, the table of the ports, and what a read answers and changes. -/

namespace Sys2Proof.Machine

theorem ioAllowed_iff (f : Flag) : ioAllowed f = true ↔ f.p = true ∨ f.i = true := by
  simp [ioAllowed]

theorem portOk_iff {s : State} {p : Port} : portOk (portAddr s p) = true ↔ portDefined s p := by
  simp [portOk, portDefined, isOdd_eq]

/-- OUT at a defined port. -/
theorem execOut_ready {rd : Reg} {p : Port} {s : State} (h1 : ioAllowed s.flag = true)
    (h2 : portOk (portAddr s p) = true) :
    exec (.outPort rd p) s = .next ((ioWrite s (portAddr s p) (readReg s rd)).withPc (nextPc s p.isLong)) := by
  simp [exec, execOut, h1, h2]

/-- IN at a defined port. -/
theorem execIn_ready {rd : Reg} {p : Port} {s : State} (h1 : ioAllowed s.flag = true)
    (h2 : portOk (portAddr s p) = true) :
    exec (.inPort rd p) s =
      .next ((writeReg (ioRead s (portAddr s p)).2 rd (ioRead s (portAddr s p)).1).withPc (nextPc s p.isLong)) := by
  simp [exec, execIn, h1, h2]

/-- What `portRead` says of a port agrees with the layouts of `portBits` and the addresses of R56, R58, R247 and R251. -/
def portReadFits (n : Nat) : PortRead → Bool
  | .drawn m => m &&& ~~~portBits n == 0
  | .zero => true
  | .sdStat => portBits n == 0x00C1 && n == 0x10
  | .rn4020Ram => portBits n == 0x00FF && n == 0x2E
  | .tlbHigh k => portBits n == 0x00FF && n == 0x80 + 4 * k && decide (k < 8)
  | .tlbLow k => portBits n == 0xFFFF && n == 0x82 + 4 * k && decide (k < 8)
  | .violAddr => portBits n == 0xFFFF && n == 0xA2
  | .mmuCause => portBits n == 0xFFFF && n == 0xA4
  | .mmuPage => portBits n == 0x00FF && n == 0xA6

set_option maxRecDepth 20000 in
theorem portRead_fits : ∀ n : Fin 256, n.val % 2 = 0 → portReadFits n.val (portRead n.val) = true := by
  decide

theorem portRead_rn4020Ram : portRead 0x2E = .rn4020Ram := rfl

theorem portRead_tlbHigh : ∀ n : Fin 8, portRead (0x80 + 4 * n.val) = .tlbHigh n.val := by
  decide

theorem portRead_tlbLow : ∀ n : Fin 8, portRead (0x82 + 4 * n.val) = .tlbLow n.val := by
  decide

theorem portRead_mmu : portRead 0xA2 = .violAddr ∧ portRead 0xA4 = .mmuCause ∧ portRead 0xA6 = .mmuPage :=
  ⟨rfl, rfl, rfl⟩

theorem tlbEntry_fin (s : State) (n : Fin 8) : tlbEntry s n.val = s.mmu.tlb[n] := by
  simp [tlbEntry, n.isLt]

theorem afterMmuRead_fields (p : Word) (m : Mmu) :
    (afterMmuRead p m).on = m.on ∧ (afterMmuRead p m).ctl = m.ctl ∧ (afterMmuRead p m).tlb = m.tlb := by
  unfold afterMmuRead
  split
  · split <;> exact ⟨rfl, rfl, rfl⟩
  · exact ⟨rfl, rfl, rfl⟩

section
variable (s : State) (p : Word)

@[simp] theorem ioRead_regs : (ioRead s p).2.regs = s.regs := by unfold ioRead; simp only; split <;> rfl
@[simp] theorem ioRead_flag : (ioRead s p).2.flag = s.flag := by unfold ioRead; simp only; split <;> rfl
@[simp] theorem ioRead_pc : (ioRead s p).2.pc = s.pc := by unfold ioRead; simp only; split <;> rfl
@[simp] theorem ioRead_mem : (ioRead s p).2.mem = s.mem := by unfold ioRead; simp only; split <;> rfl
@[simp] theorem ioRead_ipl : (ioRead s p).2.ipl = s.ipl := by unfold ioRead; simp only; split <;> rfl
@[simp] theorem ioRead_halted : (ioRead s p).2.halted = s.halted := by unfold ioRead; simp only; split <;> rfl
@[simp] theorem ioRead_pending : (ioRead s p).2.pending = s.pending := by unfold ioRead; simp only; split <;> rfl
@[simp] theorem ioRead_ioLog : (ioRead s p).2.ioLog = s.ioLog := by unfold ioRead; simp only; split <;> rfl

@[simp] theorem ioRead_mmu_on : (ioRead s p).2.mmu.on = s.mmu.on := by
  unfold ioRead
  simp only
  split <;> first | rfl | exact (afterMmuRead_fields _ _).1

@[simp] theorem ioRead_mmu_ctl : (ioRead s p).2.mmu.ctl = s.mmu.ctl := by
  unfold ioRead
  simp only
  split <;> first | rfl | exact (afterMmuRead_fields _ _).2.1

@[simp] theorem ioRead_mmu_tlb : (ioRead s p).2.mmu.tlb = s.mmu.tlb := by
  unfold ioRead
  simp only
  split <;> first | rfl | exact (afterMmuRead_fields _ _).2.2

/-- A read may end a microSD transfer and changes no other device register. -/
theorem ioRead_dev : (ioRead s p).2.dev = { s.dev with sdBusy := (ioRead s p).2.dev.sdBusy } := by
  unfold ioRead
  simp only
  split <;> rfl

variable {s p}

/-- A read ends a microSD transfer at port 10h alone. -/
theorem ioRead_dev_ne (h : portOk p = true) (hp : p.toNat ≠ 0x10) : (ioRead s p).2.dev = s.dev := by
  simp only [portOk, isOdd_eq, Bool.and_eq_true, decide_eq_true_eq, Bool.not_eq_true', decide_eq_false_iff_not] at h
  have hc := portRead_fits ⟨p.toNat, by omega⟩ (by simp only; omega)
  simp only at hc
  unfold ioRead
  simp only
  split <;> rename_i hq <;> (try rfl)
  rw [hq] at hc
  simp [portReadFits] at hc
  exact absurd hc.2 hp

/-- A read of a port that is none of A2h, A4h and A6h leaves the MMU registers. -/
theorem ioRead_mmu_ne (h : portOk p = true) (hp : p.toNat < 0xA2 ∨ 0xA6 < p.toNat) :
    (ioRead s p).2.mmu = s.mmu := by
  simp only [portOk, isOdd_eq, Bool.and_eq_true, decide_eq_true_eq, Bool.not_eq_true', decide_eq_false_iff_not] at h
  have hc := portRead_fits ⟨p.toNat, by omega⟩ (by simp only; omega)
  simp only at hc
  unfold ioRead
  simp only
  split <;> rename_i hq <;> (try rfl) <;> rw [hq] at hc <;> simp [portReadFits] at hc <;> omega

end

/-- The fields of the lower word of a TLB entry (R57). -/
theorem tlbLowWord_bits (t : TlbEntry) (f : Word) :
    (tlbLowWord t f).getLsbD 15 = t.valid ∧ (tlbLowWord t f).getLsbD 12 = t.referenced ∧
    (tlbLowWord t f).getLsbD 11 = t.dirty ∧ (tlbLowWord t f).getLsbD 10 = t.canRead ∧
    (tlbLowWord t f).getLsbD 9 = t.canWrite ∧ (tlbLowWord t f).getLsbD 8 = t.canExec ∧
    loByte (tlbLowWord t f) = t.frame := by
  refine ⟨?_, ?_, ?_, ?_, ?_, ?_, ?_⟩
  case refine_7 =>
    apply BitVec.eq_of_getLsbD_eq
    intro i hi
    simp only [loByte, BitVec.getLsbD_extractLsb', hi, decide_true, Bool.true_and, Nat.zero_add, tlbLowWord,
      BitVec.getLsbD_append, if_true]
  all_goals
    simp only [tlbLowWord, BitVec.getLsbD_append, BitVec.getLsbD_ofBool]
    simp

theorem mmuCauseWord_bits (m : Mmu) (f : Word) :
    (mmuCauseWord m f).getLsbD 1 = m.badAddr ∧ (mmuCauseWord m f).getLsbD 0 = m.memVio := by
  constructor <;> simp only [mmuCauseWord, BitVec.getLsbD_append, BitVec.getLsbD_ofBool] <;> simp

theorem zextByte_loByte (v : Word) : zextByte (loByte v) = v &&& 0x00FF := by
  apply BitVec.eq_of_toNat_eq
  have : (0x00FF : Word).toNat = 2 ^ 8 - 1 := by decide
  rw [BitVec.toNat_and, this, Nat.and_two_pow_sub_one_eq_mod]
  simp [zextByte, loByte]
  omega

end Sys2Proof.Machine
end

