-- ==== Sys2Proof/Laws/PerInstr.lean ====
section
/-! SUPPORT. A family of statements with one lemma for each instruction: an instruction is encoded in one or two words, two
exactly when it has a second word (R73). -/

namespace Sys2Proof.Laws.EncodedLength

open Sys2Proof

/-- The encoding of the instruction has two words if it is long, else one. -/
def Statement (i : Instr) : Prop := (encode i).length = if i.isLong then 2 else 1

theorem operand (base : Byte) (rd : Reg) (src : Operand) :
    (encodeOperand base rd src).length = if src.isLong then 2 else 1 := by
  rcases src with m | _ | _ | _ <;> (try rfl)
  cases m <;> rfl

theorem memForm (base : Byte) (rd : Reg) (m : MemForm) :
    (encodeMem base rd m).length = if m.isLong then 2 else 1 := by
  cases m <;> rfl

theorem port (base : Byte) (rd : Reg) (p : Port) : (encodePort base rd p).length = if p.isLong then 2 else 1 := by
  cases p <;> rfl

theorem target (base : Byte) (code : Nibble) (t : Target) : (encodeTarget base code t).length = 2 := by
  cases t <;> rfl

theorem no : Statement (.no) := rfl

theorem ld (rd : Reg) (src : Operand) : Statement (.ld rd src) := operand _ _ _

theorem st (rd : Reg) (m : MemForm) : Statement (.st rd m) := memForm _ _ _

theorem add (rd : Reg) (src : Operand) : Statement (.add rd src) := operand _ _ _

theorem sub (rd : Reg) (src : Operand) : Statement (.sub rd src) := operand _ _ _

theorem cmp (rd : Reg) (src : Operand) : Statement (.cmp rd src) := operand _ _ _

theorem and (rd : Reg) (src : Operand) : Statement (.and rd src) := operand _ _ _

theorem or (rd : Reg) (src : Operand) : Statement (.or rd src) := operand _ _ _

theorem xor (rd : Reg) (src : Operand) : Statement (.xor rd src) := operand _ _ _

theorem adds (rd : Reg) (src : Operand) : Statement (.adds rd src) := operand _ _ _

theorem mul (rd : Reg) (src : Operand) : Statement (.mul rd src) := operand _ _ _

theorem div (rd : Reg) (src : Operand) : Statement (.div rd src) := operand _ _ _

theorem mod (rd : Reg) (src : Operand) : Statement (.mod rd src) := operand _ _ _

theorem shla (rd : Reg) (src : Operand) : Statement (.shla rd src) := operand _ _ _

theorem shll (rd : Reg) (src : Operand) : Statement (.shll rd src) := operand _ _ _

theorem shra (rd : Reg) (src : Operand) : Statement (.shra rd src) := operand _ _ _

theorem shrl (rd : Reg) (src : Operand) : Statement (.shrl rd src) := operand _ _ _

theorem jz (t : Target) : Statement (.jz t) := target _ _ _

theorem jc (t : Target) : Statement (.jc t) := target _ _ _

theorem jm (t : Target) : Statement (.jm t) := target _ _ _

theorem jo (t : Target) : Statement (.jo t) := target _ _ _

theorem jgt (t : Target) : Statement (.jgt t) := target _ _ _

theorem jge (t : Target) : Statement (.jge t) := target _ _ _

theorem jle (t : Target) : Statement (.jle t) := target _ _ _

theorem jlt (t : Target) : Statement (.jlt t) := target _ _ _

theorem jnz (t : Target) : Statement (.jnz t) := target _ _ _

theorem jnc (t : Target) : Statement (.jnc t) := target _ _ _

theorem jnm (t : Target) : Statement (.jnm t) := target _ _ _

theorem jno (t : Target) : Statement (.jno t) := target _ _ _

theorem jhi (t : Target) : Statement (.jhi t) := target _ _ _

theorem jls (t : Target) : Statement (.jls t) := target _ _ _

theorem jmp (t : Target) : Statement (.jmp t) := target _ _ _

theorem call (t : Target) : Statement (.call t) := target _ _ _

theorem inPort (rd : Reg) (p : Port) : Statement (.inPort rd p) := port _ _ _

theorem outPort (rd : Reg) (p : Port) : Statement (.outPort rd p) := port _ _ _

theorem push (rd : Reg) : Statement (.push rd) := rfl

theorem pop (rd : Reg) : Statement (.pop rd) := rfl

theorem ret : Statement (.ret) := rfl

theorem reti : Statement (.reti) := rfl

theorem svc : Statement (.svc) := rfl

theorem halt : Statement (.halt) := rfl

end Sys2Proof.Laws.EncodedLength
end

