-- ==== Sys2Proof/Laws/Step.lean ====
section
/-! SUPPORT. The step, once: what comes before an instruction, and everything an instruction and a step can do at all. The
invariants of every step are case analyses over `exec_next` and `step_next`. -/

namespace Sys2Proof.Machine

/-! The microSD controller's writes. -/

theorem dmaOntoIpl_idle {s : State} (h : s.dev.sdBusy = false) : dmaOntoIpl s = false := by
  simp [dmaOntoIpl, h]

/-- With the IPL detached no write reaches it. -/
theorem dmaOntoIpl_detached {s : State} (h : s.ipl.attached = false) : dmaOntoIpl s = false := by
  simp [dmaOntoIpl, overlaid, overlayByte, h]

theorem dmaOntoIpl_iff (s : State) :
    dmaOntoIpl s = true ↔ s.dev.sdBusy = true ∧ ∃ w ∈ Config.dmaWrites s.draws, overlaid s w.1 = true := by
  simp only [dmaOntoIpl, Bool.and_eq_true, List.any_eq_true]

theorem dmaTick_idle {s : State} (h : s.dev.sdBusy = false) : dmaTick s = s := by
  simp [dmaTick, h]

section
variable (s : State)

@[simp] theorem dmaTick_regs : (dmaTick s).regs = s.regs := by unfold dmaTick; split <;> rfl
@[simp] theorem dmaTick_flag : (dmaTick s).flag = s.flag := by unfold dmaTick; split <;> rfl
@[simp] theorem dmaTick_pc : (dmaTick s).pc = s.pc := by unfold dmaTick; split <;> rfl
@[simp] theorem dmaTick_ipl : (dmaTick s).ipl = s.ipl := by unfold dmaTick; split <;> rfl
@[simp] theorem dmaTick_halted : (dmaTick s).halted = s.halted := by unfold dmaTick; split <;> rfl
@[simp] theorem dmaTick_pending : (dmaTick s).pending = s.pending := by unfold dmaTick; split <;> rfl
@[simp] theorem dmaTick_mmu : (dmaTick s).mmu = s.mmu := by unfold dmaTick; split <;> rfl
@[simp] theorem dmaTick_dev : (dmaTick s).dev = s.dev := by unfold dmaTick; split <;> rfl
@[simp] theorem dmaTick_ioLog : (dmaTick s).ioLog = s.ioLog := by unfold dmaTick; split <;> rfl

end

theorem dmaTick_mem_wf {s : State} (h : Memory.wf s.mem = true) : Memory.wf (dmaTick s).mem = true := by
  unfold dmaTick
  split
  · exact Memory.wf_writeAll _ h
  · exact h

/-! Interrupts. -/

/-- Whether an interrupt is ready depends on FLAG, the device registers and the request lines alone. -/
theorem anyIrqReady_congr {s t : State} (h1 : t.flag = s.flag) (h2 : t.dev = s.dev) (h3 : t.pending = s.pending) :
    anyIrqReady t = anyIrqReady s := by
  simp only [anyIrqReady, h1]
  congr 2
  funext q
  simp [irqReady, h1, h2, h3]

theorem mayInterrupt_iff (s : State) (q : Irq) : mayInterrupt s q ↔ irqReady s q = true := by
  cases q <;> simp [mayInterrupt, irqReady, irqEnabled, and_comm, and_left_comm]

theorem anyIrqReady_iff (s : State) : anyIrqReady s = true ↔ ∃ q, mayInterrupt s q := by
  simp only [mayInterrupt_iff, anyIrqReady, Bool.and_eq_true, List.any_eq_true]
  constructor
  · rintro ⟨_, q, _, h⟩
    exact ⟨q, h⟩
  · rintro ⟨q, h⟩
    refine ⟨by simp [irqReady] at h; exact h.1.1, q, by cases q <;> simp [allIrqs], h⟩

/-! What a step comes to. -/

/-- The microSD controller's writes reaching the attached IPL end the step. -/
theorem step_dmaOntoIpl {s : State} (h : dmaOntoIpl s = true) : step s = .fault .iplWrite := by
  simp only [step, nextAction, h, if_true]

theorem nextAction_clear {s : State} (h : dmaOntoIpl s = false) : nextAction s = boundary (dmaTick s) := by
  simp only [nextAction, h, Bool.false_eq_true, if_false]

/-! The fetch. -/

/-- A readable first word that decoding rejects. -/
theorem fetchInstr_reject {s : State} {r : Reject} (h : wordReadable s s.pc = true)
    (hd : decodeFirst (wordAt s s.pc) = .error r) : fetchInstr s = .done (onReject r s) := by
  simp [fetchInstr, readWord_ready .fetch h, hd]

/-- Readable words that decode to an instruction run it; the refusal of R121 is the instruction's own. -/
theorem fetchInstr_run {s : State} {i : Instr} (h : wordReadable s s.pc = true)
    (hd : decode (wordAt s s.pc) (wordAt s (s.pc + 2)) = .ok i) : runAction (fetchInstr s) = exec i s := by
  obtain ⟨h1, h2⟩ := wordReadable_iff.1 h
  have h' : wordReadable s (s.pc + 2) = true := wordReadable_iff.2 ⟨h1, by rw [isOdd_add_two, h2]⟩
  cases hf : decodeFirst (wordAt s s.pc) with
  | error r => simp [decode, hf] at hd
  | ok f =>
    cases f with
    | complete j =>
      simp only [decode, hf, Except.ok.injEq] at hd
      simp only [fetchInstr, readWord_ready .fetch h, hf, hd, runAction]
    | needsSecond finish =>
      simp only [decode, hf, Except.ok.injEq] at hd
      simp only [fetchInstr, readWord_ready .fetch h, readWord_ready .fetch h', hf, hd]
      split
      · rename_i hr
        rw [exec_flagDestination (hd ▸ (refusesFlag_iff hf _).1 hr) s]
        rfl
      · rfl

/-- A running CPU with no interrupt ready goes straight to the fetch, after the microSD controller's writes. -/
theorem step_quiet {s : State} (h1 : s.halted = false) (h2 : anyIrqReady s = false) :
    step s = if dmaOntoIpl s then .fault .iplWrite else runAction (fetchInstr (dmaTick s)) := by
  have h3 : anyIrqReady (dmaTick s) = false := (anyIrqReady_congr (by simp) (by simp) (by simp)).trans h2
  cases h4 : dmaOntoIpl s with
  | true => exact step_dmaOntoIpl h4
  | false =>
    simp only [step, nextAction_clear h4, boundary, dmaTick_halted, h1, h3, Bool.false_eq_true, if_false]
    cases fetchInstr (dmaTick s) <;> rfl

/-! Everything an instruction can do. -/

/-- `t` is a state an instruction run in `s` can leave: one constructor for each thing an instruction can come to. -/
inductive InstrEffect (s : State) : Instr → State → Prop
  /-- A trap entry; an MMU exception has recorded its cause first. -/
  | entry (i : Instr) (page : Byte) (violAddr : Word) (badAddr memVio : Bool) (pa pb spc handler : Word) :
      InstrEffect s i
        ((entryPushed pa pb spc
          (s.withMmu { s.mmu with page := page, violAddr := violAddr, badAddr := badAddr, memVio := memVio })).withPc
            handler)
  | move (i : Instr) (pc : Word) : InstrEffect s i (s.withPc pc)
  | load (rd : Reg) (src : Operand) (v pc : Word) : InstrEffect s (.ld rd src) ((writeReg s rd v).withPc pc)
  | storeByte (i : Instr) (pa : Word) (b : Byte) (pc : Word) : InstrEffect s i ((putByte s pa b).withPc pc)
  | storeWord (i : Instr) (pa v pc : Word) : InstrEffect s i ((putWord s pa v).withPc pc)
  | flags (i : Instr) (o : AluOut) (pc : Word) (h : i.flagChangingRd ≠ none) : InstrEffect s i ((applyFlags o s).withPc pc)
  | compute (i : Instr) (o : AluOut) (rd : Reg) (v pc : Word) (hi : i.flagChangingRd ≠ none) (h : rd ≠ .flag) :
      InstrEffect s i ((writeReg (applyFlags o s) rd v).withPc pc)
  | push (i : Instr) (pa v sp pc : Word) : InstrEffect s i ((writeReg (putWord s pa v) .sp sp).withPc pc)
  | pop (rd : Reg) (v sp pc : Word) : InstrEffect s (.pop rd) ((writeReg (writeReg s .sp sp) rd v).withPc pc)
  | ret (sp pc : Word) : InstrEffect s .ret ((writeReg s .sp sp).withPc pc)
  | reti (sp f pc : Word) :
      InstrEffect s .reti (((writeReg s .sp sp).withFlag (writeFlag s.flag f)).withPc pc)
  | input (rd : Reg) (p : Port) (pc : Word) (h : ioAllowed s.flag = true) (hp : portOk (portAddr s p) = true) :
      InstrEffect s (.inPort rd p)
        ((writeReg (ioRead s (portAddr s p)).2 rd (ioRead s (portAddr s p)).1).withPc pc)
  | output (rd : Reg) (p : Port) (pc : Word) (h : ioAllowed s.flag = true) (hp : portOk (portAddr s p) = true) :
      InstrEffect s (.outPort rd p) ((ioWrite s (portAddr s p) (readReg s rd)).withPc pc)
  | halt (h : s.flag.p = true) : InstrEffect s .halt ((s.withPc (s.pc + 2)).withHalted true)

theorem instrEffect_trap {cause : Cause} {spc : Word} {s t : State} (i : Instr) (h : trapEntry cause spc s = .next t) :
    InstrEffect s i t := by
  obtain ⟨pa, pb, handler, rfl⟩ := trapEntry_next h
  exact .entry i s.mmu.page s.mmu.violAddr s.mmu.badAddr s.mmu.memVio pa pb spc handler

theorem instrEffect_mmu {m : MmuTrap} {pcn : Word} {s t : State} (i : Instr) (h : raiseMmu m pcn s = .next t) :
    InstrEffect s i t := by
  unfold raiseMmu at h
  obtain ⟨pa, pb, handler, rfl⟩ := trapEntry_next h
  cases m with
  | tlbMiss page => exact .entry i page s.mmu.violAddr s.mmu.badAddr s.mmu.memVio pa pb _ handler
  | violation a bad vio => exact .entry i s.mmu.page a bad vio pa pb _ handler

theorem instrEffect_alu {f : Word → Word → AluOut} {store : Bool} {rd : Reg} {src : Operand} {s t : State} {i : Instr}
    (hi : i.flagChangingRd ≠ none) (h : aluOp f store rd src s = .next t) : InstrEffect s i t := by
  obtain ⟨hrd, ⟨b, rfl⟩ | ⟨m, h⟩⟩ := aluOp_next h
  · cases store
    · exact .flags i _ _ hi
    · exact .compute i _ rd _ _ hi hrd
  · exact instrEffect_mmu i h

theorem instrEffect_divide {f : Word → Word → AluOut} {rd : Reg} {src : Operand} {s t : State} {i : Instr}
    (hi : i.flagChangingRd ≠ none) (h : divideOp f rd src s = .next t) : InstrEffect s i t := by
  obtain ⟨hrd, ⟨b, rfl⟩ | h | ⟨m, h⟩⟩ := divideOp_next h
  · exact .compute i _ rd _ _ hi hrd
  · exact instrEffect_trap i h
  · exact instrEffect_mmu i h

theorem instrEffect_jump {cond : Flag → Bool} {tg : Target} {s t : State} {i : Instr}
    (h : jumpIf cond tg s = .next t) : InstrEffect s i t := by
  cases h
  exact .move i _

theorem execLd_next {rd : Reg} {src : Operand} {s t : State} (h : execLd rd src s = .next t) :
    InstrEffect s (.ld rd src) t := by
  rcases orRaise_next h with ⟨v, _, h⟩ | ⟨m, _, h⟩
  · cases h
    exact .load rd src v _
  · exact instrEffect_mmu _ h

theorem execSt_next {rd : Reg} {m : MemForm} {s t : State} (h : execSt rd m s = .next t) :
    InstrEffect s (.st rd m) t := by
  rcases orRaise_next h with ⟨s', hs, h⟩ | ⟨m, _, h⟩
  · cases h
    obtain ⟨pa, rfl | rfl⟩ := storeForm_ok hs
    · exact .storeByte _ pa _ _
    · exact .storeWord _ pa _ _
  · exact instrEffect_mmu _ h

theorem execCall_next {tg : Target} {s t : State} (h : execCall tg s = .next t) : InstrEffect s (.call tg) t := by
  rcases orRaise_next h with ⟨s', hs, h⟩ | ⟨m, _, h⟩
  · cases h
    obtain ⟨pa, rfl⟩ := pushWord_ok hs
    exact .push _ pa _ _ _
  · exact instrEffect_mmu _ h

theorem execPush_next {rd : Reg} {s t : State} (h : execPush rd s = .next t) : InstrEffect s (.push rd) t := by
  unfold execPush at h
  split at h
  · cases h
  · rcases orRaise_next h with ⟨s', hs, h⟩ | ⟨m, _, h⟩
    · cases h
      obtain ⟨pa, rfl⟩ := pushWord_ok hs
      exact .push _ pa _ _ _
    · exact instrEffect_mmu _ h

theorem execPop_next {rd : Reg} {s t : State} (h : execPop rd s = .next t) : InstrEffect s (.pop rd) t := by
  unfold execPop at h
  split at h
  · cases h
  · rcases orRaise_next h with ⟨r, hr, h⟩ | ⟨m, _, h⟩
    · cases h
      rw [popWord_ok hr]
      exact .pop rd _ _ _
    · exact instrEffect_mmu _ h

theorem execRet_next {s t : State} (h : execRet s = .next t) : InstrEffect s .ret t := by
  rcases orRaise_next h with ⟨r, hr, h⟩ | ⟨m, _, h⟩
  · cases h
    rw [popWord_ok hr]
    exact .ret _ _
  · exact instrEffect_mmu _ h

theorem execReti_next {s t : State} (h : execReti s = .next t) : InstrEffect s .reti t := by
  obtain ⟨f, npc, rfl⟩ | ⟨m, h⟩ := returnFromTrap_next h
  · exact .reti _ f npc
  · exact instrEffect_mmu _ h

theorem execIn_next {rd : Reg} {p : Port} {s t : State} (h : execIn rd p s = .next t) :
    InstrEffect s (.inPort rd p) t := by
  unfold execIn at h
  split at h
  · rename_i h1
    simp only at h
    split at h
    · rename_i h2
      cases h
      exact .input rd p _ h1 h2
    · cases h
  · exact instrEffect_trap _ h

theorem execOut_next {rd : Reg} {p : Port} {s t : State} (h : execOut rd p s = .next t) :
    InstrEffect s (.outPort rd p) t := by
  unfold execOut at h
  split at h
  · rename_i h1
    simp only at h
    split at h
    · rename_i h2
      cases h
      exact .output rd p _ h1 h2
    · cases h
  · exact instrEffect_trap _ h

theorem execHalt_next {s t : State} (h : execHalt s = .next t) : InstrEffect s .halt t := by
  unfold execHalt at h
  split at h
  · rename_i hp
    cases h
    exact .halt hp
  · exact instrEffect_trap _ h

/-- Everything an instruction can do. -/
theorem exec_next {i : Instr} {s t : State} (h : exec i s = .next t) : InstrEffect s i t := by
  cases i with
  | no => cases h; exact .move _ _
  | ld rd src => exact execLd_next h
  | st rd m => exact execSt_next h
  | add _ _ | sub _ _ | cmp _ _ | and _ _ | or _ _ | xor _ _ | adds _ _ | mul _ _ | shla _ _ | shll _ _ | shra _ _
  | shrl _ _ => exact instrEffect_alu (by simp [Instr.flagChangingRd]) h
  | div _ _ | mod _ _ => exact instrEffect_divide (by simp [Instr.flagChangingRd]) h
  | jz _ | jc _ | jm _ | jo _ | jgt _ | jge _ | jle _ | jlt _ | jnz _ | jnc _ | jnm _ | jno _ | jhi _ | jls _ | jmp _ =>
    exact instrEffect_jump h
  | call _ => exact execCall_next h
  | inPort _ _ => exact execIn_next h
  | outPort _ _ => exact execOut_next h
  | push _ => exact execPush_next h
  | pop _ => exact execPop_next h
  | ret => exact execRet_next h
  | reti => exact execReti_next h
  | svc => exact instrEffect_trap _ h
  | halt => exact execHalt_next h

/-! Everything a step can do. -/

/-- `s'` is `s` after the microSD controller's writes and, at a boundary with an interrupt ready, one draw. -/
def atBoundary (s s' : State) : Prop := s' = dmaTick s ∨ s' = afterDraw (dmaTick s)

/-- A step leaves the halted CPU where it is, or takes a trap of the boundary or the fetch, or runs an instruction. -/
inductive StepEffect (s t : State) : Prop
  | stopped (h : s.halted = true) (ht : t = dmaTick s)
  | entry (i : Instr) (s' : State) (hr : s.halted = false) (hs : atBoundary s s') (he : InstrEffect s' i t)
      (hp : t.flag.p = true) (ht : t.halted = false)
  | run (i : Instr) (s' : State) (hr : s.halted = false) (hs : atBoundary s s') (ha : nextAction s = .run i s')
      (hi : exec i s' = .next t) (he : InstrEffect s' i t)

theorem fetchInstr_state {s s' : State} {i : Instr} (h : fetchInstr s = .run i s') : s' = s := by
  unfold fetchInstr at h
  split at h
  · cases h
  · cases h
  · split at h
    · cases h
    · cases h
      rfl
    · split at h
      · cases h
      · split at h <;> cases h
        rfl

/-- A fetch that ends in a next state by itself has taken a trap. -/
theorem fetchInstr_done {s t : State} (h : fetchInstr s = .done (.next t)) :
    ∃ cause spc x, trapEntry cause spc (s.withMmu x) = .next t ∧ InstrEffect s .no t := by
  have raised : ∀ m pcn, raiseMmu m pcn s = .next t →
      ∃ cause spc x, trapEntry cause spc (s.withMmu x) = .next t ∧ InstrEffect s .no t := by
    intro m pcn hm
    refine ⟨mmuCause m, savedPcOther s.pc pcn, (recordMmu m s).mmu, ?_, instrEffect_mmu _ hm⟩
    cases m <;> exact hm
  unfold fetchInstr at h
  split at h
  · cases h
  · exact raised _ _ (by injection h)
  · split at h
    · rename_i r _
      have hr : onReject r s = .next t := by injection h
      cases r with
      | undefinedOpcode => exact ⟨_, _, s.mmu, hr, instrEffect_trap _ hr⟩
      | reservedField => cases hr
      | jumpCondition => cases hr
      | contestedOpcode => cases hr
    · cases h
    · split at h
      · cases h
      · split at h
        · cases h
        · exact raised _ _ (by injection h)
        · cases h

theorem trapEntry_flags {cause : Cause} {spc : Word} {s t : State} (h : trapEntry cause spc s = .next t) :
    t.flag.p = true ∧ t.halted = s.halted := by
  obtain ⟨pa, pb, handler, rfl⟩ := trapEntry_next h
  exact ⟨rfl, rfl⟩

/-- Everything a step can do. -/
theorem step_next {s t : State} (h : step s = .next t) : StepEffect s t := by
  have hclear : nextAction s = boundary (dmaTick s) := by
    cases hd : dmaOntoIpl s with
    | false => exact nextAction_clear hd
    | true =>
      rw [step_dmaOntoIpl hd] at h
      cases h
  have fetched : ∀ s', s.halted = false → atBoundary s s' → nextAction s = fetchInstr s' → StepEffect s t := by
    intro s' hr hb hn
    have hh : s'.halted = false := by
      rcases hb with rfl | rfl
      · simpa using hr
      · simpa [afterDraw] using hr
    unfold step at h
    cases hf : fetchInstr s' with
    | done r =>
      rw [hn, hf] at h
      change r = .next t at h
      subst h
      obtain ⟨cause, spc, x, ht, he⟩ := fetchInstr_done hf
      obtain ⟨hp, hq⟩ := trapEntry_flags ht
      exact .entry .no s' hr hb he hp (hq.trans hh)
    | run i s1 =>
      have := fetchInstr_state hf
      subst this
      rw [hn, hf] at h
      exact .run i s1 hr hb (hn.trans hf) h (exec_next h)
  cases hr : s.halted with
  | true =>
    have hn : nextAction s = .done (.next (dmaTick s)) := by simp [hclear, boundary, hr]
    unfold step at h
    rw [hn] at h
    cases h
    exact .stopped hr rfl
  | false =>
    cases hi : anyIrqReady (dmaTick s) with
    | false => exact fetched _ hr (.inl rfl) (by simp [hclear, boundary, hr, hi])
    | true =>
      cases hq : irqTaken (dmaTick s) with
      | none => exact fetched _ hr (.inr rfl) (by simp [hclear, boundary, hr, hi, hq])
      | some q =>
        have hn : nextAction s = .done (trapEntry (.irq q) (dmaTick s).pc (afterDraw (dmaTick s))) := by
          simp [hclear, boundary, hr, hi, hq]
        unfold step at h
        rw [hn] at h
        obtain ⟨hp, ht⟩ := trapEntry_flags h
        exact .entry .no _ hr (.inr rfl) (instrEffect_trap _ h) hp (ht.trans (by simpa [afterDraw] using hr))

end Sys2Proof.Machine
end

