-- ==== Sys2Proof/Tests/Slice0.lean ====
section
/-! SUPPORT. The model's own tests: the well-formedness checks, decoding of words written out from the spec's
  encodings, one
or two single steps per instruction, and a state that meets the hypotheses of each statement. Expected results are
  those of
spec/95_test_vectors.md (the section is named) or are worked out from the rule named. -/

namespace Sys2Proof.Tests

open Sys2Proof Sys2Proof.Machine

/-! Helpers. -/

/-- After reset, with the PC at 0100h and the system stack at 1000h. -/
def base : State :=
  { State.reset with
    pc := 0x0100
    regs := { Regs.reset with ssp := 0x1000, usp := 0x3000, fp := 0x0004 } }

/-- The same in user mode, with U set. -/
def user : State := base.withFlag { Flag.reset with p := false, u := true }

/-- G0 and G1 hold these words. -/
def two (a b : Word) : State := base.withRegs { base.regs with g0 := a, g1 := b }

/-- G2 holds this word. -/
def g2 (a : Word) (s : State) : State := s.withRegs { s.regs with g2 := a }

/-- FLAG is this word, as privileged code would write it. -/
def flags (v : Word) (s : State) : State := s.withFlag (writeFlag Flag.reset v)

/-- What `f` says of the next state, if there is one. -/
def after {α : Type} (r : Result) (f : State → α) : Option α :=
  match r with
  | .next t => some (f t)
  | .fault _ => none
  | .refused _ => none

/-- G0 and V, C, S, Z. -/
def g0vcsz (t : State) : Word × Bool × Bool × Bool × Bool := (t.regs.g0, t.flag.v, t.flag.c, t.flag.s, t.flag.z)

/-- G0 and S, Z: where V and C are draws. -/
def g0sz (t : State) : Word × Bool × Bool := (t.regs.g0, t.flag.s, t.flag.z)

/-- G0 and C, S, Z: a shift by one. -/
def g0csz (t : State) : Word × Bool × Bool × Bool := (t.regs.g0, t.flag.c, t.flag.s, t.flag.z)

/-! WellFormed refuses (R121, R181, R182). -/

theorem test_wf_flag_destination : WellFormed (.add .flag (.reg .g1)) = false := by decide
theorem test_wf_flag_divisor : WellFormed (.div .flag (.imm4 1)) = false := by decide
theorem test_wf_push_sp : WellFormed (.push .sp) = false := by decide
theorem test_wf_pop_sp : WellFormed (.pop .sp) = false := by decide
theorem test_wf_load_flag : WellFormed (.ld .flag (.imm 0)) = true := by decide

/-! Decoding, from the words of 95_test_vectors.md sections 1.2, 1.3 and 2.1 and the opcodes of R74. -/

theorem test_decode_no : decode 0x0000 0x0000 = .ok (.no) := by rfl
theorem test_decode_ld_direct : decode 0x0810 0x1234 = .ok (.ld .g1 (.mem (.direct 0x1234))) := by rfl
theorem test_decode_ld_indexed : decode 0x0912 0x0010 = .ok (.ld .g1 (.mem (.indexed 0x0010 .g2))) := by rfl
theorem test_decode_ld_immediate : decode 0x0A10 0x1234 = .ok (.ld .g1 (.imm 0x1234)) := by rfl
theorem test_decode_ld_fp_relative : decode 0x0B1F 0x0000 = .ok (.ld .g1 (.mem (.fpRel 0xF))) := by rfl
theorem test_decode_ld_register : decode 0x0C12 0x0000 = .ok (.ld .g1 (.reg .g2)) := by rfl
theorem test_decode_ld_imm4 : decode 0x0D18 0x0000 = .ok (.ld .g1 (.imm4 8)) := by rfl
theorem test_decode_ld_indirect : decode 0x0E12 0x0000 = .ok (.ld .g1 (.mem (.indirect .g2))) := by rfl
theorem test_decode_ld_byte : decode 0x0F12 0x0000 = .ok (.ld .g1 (.mem (.byteIndirect .g2))) := by rfl
theorem test_decode_st : decode 0x163D 0x0000 = .ok (.st .g3 (.indirect .sp)) := by rfl
theorem test_decode_add : decode 0x1C01 0x0000 = .ok (.add .g0 (.reg .g1)) := by rfl
theorem test_decode_sub : decode 0x2511 0x0000 = .ok (.sub .g1 (.imm4 1)) := by rfl
theorem test_decode_cmp : decode 0x2D00 0x0000 = .ok (.cmp .g0 (.imm4 0)) := by rfl
theorem test_decode_and : decode 0x34CD 0x0000 = .ok (.and .fp (.reg .sp)) := by rfl
theorem test_decode_or : decode 0x3CCD 0x0000 = .ok (.or .fp (.reg .sp)) := by rfl
theorem test_decode_xor : decode 0x44CD 0x0000 = .ok (.xor .fp (.reg .sp)) := by rfl
theorem test_decode_adds : decode 0x4CCD 0x0000 = .ok (.adds .fp (.reg .sp)) := by rfl
theorem test_decode_mul : decode 0x54CD 0x0000 = .ok (.mul .fp (.reg .sp)) := by rfl
theorem test_decode_div : decode 0x5CCD 0x0000 = .ok (.div .fp (.reg .sp)) := by rfl
theorem test_decode_mod : decode 0x64CD 0x0000 = .ok (.mod .fp (.reg .sp)) := by rfl
theorem test_decode_shla : decode 0x84CD 0x0000 = .ok (.shla .fp (.reg .sp)) := by rfl
theorem test_decode_shll : decode 0x8CCD 0x0000 = .ok (.shll .fp (.reg .sp)) := by rfl
theorem test_decode_shra : decode 0x94CD 0x0000 = .ok (.shra .fp (.reg .sp)) := by rfl
theorem test_decode_shrl : decode 0x9CCD 0x0000 = .ok (.shrl .fp (.reg .sp)) := by rfl
theorem test_decode_jz : decode 0xA000 0x0200 = .ok (.jz (.direct 0x0200)) := by rfl
theorem test_decode_jc : decode 0xA010 0x0200 = .ok (.jc (.direct 0x0200)) := by rfl
theorem test_decode_jm : decode 0xA020 0x0200 = .ok (.jm (.direct 0x0200)) := by rfl
theorem test_decode_jo : decode 0xA030 0x0200 = .ok (.jo (.direct 0x0200)) := by rfl
theorem test_decode_jgt : decode 0xA040 0x0200 = .ok (.jgt (.direct 0x0200)) := by rfl
theorem test_decode_jge : decode 0xA050 0x0200 = .ok (.jge (.direct 0x0200)) := by rfl
theorem test_decode_jle : decode 0xA060 0x0200 = .ok (.jle (.direct 0x0200)) := by rfl
theorem test_decode_jlt : decode 0xA070 0x0200 = .ok (.jlt (.direct 0x0200)) := by rfl
theorem test_decode_jnz : decode 0xA080 0x0200 = .ok (.jnz (.direct 0x0200)) := by rfl
theorem test_decode_jnc : decode 0xA090 0x0200 = .ok (.jnc (.direct 0x0200)) := by rfl
theorem test_decode_jnm : decode 0xA0A0 0x0200 = .ok (.jnm (.direct 0x0200)) := by rfl
theorem test_decode_jno : decode 0xA0B0 0x0200 = .ok (.jno (.direct 0x0200)) := by rfl
theorem test_decode_jhi : decode 0xA0C0 0x0200 = .ok (.jhi (.direct 0x0200)) := by rfl
theorem test_decode_jls : decode 0xA0E0 0x0200 = .ok (.jls (.direct 0x0200)) := by rfl
theorem test_decode_jmp : decode 0xA0F0 0x0200 = .ok (.jmp (.direct 0x0200)) := by rfl
theorem test_decode_jump_indexed : decode 0xA103 0x0010 = .ok (.jz (.indexed 0x0010 .g3)) := by rfl
theorem test_decode_call : decode 0xA800 0x0020 = .ok (.call (.direct 0x0020)) := by rfl
theorem test_decode_call_indexed : decode 0xA905 0x0000 = .ok (.call (.indexed 0 .g5)) := by rfl
theorem test_decode_in : decode 0xB000 0x001E = .ok (.inPort .g0 (.direct 0x001E)) := by rfl
theorem test_decode_in_indirect : decode 0xB601 0x0000 = .ok (.inPort .g0 (.indirect .g1)) := by rfl
theorem test_decode_out : decode 0xBE01 0x0000 = .ok (.outPort .g0 (.indirect .g1)) := by rfl
theorem test_decode_push : decode 0xC000 0x0000 = .ok (.push .g0) := by rfl
theorem test_decode_pop : decode 0xC4C0 0x0000 = .ok (.pop .fp) := by rfl
theorem test_decode_ret : decode 0xD000 0x0000 = .ok (.ret) := by rfl
theorem test_decode_reti : decode 0xD4F0 0x0000 = .ok (.reti) := by rfl
theorem test_decode_svc : decode 0xF000 0x0000 = .ok (.svc) := by rfl
theorem test_decode_halt : decode 0xFF00 0x0000 = .ok (.halt) := by rfl
theorem test_reject_empty_cell : decode 0x1234 0 = .error .undefinedOpcode := by rfl
theorem test_reject_empty_row : decode 0x6800 0 = .error .undefinedOpcode := by rfl
theorem test_reject_direct_rx : decode 0x0801 0 = .error .reservedField := by rfl
theorem test_reject_no_fields : decode 0x0001 0 = .error .reservedField := by rfl
theorem test_reject_ret_fields : decode 0xD001 0 = .error .reservedField := by rfl
theorem test_reject_reti_fields : decode 0xD4E0 0 = .error .reservedField := by rfl
theorem test_reject_jump_condition : decode 0xA0D0 0 = .error .jumpCondition := by rfl
theorem test_reject_in_contested : decode 0xB700 0 = .error .contestedOpcode := by rfl
theorem test_decode_bytes : decodeBytes [0x08, 0x10, 0x12, 0x34, 0xFF] = .ok (.ld .g1 (.mem (.direct 0x1234)), [0xFF])
  := by rfl
theorem test_decode_truncated : decodeBytes [0x08, 0x10, 0x12] = .error .truncated := by rfl
theorem test_table_word : decodeTableWord 32 0x12340810 = some (.ld .g1 (.mem (.direct 0x1234))) := by rfl

/-! Load and store (95_test_vectors.md section 2.2, and the wraps of section 2.1). -/

/-- 12h 34h ABh at 0200h. -/
def data : State := (putWord base 0x0200 0x1234).withMem
  (Memory.write (putWord base 0x0200 0x1234).mem 0x0202 0xAB)

theorem test_ld_word :
    after (exec (.ld .g1 (.mem (.indirect .g2))) (flags 0x0041 (g2 0x0200 data))) (fun t => (t.regs.g1, flagWord
      t.flag)) = some (0x1234, 0x0041) := by
  decide
theorem test_ld_byte_zero_extended :
    after (exec (.ld .g1 (.mem (.byteIndirect .g2))) (g2 0x0202 data)) (fun t => t.regs.g1) = some 0x00AB := by
  decide
theorem test_ld_odd_word : exec (.ld .g1 (.mem (.indirect .g2))) (g2 0x0201 data) = .fault .misaligned := by rfl
theorem test_ld_index_wraps : effectiveAddr (g2 0xFFFE base) (.indexed 0x0004 .g2) = 0x0002 := by decide
theorem test_ld_fp_wraps : effectiveAddr base (.fpRel 8) = 0xFFF4 := by decide
theorem test_ld_flag_privileged :
    after (exec (.ld .flag (.imm 0xFFA5)) base) (fun t => flagWord t.flag) = some 0x00A5 := by
  decide
theorem test_ld_flag_user :
    after (exec (.ld .flag (.imm 0x00EF)) user) (fun t => flagWord t.flag) = some 0x000F := by
  decide
theorem test_st_word :
    after (exec (.st .g1 (.indirect .g2)) (g2 0x0200 (two 0 0xBEEF))) (fun t => (byteAt t 0x0200, byteAt t 0x0201)) =
      some (0xBE, 0xEF) := by
  decide
theorem test_st_byte_odd :
    after (exec (.st .g1 (.byteIndirect .g2)) (g2 0x0201 (two 0 0xBEEF))) (fun t => (byteAt t 0x0200, byteAt t
      0x0201)) = some (0x00, 0xEF) := by
  decide

/-! Arithmetic, logic and shifts (95_test_vectors.md sections 2.3 to 2.6). -/

theorem test_add_overflow :
    after (exec (.add .g0 (.reg .g1)) (two 0x7FFF 0x0001)) g0vcsz = some (0x8000, true, false, true, false) := by
  decide
theorem test_add_carry :
    after (exec (.add .g0 (.reg .g1)) (two 0x8000 0x8000)) g0vcsz = some (0x0000, true, true, false, true) := by
  decide
theorem test_sub_borrow :
    after (exec (.sub .g0 (.reg .g1)) (two 0x0003 0x0005)) g0vcsz = some (0xFFFE, false, true, true, false) := by
  decide
theorem test_sub_overflow :
    after (exec (.sub .g0 (.reg .g1)) (two 0x7FFF 0xFFFF)) g0vcsz = some (0x8000, true, true, true, false) := by
  decide
theorem test_cmp_keeps_rd :
    after (exec (.cmp .g0 (.reg .g1)) (two 0x8000 0x7FFF)) g0vcsz = some (0x8000, true, false, false, false) := by
  decide
theorem test_cmp_equal :
    after (exec (.cmp .g0 (.reg .g1)) (two 0x0005 0x0005)) g0vcsz = some (0x0005, false, false, false, true) := by
  decide
theorem test_and :
    after (exec (.and .g0 (.reg .g1)) (two 0xFF00 0x00FF)) g0sz = some (0x0000, false, true) := by
  decide
theorem test_or :
    after (exec (.or .g0 (.reg .g1)) (two 0x8000 0x0001)) g0sz = some (0x8001, true, false) := by
  decide
theorem test_xor :
    after (exec (.xor .g0 (.reg .g1)) (two 0xAAAA 0x5555)) g0sz = some (0xFFFF, true, false) := by
  decide
theorem test_adds :
    after (exec (.adds .g0 (.reg .g1)) (two 0x1000 0x0003)) g0sz = some (0x1006, false, false) := by
  decide
theorem test_adds_wraps :
    after (exec (.adds .g0 (.reg .g1)) (two 0x0004 0xFFFF)) g0sz = some (0x0002, false, false) := by
  decide
theorem test_mul :
    after (exec (.mul .g0 (.reg .g1)) (two 0xFFFF 0xFFFF)) g0sz = some (0x0001, false, false) := by
  decide
theorem test_mul_low_word :
    after (exec (.mul .g0 (.reg .g1)) (two 0x1234 0x0010)) g0sz = some (0x2340, false, false) := by
  decide
theorem test_div :
    after (exec (.div .g0 (.reg .g1)) (two 0x0064 0x0007)) g0sz = some (0x000E, false, false) := by
  decide
theorem test_mod :
    after (exec (.mod .g0 (.reg .g1)) (two 0x0064 0x0007)) g0sz = some (0x0002, false, false) := by
  decide
theorem test_shla_one :
    after (exec (.shla .g0 (.reg .g1)) (two 0x4000 0x0001)) g0csz = some (0x8000, false, true, false) := by
  decide
theorem test_shll_fifteen :
    after (exec (.shll .g0 (.reg .g1)) (two 0x8001 0x000F)) g0sz = some (0x8000, true, false) := by
  decide
theorem test_shll_one :
    after (exec (.shll .g0 (.reg .g1)) (two 0x8001 0x0001)) g0csz = some (0x0002, true, false, false) := by
  decide
theorem test_shra_one :
    after (exec (.shra .g0 (.reg .g1)) (two 0x8001 0x0001)) g0csz = some (0xC000, true, true, false) := by
  decide
theorem test_shra_fifteen :
    after (exec (.shra .g0 (.reg .g1)) (two 0x8001 0x000F)) g0sz = some (0xFFFF, true, false) := by
  decide
theorem test_shrl_one :
    after (exec (.shrl .g0 (.reg .g1)) (two 0x0001 0x0001)) g0csz = some (0x0000, true, false, true) := by
  decide
theorem test_shrl_eight :
    after (exec (.shrl .g0 (.reg .g1)) (two 0xFFFF 0x0008)) g0sz = some (0x00FF, false, false) := by
  decide
theorem test_div_by_zero :
    after (exec (.div .g0 (.imm4 0)) (two 5 0)) (fun t => (t.regs.g0, t.regs.ssp, t.flag.e, t.flag.p)) = some (0x0005,
      0x0FFC, false, true) := by
  decide
theorem test_mod_by_zero :
    after (exec (.mod .g0 (.imm4 0)) (two 5 0)) (fun t => (t.regs.g0, t.regs.ssp, t.flag.e, t.flag.p)) = some (0x0005,
      0x0FFC, false, true) := by
  decide
theorem test_flag_destination : exec (.xor .flag (.reg .g0)) base = .refused .flagDestination := by rfl
theorem test_flag_destination_two_words : step (putWord base 0x0100 0x1AF0) = .refused .flagDestination := by rfl

/-! Jumps (95_test_vectors.md section 2.3: taken or not after CMP of the words given) and CALL (section 2.7). -/

/-- Whether the jump is taken in a state whose V, C, S and Z are these. -/
def taken (i : Target → Instr) (vcsz : Word) : Bool :=
  decide (after (exec (i (.direct 0x0200)) (flags (0x0040 ||| vcsz) base)) (fun t => t.pc) = some 0x0200)

theorem test_jz :
    [0x1, 0x0, 0x6, 0x2, 0x4, 0x8, 0xE].map (taken .jz) = [true, false, false, false, false, false, false] := by
  decide
theorem test_jc :
    [0x1, 0x0, 0x6, 0x2, 0x4, 0x8, 0xE].map (taken .jc) = [false, false, true, false, true, false, true] := by
  decide
theorem test_jm :
    [0x1, 0x0, 0x6, 0x2, 0x4, 0x8, 0xE].map (taken .jm) = [false, false, true, true, false, false, true] := by
  decide
theorem test_jo :
    [0x1, 0x0, 0x6, 0x2, 0x4, 0x8, 0xE].map (taken .jo) = [false, false, false, false, false, true, true] := by
  decide
theorem test_jgt :
    [0x1, 0x0, 0x6, 0x2, 0x4, 0x8, 0xE].map (taken .jgt) = [false, true, false, false, true, false, true] := by
  decide
theorem test_jge :
    [0x1, 0x0, 0x6, 0x2, 0x4, 0x8, 0xE].map (taken .jge) = [true, true, false, false, true, false, true] := by
  decide
theorem test_jle :
    [0x1, 0x0, 0x6, 0x2, 0x4, 0x8, 0xE].map (taken .jle) = [true, false, true, true, false, true, false] := by
  decide
theorem test_jlt :
    [0x1, 0x0, 0x6, 0x2, 0x4, 0x8, 0xE].map (taken .jlt) = [false, false, true, true, false, true, false] := by
  decide
theorem test_jnz :
    [0x1, 0x0, 0x6, 0x2, 0x4, 0x8, 0xE].map (taken .jnz) = [false, true, true, true, true, true, true] := by
  decide
theorem test_jnc :
    [0x1, 0x0, 0x6, 0x2, 0x4, 0x8, 0xE].map (taken .jnc) = [true, true, false, true, false, true, false] := by
  decide
theorem test_jnm :
    [0x1, 0x0, 0x6, 0x2, 0x4, 0x8, 0xE].map (taken .jnm) = [true, true, false, false, true, true, false] := by
  decide
theorem test_jno :
    [0x1, 0x0, 0x6, 0x2, 0x4, 0x8, 0xE].map (taken .jno) = [true, true, true, true, true, false, false] := by
  decide
theorem test_jhi :
    [0x1, 0x0, 0x6, 0x2, 0x4, 0x8, 0xE].map (taken .jhi) = [false, true, false, true, false, true, false] := by
  decide
theorem test_jls :
    [0x1, 0x0, 0x6, 0x2, 0x4, 0x8, 0xE].map (taken .jls) = [true, false, true, false, true, false, true] := by
  decide
theorem test_jmp :
    [0x1, 0x0, 0x6, 0x2, 0x4, 0x8, 0xE].map (taken .jmp) = [true, true, true, true, true, true, true] := by
  decide
theorem test_jump_not_taken : after (exec (.jz (.direct 0x0200)) base) (fun t => t.pc) = some 0x0104 := by decide
theorem test_jump_wraps :
    after (exec (.jmp (.indexed 0x0004 .g2)) (g2 0xFFFE base)) (fun t => t.pc) = some 0x0002 := by
  decide
theorem test_call :
    after (exec (.call (.direct 0x0020)) base) (fun t => (t.pc, t.regs.ssp, wordAt t 0x0FFE)) = some (0x0020, 0x0FFE,
      0x0104) := by
  decide

/-! Input and output (section 2.8), the stack (section 2.9) and the system (section 2.10). -/

theorem test_in_rn_ram :
    after (exec (.inPort .g0 (.direct 0x2E)) (base.withDev { Devices.reset with rn4020Ram := 0xA5 })) (fun t =>
      t.regs.g0) = some 0x00A5 := by
  decide
theorem test_in_odd_port : exec (.inPort .g0 (.direct 0x0001)) base = .fault .ioAddress := by rfl
theorem test_out_timer :
    after (exec (.outPort .g0 (.direct 0x02)) (two 0x8001 0)) (fun t => (t.dev.timer0Ctrl, t.ioLog)) = some (0x8001,
      [(0x0002, 0x8001)]) := by
  decide
theorem test_out_high_port : exec (.outPort .g0 (.indirect .g1)) (two 0 0x0100) = .fault .ioAddress := by rfl
theorem test_push_flag :
    after (exec (.push .flag) (flags 0x00C5 base)) (fun t => (t.regs.ssp, wordAt t 0x0FFE)) = some (0x0FFE, 0x00C5) :=
      by
  decide
theorem test_push_user :
    after (exec (.push .g0) (user.withRegs { base.regs with g0 := 8 })) (fun t => (t.regs.usp, t.regs.ssp, wordAt t
      0x2FFE)) = some (0x2FFE, 0x1000, 0x0008) := by
  decide
theorem test_pop_register :
    after (exec (.pop .g3) (putWord base 0x1000 0x0005)) (fun t => (t.regs.g3, t.regs.ssp)) = some (0x0005, 0x1002) :=
      by
  decide
theorem test_pop_flag_leaves :
    after (exec (.pop .flag) (putWord base 0x1000 0xFF25)) (fun t => (flagWord t.flag, t.regs.ssp, t.regs.usp)) = some
      (0x0025, 0x1002, 0x3000) := by
  decide
theorem test_ret :
    after (exec .ret (putWord base 0x1000 0x000C)) (fun t => (t.pc, t.regs.ssp)) = some (0x000C, 0x1002) := by
  decide
theorem test_reti_to_user :
    after (exec .reti (putWord (putWord base 0x1000 0x0010) 0x1002 0x0084)) (fun t => (flagWord t.flag, t.pc,
      t.regs.ssp, t.regs.usp)) = some (0x0010, 0x0084, 0x1004, 0x3000) := by
  decide
theorem test_reti_in_user :
    after (exec .reti (putWord (putWord user 0x3000 0x00EF) 0x3002 0x0200)) (fun t => (flagWord t.flag, t.pc,
      t.regs.usp)) = some (0x000F, 0x0200, 0x3004) := by
  decide
theorem test_svc_from_user :
    after (exec .svc (putWord user 0xFFFE 0x0040)) (fun t => (flagWord t.flag, t.pc, t.regs.ssp, wordAt t 0x0FFE,
      wordAt t 0x0FFC)) = some (0x0050, 0x0040, 0x0FFC, 0x0102, 0x0010) := by
  decide
theorem test_svc_privileged :
    after (exec .svc (flags 0x00C1 (putWord base 0xFFFE 0x0040))) (fun t => (flagWord t.flag, wordAt t 0x0FFC)) = some
      (0x0041, 0x00C1) := by
  decide
theorem test_halt : after (exec .halt base) (fun t => (t.halted, t.pc)) = some (true, 0x0102) := by decide
theorem test_halt_in_user :
    after (exec .halt (putWord user 0xFFFA 0x0050)) (fun t => (t.halted, t.pc, wordAt t 0x0FFE, flagWord t.flag)) =
      some (false, 0x0050, 0x0100, 0x0050) := by
  decide
theorem test_no : after (exec .no base) (fun t => t.pc) = some 0x0102 := by decide
/-! Witnesses: for each statement with hypotheses, states and operands that meet all of them together, clause by clause. -/

/-- Two words at the PC. -/
def placed (w1 w2 : Word) : State := putWord (putWord base 0x0100 w1) 0x0102 w2

/-- E = 1, Timer0 enabled and requesting. -/
def requesting : State :=
  ((flags 0x00C0 base).withDev { Devices.reset with timer0Ctrl := 0x8000 }).withPending { IrqLines.clear with timer0 := true }

/-- G2 holds an odd address, and so do both stack pointers. -/
def odd : State := base.withRegs { base.regs with g2 := 0x0201, ssp := 0x0FFF, usp := 0x2FFF }

/-- The MMU is on. -/
def mmuOn : State := base.withMmu { Mmu.reset with on := true }

/-- The IPL covers one address, and G2 holds 0200h. -/
def covering (a : Nat) : State := g2 0x0200 (base.withIpl { image := [(a, 0x12)], attached := true })

/-- G1 holds the word `LD G1,#-1`, and G2 the address of the next instruction. -/
def selfStore : State := g2 0x0102 (two 0 0x0D1F)

theorem witness_EncodeOfDecode :
    (∃ i, decode 0x0810 0x1234 = .ok i ∧ encode i = [0x0810, 0x1234]) ∧
    (∃ i, decode 0xC0E0 0xFFFF = .ok i ∧ encode i = [0xC0E0]) :=
  ⟨⟨_, rfl, by decide⟩, ⟨_, rfl, by decide⟩⟩

/-- The rows at the ends of R73's ranges, in a form with a second word, and a form without one. -/
theorem witness_LengthFromOpcode :
    [(0x0800 : Word), 0x6200, 0x8000, 0xB800, 0xA9F0, 0x0C00, 0xBE00].map
      (fun w => (decode w 0).toOption.map fun i => ((encode i).length, i.isLong)) =
    [some (2, true), some (2, true), some (2, true), some (2, true), none, some (1, false), some (1, false)] := by
  decide

theorem witness_UndefinedOpcodesTrap_ranges :
    ∀ op ∈ [0x01, 0x07, 0x12, 0x14, 0x15, 0x68, 0x7F, 0xA2, 0xA7, 0xAA, 0xAF, 0xB1, 0xB5, 0xB9, 0xBD, 0xC1, 0xC3, 0xC5,
      0xCF, 0xD1, 0xD3, 0xD5, 0xEF, 0xF1, 0xFE], undefinedOpcodes op := by
  unfold undefinedOpcodes
  decide

theorem witness_UndefinedOpcodesTrap :
    atFetch (placed 0x6800 0) ∧ undefinedOpcodes (opField (wordAt (placed 0x6800 0) (placed 0x6800 0).pc)).toNat ∧
    entryReady (placed 0x6800 0) = true := by
  unfold undefinedOpcodes atFetch
  decide

theorem witness_RefusedEncodings_words :
    ∀ w ∈ [(0x0001 : Word), 0xD010, 0xF001, 0xFF01, 0xD4E0, 0xD4F1, 0xC001, 0xC40F, 0xB001, 0xB801, 0xA801, 0xA810,
      0xA910, 0xA0F1, 0x0801, 0x620F, 0x8001, 0x9A01], reservedWord w := by
  simp [reservedWord, opField, rdField, rxField]

theorem witness_RefusedEncodings :
    (atFetch (placed 0xD4E0 0) ∧ reservedWord (wordAt (placed 0xD4E0 0) (placed 0xD4E0 0).pc)) ∧
    (atFetch (placed 0xB700 0) ∧ opField (wordAt (placed 0xB700 0) (placed 0xB700 0).pc) = 0xB7) ∧
    (atFetch (placed 0xBF00 0) ∧ opField (wordAt (placed 0xBF00 0) (placed 0xBF00 0).pc) = 0xBF) := by
  unfold reservedWord atFetch
  decide

theorem witness_JumpConditionCodes :
    (rdField 0xA0F0 = 0xF ∧ opField 0xA0F0 = 0xA0 ∧ rxField 0xA0F0 = 0) ∧
    (rdField 0xA10F = 0x0 ∧ opField 0xA10F = 0xA1) ∧
    (atFetch (placed 0xA0D1 0) ∧ opField (wordAt (placed 0xA0D1 0) (placed 0xA0D1 0).pc) = 0xA0 ∧
      rdField (wordAt (placed 0xA0D1 0) (placed 0xA0D1 0).pc) = 0xD) ∧
    (atFetch (placed 0xA1D0 0) ∧ opField (wordAt (placed 0xA1D0 0) (placed 0xA1D0 0).pc) = 0xA1 ∧
      rdField (wordAt (placed 0xA1D0 0) (placed 0xA1D0 0).pc) = 0xD) := by
  unfold atFetch
  decide

/-- No transfer is in progress, so that the words at the PC are the ones placed there. -/
theorem witness_StepRunsDecodedInstruction :
    (placed 0x0C12 0).halted = false ∧ anyIrqReady (placed 0x0C12 0) = false ∧
    wordReadable (placed 0x0C12 0) (placed 0x0C12 0).pc = true ∧ (placed 0x0C12 0).dev.sdBusy = false ∧
    decode (wordAt (dmaTick (placed 0x0C12 0)) (placed 0x0C12 0).pc)
      (wordAt (dmaTick (placed 0x0C12 0)) ((placed 0x0C12 0).pc + 2)) = .ok (.ld .g1 (.reg .g2)) :=
  ⟨by decide, by decide, by decide, by decide, by rfl⟩

theorem witness_PlacedInstructionRuns :
    isOdd State.reset.pc = false ∧ decodeTableWord 16 0xD4F0 = some .reti ∧
    decodeTableWord 32 0x12340810 = some (.ld .g1 (.mem (.direct 0x1234))) :=
  ⟨by decide, by rfl, by rfl⟩

theorem witness_InterruptNeedsEnables : base.halted = false ∧ ∀ q, ¬mayInterrupt base q :=
  ⟨rfl, fun _ h => nomatch h.1⟩

theorem witness_InterruptTakenOrNot :
    requesting.halted = false ∧ requesting.dev.sdBusy = false ∧ (∃ q, mayInterrupt requesting q) ∧
    entryReady requesting = true :=
  ⟨rfl, rfl, ⟨.timer0, rfl, rfl, by decide⟩, by decide⟩

theorem witness_TrapEntryEffect :
    entryReady base = true ∧ entryReady user = true ∧ odd.mmu.on = false ∧ isOdd odd.regs.ssp = true := by
  decide

theorem witness_TrapThenReti : entryReady base = true ∧ entryReady user = true := by decide

/-- Displacements and immediates at the ends of their ranges, and FP relative with another index register. -/
theorem witness_ShortFormsEquivalent :
    chooseDisp 0xFFF0 .fp = .fpRel 8 ∧ chooseDisp 14 .fp = .fpRel 7 ∧ chooseDisp 16 .fp = .indexed 16 .fp ∧
    chooseDisp 0 .g2 = .indirect .g2 ∧ chooseDisp 2 .g2 = .indexed 2 .g2 ∧
    chooseImm 0xFFF8 = .imm4 8 ∧ chooseImm 7 = .imm4 7 ∧ chooseImm 8 = .imm 8 ∧ chooseImm 0xFFF7 = .imm 0xFFF7 := by
  decide

theorem witness_LoadRule :
    operandReadable base (.mem (.direct 0xFFFE)) = true ∧ operandReadable odd (.mem (.byteIndirect .g2)) = true ∧
    operandReadable mmuOn (.reg .flag) = true ∧
    (odd.mmu.on = false ∧ isByteForm (.indirect .g2) = false ∧ isOdd (effectiveAddr odd (.indirect .g2)) = true) := by
  decide

theorem witness_StoreRule :
    (formWritable odd (.byteIndirect .g2) = true ∧ isByteForm (.byteIndirect .g2) = true) ∧
    (formWritable base (.direct 0xFFFE) = true ∧ isByteForm (.direct 0xFFFE) = false) ∧
    (odd.mmu.on = false ∧ isByteForm (.indirect .g2) = false ∧ isOdd (effectiveAddr odd (.indirect .g2)) = true) := by
  decide

theorem witness_StoredWordIsFetched :
    formWritable selfStore (.indirect .g2) = true ∧ isByteForm (.indirect .g2) = false ∧
    effectiveAddr selfStore (.indirect .g2) = nextPc selfStore (MemForm.isLong (.indirect .g2)) ∧
    selfStore.halted = false ∧ selfStore.dev.sdBusy = false ∧ anyIrqReady selfStore = false ∧
    decode (readReg selfStore .g1) 0 = .ok (.ld .g1 (.imm4 0xF)) ∧ Instr.isLong (.ld .g1 (.imm4 0xF)) = false :=
  ⟨by decide, by decide, by decide, by decide, by decide, by decide, by rfl, by decide⟩

/-- The hypotheses of every `aluRule`: a readable operand, here in user mode with the stack pointer as Rd. -/
theorem witness_AddSubtractCompareRules : Reg.usp ≠ .flag ∧ operandReadable user (.mem (.fpRel 8)) = true := by decide

theorem witness_LogicRules : Reg.sp ≠ .flag ∧ operandReadable base (.reg .flag) = true := by decide

theorem witness_ScaledAddAndMultiplyRules : Reg.g0 ≠ .flag ∧ operandReadable base (.imm 0x8000) = true := by decide

/-- Divisors at the edges: 1, a word with bit 15 set, and 0. -/
theorem witness_DivideAndModuloRules :
    (operandReadable base (.imm4 1) = true ∧ operandValue base (.imm4 1) ≠ 0) ∧
    (operandReadable base (.imm 0x8000) = true ∧ operandValue base (.imm 0x8000) ≠ 0) ∧
    (operandReadable base (.imm4 0) = true ∧ operandValue base (.imm4 0) = 0 ∧ entryReady base = true) := by
  decide

/-- Counts 0, 1, 15 and 16. -/
theorem witness_ShiftRules :
    [0, 1, 15, 16].all (fun n => operandReadable base (.imm n) && operandValue base (.imm n) == n) = true := by
  decide

theorem witness_FlagDestinationRefused :
    [Instr.add .flag (.imm4 0), .sub .flag (.imm4 0), .cmp .flag (.imm4 0), .and .flag (.imm4 0), .or .flag (.imm4 0),
      .xor .flag (.imm4 0), .adds .flag (.imm4 0), .mul .flag (.imm4 0), .div .flag (.imm4 0), .mod .flag (.imm4 0),
      .shla .flag (.imm4 0), .shll .flag (.imm4 0), .shra .flag (.imm4 0), .shrl .flag (.imm4 0)].map
        Instr.flagChangingRd = List.replicate 14 (some .flag) := by
  decide

theorem witness_OverflowIsSignedRange : Reg.g0 ≠ .flag ∧ operandReadable (two 0x8000 0xFFFF) (.reg .g1) = true := by decide

theorem witness_CompareThenJump : Reg.g0 ≠ .flag ∧ operandReadable (two 0x8000 0x7FFF) (.reg .g1) = true := by decide

/-- Each condition of the single-flag jumps holds in one state and fails in another. -/
theorem witness_SingleFlagJumps :
    (flags 0x0001 base).flag.z = true ∧ (flags 0x0004 base).flag.c = true ∧ (flags 0x0002 base).flag.s = true ∧
    (flags 0x0008 base).flag.v = true ∧ base.flag.z = false ∧ base.flag.c = false ∧ base.flag.s = false ∧
    base.flag.v = false := by
  decide

/-- Flags in which each relation holds and in which it fails. -/
theorem witness_RelationJumps :
    ((flags 0x0002 base).flag.s ≠ (flags 0x0002 base).flag.v) ∧
    ((flags 0x000A base).flag.s = (flags 0x000A base).flag.v ∧ (flags 0x000A base).flag.z = false) ∧
    ((flags 0x0005 base).flag.z = true ∧ (flags 0x0005 base).flag.c = true) := by
  decide

/-- The stack pointer at 0 too, so that the push is at FFFEh. -/
theorem witness_CallRule :
    wordWritable base (readReg base .sp - 2) = true ∧
    wordWritable (base.withRegs Regs.reset) (readReg (base.withRegs Regs.reset) .sp - 2) = true ∧
    (odd.mmu.on = false ∧ isOdd (readReg odd .sp) = true) := by
  decide

theorem witness_PushRule :
    ((Reg.usp ≠ .sp) ∧ base.flag.p = true ∧ wordWritable base (readReg base .sp - 2) = true) ∧
    (Reg.flag ≠ .sp ∧ Reg.flag ≠ .usp ∧ wordWritable user (readReg user .sp - 2) = true) ∧
    (user.flag.p = false) ∧ (odd.mmu.on = false ∧ isOdd (readReg odd .sp) = true) := by
  decide

theorem witness_PopRule :
    ((Reg.usp ≠ .sp) ∧ base.flag.p = true ∧ wordReadable base (readReg base .sp) = true) ∧
    (Reg.flag ≠ .sp ∧ Reg.flag ≠ .usp ∧ wordReadable user (readReg user .sp) = true) ∧
    (user.flag.p = false) ∧ (odd.mmu.on = false ∧ isOdd (readReg odd .sp) = true) := by
  decide

theorem witness_ReturnRule : wordReadable base (readReg base .sp) = true := by decide

theorem witness_StackRoundTrips :
    wordWritable base (readReg base .sp - 2) = true ∧ Reg.flag ≠ .sp ∧ (Reg.usp ≠ .sp ∧ base.flag.p = true) := by
  decide

theorem witness_ReturnFromInterruptRule :
    (wordReadable base (readReg base .sp) = true ∧ base.flag.p = true) ∧
    (wordReadable user (readReg user .sp) = true ∧ user.flag.p = false) ∧
    (odd.mmu.on = false ∧ isOdd (readReg odd .sp) = true) := by
  decide

theorem witness_SupervisorCallRule : entryReady base = true ∧ entryReady user = true := by decide

theorem witness_HaltRule :
    base.flag.p = true ∧ (user.flag.p = false ∧ entryReady user = true) ∧
    ((base.withHalted true).halted = true ∧ (base.withHalted true).dev.sdBusy = false) := by
  decide

theorem witness_PrivilegeViolationRule :
    user.flag.p = false ∧ user.flag.i = false ∧ entryReady user = true := by
  decide

/-- Ports 0 and FEh and the four whose read may change a register, in privileged mode and in I/O privileged mode. -/
theorem witness_InputRule :
    (base.flag.p = true ∧
      ∀ p ∈ [(0x00 : Word), 0x10, 0x2E, 0x80, 0x9E, 0xA2, 0xA4, 0xA6, 0xFE], portDefined base (.direct p)) ∧
    ((flags 0x0020 base).flag.p = false ∧ (flags 0x0020 base).flag.i = true ∧
      portDefined (g2 0x00FE (flags 0x0020 base)) (.indirect .g2)) :=
  ⟨⟨by decide, by simp [portDefined, portAddr]⟩, by decide, by decide, by decide, by decide⟩

/-- The ports at the edges of the clauses: devices, none, the first and last halves of the TLB, A0h, A2h and FEh. -/
theorem witness_OutputRule :
    (base.flag.p = true ∧
      ∀ p ∈ [(0x00 : Word), 0x36, 0x38, 0x7E, 0x80, 0x9E, 0xA0, 0xA2, 0xA4, 0xF8, 0xFE], portDefined base (.direct p)) ∧
    portDefined (g2 0x00A2 base) (.indirect .g2) ∧ (0x9E : Word).toNat = 0x82 + 4 * (7 : Fin 8).val :=
  ⟨⟨by decide, by simp [portDefined, portAddr]⟩, ⟨by decide, by decide⟩, by decide⟩

theorem witness_UndefinedPortsFault :
    (base.flag.p = true ∧ ¬portDefined base (.direct 0x0001)) ∧ ¬portDefined base (.direct 0x00FF) ∧
    ¬portDefined base (.direct 0x0100) := by
  unfold portDefined
  decide

/-- The first and the last port, direct and indirect. -/
theorem witness_DeviceRegisters :
    (ioAllowed base.flag = true ∧ portAddr base (.direct 0x00) = 0x00) ∧
    (ioAllowed (flags 0x0020 (g2 0x00FE base)).flag = true ∧
      portAddr (flags 0x0020 (g2 0x00FE base)) (.indirect .g2) = 0xFE) := by
  decide

theorem witness_TlbReadsBack : ioAllowed base.flag = true ∧ Reg.g0 ≠ .flag ∧ (0 : Fin 8) ≠ 7 := by decide

theorem witness_RnRamSurvivesReset : ioAllowed base.flag = true ∧ Reg.g0 ≠ .flag := by decide

/-- A byte store; a word store, a PUSH or CALL and a trap entry each with one byte alone covered, the first and the last. -/
theorem witness_IplOverlayRule :
    ((covering 0x0200).ipl.attached = true ∧ (covering 0x0200).ipl.image.lookup (0x0200 : Word).toNat = some 0x12 ∧
      (covering 0x0200).mmu.on = false) ∧
    overlaid (covering 0x0200) (effectiveAddr (covering 0x0200) (.byteIndirect .g2)) = true ∧
    (isByteForm (.indirect .g2) = false ∧ isOdd (effectiveAddr (covering 0x0201) (.indirect .g2)) = false ∧
      (storedBytes (covering 0x0201) (.indirect .g2)).map (overlaid (covering 0x0201)) = [false, true]) ∧
    (isOdd (readReg (covering 0x0FFF) .sp) = false ∧
      overlaid (covering 0x0FFF) (readReg (covering 0x0FFF) .sp - 2 + 1) = true ∧ Reg.usp ≠ .sp ∧
      (covering 0x0FFF).flag.p = true) ∧
    (isOdd (covering 0x0FFC).regs.ssp = false ∧
      (frameBytes (covering 0x0FFC)).map (overlaid (covering 0x0FFC)) = [true, false, false, false]) ∧
    ((covering 0x0200).withDev { Devices.reset with sdBusy := true }).dev.sdBusy = true ∧
    (ioAllowed base.flag = true ∧ (readReg (two 1 0) .g0).getLsbD 0 = true) ∧
    (readReg (two 2 0) .g0).getLsbD 0 = false :=
  ⟨by decide, by decide, by decide, by decide, by decide, by decide, by decide, by decide⟩

theorem witness_FlagLayoutAndMask : base.flag.p = true ∧ user.flag.p = false := by decide

theorem witness_StackPointerBanks :
    base.flag.p = true ∧ user.flag.p = false ∧ base.regs.ssp ≠ base.regs.usp := by
  decide

theorem witness_OddPcFaultsAtFetch :
    ((base.withPc 0x0101).halted = false ∧ anyIrqReady (base.withPc 0x0101) = false ∧
      (base.withPc 0x0101).mmu.on = false ∧ isOdd (base.withPc 0x0101).pc = true) ∧
    (base.halted = false ∧ base.dev.sdBusy = false ∧ anyIrqReady base = false ∧ base.mmu.on = false ∧
      isOdd 0xFFFF = true) := by
  decide

/-- The hypotheses of every clause: the MMU on, an allowed Rd in either mode, and nothing before the fetch. -/
theorem witness_MmuTranslatesLoads :
    mmuOn.mmu.on = true ∧ Reg.g0 ≠ .flag ∧ (Reg.usp ≠ .sp ∧ mmuOn.flag.p = true) ∧
    (mmuOn.halted = false ∧ mmuOn.dev.sdBusy = false ∧ anyIrqReady mmuOn = false) := by
  decide

/-- An odd word operand, and an odd stack pointer. -/
theorem witness_OddAddressesFault :
    (Reg.g0 ≠ .flag ∧ odd.mmu.on = false ∧ isByteForm (.indirect .g2) = false ∧
      isOdd (effectiveAddr odd (.indirect .g2)) = true) ∧
    isOdd (readReg odd .sp) = true := by
  decide

theorem witness_ResetFixedValues : Irq.timer0 ≠ .pio := by decide

/-- A canonical memory with a listed byte, and a step that answers. -/
theorem witness_StepKeepsCanonicalMemory :
    memCanonical (placed 0xC000 0) = true ∧ step (placed 0xC000 0) = exec (.push .g0) (placed 0xC000 0) ∧
    (after (exec (.push .g0) (placed 0xC000 0)) fun _ => ()) = some () :=
  ⟨by decide, by rfl, by decide⟩

theorem witness_StepKeepsDeviceLayouts :
    layoutsHold (placed 0xB800 0x0002).dev = true ∧
    (after (step (placed 0xB800 0x0002)) fun t => t.dev.timer0Ctrl) = some 0 := by
  decide

/-- A user step that stays in user mode, and one that traps. -/
theorem witness_UserModeConfined :
    (putWord user 0x0100 0xC4F0).flag.p = false ∧
    (after (step (putWord user 0x0100 0xC4F0)) fun t => t.flag.p) = some false ∧
    (after (step (putWord user 0x0100 0xF000)) fun t => (t.flag.p, t.regs.ssp)) = some (true, 0x0FFC) := by
  decide

theorem witness_UserStepLeavesDevices :
    (putWord user 0x0100 0xB800).flag.p = false ∧ (putWord user 0x0100 0xB800).flag.i = false ∧
    (after (step (putWord user 0x0100 0xB800)) fun t => t.ioLog) = some [] := by
  decide

theorem witness_LeavingPrivilegedMode :
    (placed 0x0AF0 0).flag.p = true ∧ (after (step (placed 0x0AF0 0)) fun t => t.flag.p) = some false := by
  decide

theorem witness_OnlyPrivilegedHaltStops :
    (placed 0xFF00 0).halted = false ∧ (after (step (placed 0xFF00 0)) fun t => t.halted) = some true := by
  decide

theorem witness_FlagWriters :
    (after (exec (.adds .g0 (.imm4 1)) base) fun _ => ()) = some () ∧ loadsFlag (.adds .g0 (.imm4 1)) = false ∧
    (after (exec (.st .g0 (.direct 0x0200)) base) fun _ => ()) = some () ∧
    Instr.flagChangingRd (.st .g0 (.direct 0x0200)) = none := by
  decide

end Sys2Proof.Tests
end

/-! PROOFS. FLAG as a word under its write mask, the banks of the stack pointer, and the step where no interrupt source is
ready. -/

namespace Sys2Proof.Proofs.StateRules

open Sys2Proof Sys2Proof.Machine

/-! FLAG (R19 to R21). -/

/-- `flagWord` puts its bits below `00h` one at a time, so that its value and its bits follow from those of `concat`. -/
theorem flagWord_eq_concat (f : Flag) :
    flagWord f =
      ((((((((0#8).concat f.e).concat f.p).concat f.i).concat f.u).concat f.v).concat f.c).concat f.s).concat f.z :=
  rfl

theorem toNat_flagWord (f : Flag) :
    (flagWord f).toNat =
      f.e.toNat * 128 + f.p.toNat * 64 + f.i.toNat * 32 + f.u.toNat * 16 + f.v.toNat * 8 + f.c.toNat * 4 +
        f.s.toNat * 2 + f.z.toNat := by
  simp only [flagWord_eq_concat, BitVec.toNat_concat, BitVec.toNat_zero]
  omega

/-- FLAG has bit `n` of its word at place `n`, and nothing above bit 7. -/
theorem getLsbD_flagWord (f : Flag) (n : Nat) :
    (flagWord f).getLsbD n = [f.z, f.s, f.c, f.v, f.u, f.i, f.p, f.e].getD n false := by
  match n with
  | 0 | 1 | 2 | 3 | 4 | 5 | 6 | 7 => simp [flagWord_eq_concat]
  | n + 8 => simp [flagWord_eq_concat]

/-- A privileged write keeps the low byte (R20, R21). -/
theorem flagWord_writeFlag_privileged {f : Flag} (hp : f.p = true) (w : Word) :
    flagWord (writeFlag f w) = w &&& 0x00FF := by
  apply BitVec.eq_of_getLsbD_eq
  intro n hn
  simp only [BitVec.getLsbD_and, getLsbD_flagWord]
  interval_cases n <;> simp [writeFlag, flagOfWord, hp]

/-- A user write keeps the low five bits, and the old E, P and I (R21). -/
theorem flagWord_writeFlag_user {f : Flag} (hp : f.p = false) (w : Word) :
    flagWord (writeFlag f w) = (flagWord f &&& 0x00E0) ||| (w &&& 0x001F) := by
  apply BitVec.eq_of_getLsbD_eq
  intro n hn
  simp only [BitVec.getLsbD_or, BitVec.getLsbD_and, getLsbD_flagWord]
  interval_cases n <;> simp [writeFlag, flagOfWord, hp]

/-- FLAG read after a write to it is the masked image (R20, R21). -/
theorem readReg_writeReg_flag (s : State) (w : Word) :
    readReg (writeReg s .flag w) .flag = flagWord (writeFlag s.flag w) := rfl

/-- Settles O47: the layout is `toNat_flagWord`, the masks are those of `writeFlag` bit by bit. -/
theorem flagLayoutAndMask : Obligations.FlagLayoutAndMask := by
  refine ⟨toNat_flagWord, fun s w => ⟨fun hp => ?_, fun hp => ?_⟩⟩
  · exact (readReg_writeReg_flag s w).trans (flagWord_writeFlag_privileged hp w)
  · exact (readReg_writeReg_flag s w).trans (flagWord_writeFlag_user hp w)

/-! The stack pointer's banks (R12, R13). -/

theorem readReg_sp_privileged {s : State} (hp : s.flag.p = true) : readReg s .sp = s.regs.ssp := if_pos hp

theorem readReg_sp_user {s : State} (hp : s.flag.p = false) : readReg s .sp = s.regs.usp := by
  simp [readReg, hp]

theorem writeReg_sp_privileged {s : State} (hp : s.flag.p = true) (v : Word) :
    writeReg s .sp v = s.withRegs { s.regs with ssp := v } := if_pos hp

theorem writeReg_sp_user {s : State} (hp : s.flag.p = false) (v : Word) :
    writeReg s .sp v = s.withRegs { s.regs with usp := v } := by
  simp [writeReg, hp]

/-- No register number names SSP in user mode. -/
theorem physReg_user_ne_ssp {s : State} (hp : s.flag.p = false) (r : Reg) : physReg s r ≠ some .ssp := by
  cases r <;> simp [physReg, hp]

theorem writeReg_user_ssp {s : State} (hp : s.flag.p = false) (r : Reg) (v : Word) :
    (writeReg s r v).regs.ssp = s.regs.ssp :=
  (writeReg_get s r v .ssp).trans (if_neg (physReg_user_ne_ssp hp r))

/-- Settles O48, by the bank FLAG.P selects. -/
theorem stackPointerBanks : Obligations.StackPointerBanks := by
  intro s v
  refine ⟨fun hp => ⟨readReg_sp_privileged hp, ?_⟩,
    fun hp => ⟨readReg_sp_user hp, ?_, fun r => writeReg_user_ssp hp r v⟩, rfl, rfl⟩
  · rw [writeReg_sp_privileged hp, State.regs_withRegs]
  · rw [writeReg_sp_user hp, State.regs_withRegs]

/-! Interrupts (R22, R205, R210). -/

/-- Settles O10: with no source that may interrupt none is ready, and the step is the quiet one. -/
theorem interruptNeedsEnables : Obligations.InterruptNeedsEnables := by
  intro s hrun hnone
  have hquiet : anyIrqReady s = false :=
    Bool.eq_false_iff.2 (mt (anyIrqReady_iff s).1 (not_exists.2 hnone))
  exact step_quiet hrun hquiet

end Sys2Proof.Proofs.StateRules

/-! PROOFS. The length of an instruction from its first word (R73): the encoding has as many words as `isLong` says, and each
row of the opcode map yields long instructions in the forms R73 names and in no others. -/

namespace Sys2Proof.Proofs.EncodingRules

open Sys2Proof Sys2Proof.Machine

/-! The number of words of an encoding. -/

/-- The lemmas of `Laws.EncodedLength` for every instruction at once. -/
theorem length_encode (i : Instr) : (encode i).length = if i.isLong then 2 else 1 := by
  open Laws.EncodedLength in
  cases i with
  | ld rd src | add rd src | sub rd src | cmp rd src | and rd src | or rd src | xor rd src | adds rd src | mul rd src
  | div rd src | mod rd src | shla rd src | shll rd src | shra rd src | shrl rd src => exact operand _ rd src
  | st rd m => exact memForm _ rd m
  | inPort rd p | outPort rd p => exact port _ rd p
  | jz t | jc t | jm t | jo t | jgt t | jge t | jle t | jlt t | jnz t | jnc t | jnm t | jno t | jhi t | jls t | jmp t
  | call t => exact target _ _ t
  | no | push | pop | ret | reti | svc | halt => rfl

/-! The long operand forms are the forms 0, 1 and 2. -/

theorem memForm_isLong_iff (m : MemForm) : m.isLong = true ↔ memFormNumber m ≤ 2 := by
  cases m <;> simp [MemForm.isLong, memFormNumber]

theorem operand_isLong_iff (src : Operand) : src.isLong = true ↔ formNumber src ≤ 2 := by
  cases src with
  | mem m => exact memForm_isLong_iff m
  | imm | reg | imm4 => simp [Operand.isLong, formNumber]

/-! What the pieces of the decoder read. -/

/-- The instruction of a first word, given the word after it. -/
def instrOf : FirstWord → Word → Instr
  | .complete i, _ => i
  | .needsSecond finish, w2 => finish w2

theorem decode_ok_iff (w1 w2 : Word) (i : Instr) :
    decode w1 w2 = .ok i ↔ ∃ r, decodeFirst w1 = .ok r ∧ instrOf r w2 = i := by
  unfold decode
  rcases decodeFirst w1 with e | i' | finish <;> simp [instrOf]

/-- If the decoder accepts, what it reads is long exactly when `p` holds, whatever the second word. -/
def LongIff (p : Prop) (x : Except Reject FirstWord) : Prop :=
  ∀ r d, x = .ok r → ((instrOf r d).isLong = true ↔ p)

section
variable {p : Prop} {w : Word}

@[simp] theorem longIff_error (e : Reject) : LongIff p (.error e) := fun _ _ h => by cases h

@[simp] theorem longIff_ok (r : FirstWord) : LongIff p (.ok r) ↔ ∀ d, (instrOf r d).isLong = true ↔ p :=
  ⟨fun h d => h r d rfl, fun h _ d hr => by cases hr; exact h d⟩

theorem longIff_rxZero {r : FirstWord} (h : LongIff p (.ok r)) : LongIff p (rxZero w r) := by
  unfold rxZero
  split
  · exact h
  · exact longIff_error _

theorem longIff_wholeWord {pattern : Word} {i : Instr} (h : i.isLong = true ↔ p) :
    LongIff p (wholeWord w pattern i) := by
  unfold wholeWord
  split
  · exact (longIff_ok _).2 fun _ => h
  · exact longIff_error _

theorem longIff_decodeMem {k : MemForm → Instr} (hk : ∀ m, (k m).isLong = m.isLong) :
    LongIff (formOf w ≤ 2) (decodeMem w k) := by
  unfold decodeMem
  split <;> rename_i hf
  case h_1 => exact longIff_rxZero (by simp [instrOf, hk, hf, MemForm.isLong])
  all_goals simp [instrOf, hk, hf, MemForm.isLong]

theorem longIff_decodeOperand {k : Operand → Instr} (hk : ∀ src, (k src).isLong = src.isLong) :
    LongIff (formOf w ≤ 2) (decodeOperand w k) := by
  unfold decodeOperand
  split <;> rename_i hf
  case h_1 => exact longIff_rxZero (by simp [instrOf, hk, hf, Operand.isLong])
  case h_4 => exact longIff_decodeMem fun m => hk (.mem m)
  all_goals simp [instrOf, hk, hf, Operand.isLong]

theorem longIff_decodeTarget {k : Target → Instr} (hk : ∀ t, (k t).isLong = true) :
    LongIff (formOf w ≤ 2) (decodeTarget w k) := by
  unfold decodeTarget
  split <;> rename_i hf
  case h_1 => exact longIff_rxZero (by simp [instrOf, hk, hf])
  all_goals simp [instrOf, hk, hf]

theorem longIff_decodePort {k : Port → Instr} (hk : ∀ port, (k port).isLong = port.isLong) :
    LongIff (formOf w ≤ 2) (decodePort w k) := by
  unfold decodePort
  split <;> rename_i hf
  case h_1 => exact longIff_rxZero (by simp [instrOf, hk, hf, Port.isLong])
  all_goals simp [instrOf, hk, hf, Port.isLong]

theorem jumpOf_isLong {cc : Nibble} {k : Target → Instr} (h : jumpOf cc = some k) (t : Target) :
    (k t).isLong = true := by
  unfold jumpOf at h
  split at h <;> cases h <;> rfl

theorem longIff_decodeJump : LongIff (formOf w ≤ 2) (decodeJump w) := by
  unfold decodeJump
  split
  case h_1 k hk => exact longIff_decodeTarget (jumpOf_isLong hk)
  case h_2 => split <;> exact longIff_error _

theorem longIff_decodeCall : LongIff (formOf w ≤ 2) (decodeCall w) := by
  unfold decodeCall
  split
  · exact longIff_decodeTarget fun _ => rfl
  · exact longIff_error _

end

/-! The rows of the opcode map (R73, R74). -/

/-- The rows of the opcode map that hold operand, memory, target or port forms: those R73 names. -/
def formRow (r : Nat) : Prop := (1 ≤ r ∧ r ≤ 12) ∨ (16 ≤ r ∧ r ≤ 23)

theorem twoWordOpcode_iff (w : Word) : twoWordOpcode (opField w).toNat ↔ formRow (rowOf w) ∧ formOf w ≤ 2 := Iff.rfl

theorem longIff_decodeFirst_of_formRow {w : Word} (h : formRow (rowOf w)) : LongIff (formOf w ≤ 2) (decodeFirst w) := by
  unfold formRow at h
  unfold decodeFirst
  simp only
  split <;> rename_i hr
  case h_1 | h_22 | h_23 | h_24 | h_25 => omega
  case h_3 => exact longIff_decodeMem fun _ => rfl
  case h_18 => exact longIff_decodeJump
  case h_19 => exact longIff_decodeCall
  case h_20 | h_21 => exact longIff_decodePort fun _ => rfl
  case h_26 => exact longIff_error _
  all_goals exact longIff_decodeOperand fun _ => rfl

/-- The other rows have NO, PUSH and POP, RET and RETI, SVC and HALT, or nothing. -/
theorem longIff_decodeFirst_of_not_formRow {w : Word} (h : ¬ formRow (rowOf w)) : LongIff False (decodeFirst w) := by
  unfold formRow at h
  unfold decodeFirst
  simp only
  split <;> rename_i hr
  case h_1 | h_24 | h_25 =>
    split
    · exact longIff_wholeWord (by simp [Instr.isLong])
    · exact longIff_error _
  case h_22 =>
    split
    case h_3 => exact longIff_error _
    all_goals exact longIff_rxZero (by simp [instrOf, Instr.isLong])
  case h_23 =>
    split
    case h_3 => exact longIff_error _
    all_goals exact longIff_wholeWord (by simp [Instr.isLong])
  case h_26 => exact longIff_error _
  all_goals omega

/-- What the decoder reads is long exactly when the opcode is one of R73's. -/
theorem longIff_decodeFirst (w : Word) : LongIff (twoWordOpcode (opField w).toNat) (decodeFirst w) := by
  rw [twoWordOpcode_iff]
  by_cases h : formRow (rowOf w)
  · simpa only [h, true_and] using longIff_decodeFirst_of_formRow h
  · simpa only [h, false_and] using longIff_decodeFirst_of_not_formRow h

theorem decode_isLong_iff {w1 w2 : Word} {i : Instr} (h : decode w1 w2 = .ok i) :
    i.isLong = true ↔ twoWordOpcode (opField w1).toNat := by
  obtain ⟨r, hr, rfl⟩ := (decode_ok_iff w1 w2 i).1 h
  exact longIff_decodeFirst w1 r w2 hr

/-- Settles O3: `decode_isLong_iff` row by row of the opcode map, and `length_encode`. -/
theorem lengthFromOpcode : Obligations.LengthFromOpcode := by
  refine ⟨fun w1 w2 i h => ⟨?_, decode_isLong_iff h⟩, operand_isLong_iff, memForm_isLong_iff, fun _ => rfl, fun _ => rfl⟩
  simp only [length_encode, decode_isLong_iff h]

end Sys2Proof.Proofs.EncodingRules

/-! PROOFS. NO, LD and ST (R100 to R102): the first word of an encoding as a number, what a register destination takes, and
what a store of a memory form puts where. -/

namespace Sys2Proof.Proofs.LoadStoreRules

open Sys2Proof Sys2Proof.Machine

/-! First words as numbers (R70, R71). -/

theorem toNat_firstWord (op : Byte) (rd rx : Nibble) :
    (firstWord op rd rx).toNat = op.toNat * 256 + rd.toNat * 16 + rx.toNat := by
  have hrd := rd.isLt
  have hrx := rx.isLt
  rw [firstWord, BitVec.toNat_append, ← Nat.shiftLeft_add_eq_or_of_lt hrx, BitVec.toNat_append,
    ← Nat.shiftLeft_add_eq_or_of_lt hrd, Nat.shiftLeft_eq, Nat.shiftLeft_eq]
  omega

/-- An encoding whose OP field is a base opcode plus a form number. -/
theorem encodesTo_of_encode_eq {i : Instr} {base : Byte} {form : Nat} {rd : Nibble} {low : Nibble × Option Word}
    (hform : base.toNat + form < 256)
    (h : encode i = firstWord (base + BitVec.ofNat 8 form) rd low.1 :: low.2.toList) :
    encodesTo i (base.toNat + form) rd low := by
  have hop : (base + BitVec.ofNat 8 form).toNat = base.toNat + form := by
    rw [BitVec.toNat_add, BitVec.toNat_ofNat]
    omega
  rw [encodesTo, h, List.map_cons, toNat_firstWord, hop, Option.toList_map]

theorem memFormNumber_le (m : MemForm) : memFormNumber m ≤ 7 := by
  cases m <;> simp [memFormNumber]

theorem formNumber_le (src : Operand) : formNumber src ≤ 7 := by
  cases src with
  | mem m => exact memFormNumber_le m
  | imm | reg | imm4 => simp [formNumber]

/-- The five memory forms are encoded alike: the form number in OP, the fields of R72 after it. -/
theorem encodeMem_eq (base : Byte) (rd : Reg) (m : MemForm) :
    encodeMem base rd m =
      firstWord (base + BitVec.ofNat 8 (memFormNumber m)) rd.toNibble (memFields m).1 :: (memFields m).2.toList := by
  cases m <;> simp [encodeMem, memFormNumber, memFields]

/-- The eight operand forms are encoded alike. -/
theorem encodeOperand_eq (base : Byte) (rd : Reg) (src : Operand) :
    encodeOperand base rd src =
      firstWord (base + BitVec.ofNat 8 (formNumber src)) rd.toNibble (operandFields src).1 ::
        (operandFields src).2.toList := by
  cases src with
  | mem m => exact encodeMem_eq base rd m
  | imm | reg | imm4 => simp [encodeOperand, formNumber, operandFields]

theorem encodesTo_of_encodeMem {i : Instr} {base : Byte} {rd : Reg} {m : MemForm}
    (hbase : base.toNat ≤ 0xF8) (h : encode i = encodeMem base rd m) :
    encodesTo i (base.toNat + memFormNumber m) rd.toNibble (memFields m) :=
  encodesTo_of_encode_eq (by have := memFormNumber_le m; omega) (h.trans (encodeMem_eq base rd m))

theorem encodesTo_of_encodeOperand {i : Instr} {base : Byte} {rd : Reg} {src : Operand}
    (hbase : base.toNat ≤ 0xF8) (h : encode i = encodeOperand base rd src) :
    encodesTo i (base.toNat + formNumber src) rd.toNibble (operandFields src) :=
  encodesTo_of_encode_eq (by have := formNumber_le src; omega) (h.trans (encodeOperand_eq base rd src))

/-! The PC after an instruction, and faults of its access. -/

theorem nextPc_eq (s : State) (long : Bool) : nextPc s long = s.pc + (if long then 4 else 2) := by
  cases long <;> rfl

@[simp] theorem orRaise_fault {α : Type} (f : Fault) (pcn : Word) (s : State) (k : α → Result) :
    (Access.fault f).orRaise pcn s k = .fault f := rfl

/-! NO (R100). -/

theorem exec_no (s : State) : exec .no s = .next (s.withPc (s.pc + 2)) := rfl

/-- Settles O17: the encoding is one word with all three fields zero, the effect is `exec_no`. -/
theorem noOperationRule : Obligations.NoOperationRule :=
  ⟨encodesTo_of_encode_eq (base := 0) (form := 0) (by decide) rfl, exec_no⟩

/-! LD (R101). -/

theorem exec_ld (rd : Reg) (src : Operand) (s : State) :
    exec (.ld rd src) s =
      (readOperand s src).orRaise (nextPc s src.isLong) s fun v =>
        .next ((writeReg s rd v).withPc (nextPc s src.isLong)) := rfl

theorem exec_ld_ready {rd : Reg} {src : Operand} {s : State} (h : operandReadable s src = true) :
    exec (.ld rd src) s = .next ((writeReg s rd (operandValue s src)).withPc (nextPc s src.isLong)) := by
  rw [exec_ld, readOperand_ready h, orRaise_ok]

/-- Any state with the registers and FLAG of a register write has its effect, whatever the rest is. -/
theorem takes_of_writeReg {rd : Reg} {v : Word} {s t : State} (hregs : t.regs = (writeReg s rd v).regs)
    (hflag : t.flag = (writeReg s rd v).flag) : takes rd v s t := by
  refine ⟨fun hrd => ⟨?_, ?_⟩, fun hrd => ?_, fun q hq => ?_⟩
  · rw [readReg_congr rd hregs hflag, readReg_writeReg_same s v hrd]
  · rw [hflag, writeReg_flag_of_ne s v hrd]
  · rw [hflag, writeReg_flag, if_pos hrd]
  · rw [hregs, writeReg_get, if_neg fun h => hq (Option.mem_toList.2 h)]

/-- A register write and a new PC leave everything else alone. -/
theorem sameElsewhere_writeReg_withPc (s : State) (rd : Reg) (v pc : Word) :
    sameElsewhere s ((writeReg s rd v).withPc pc) := by
  refine ⟨fun a _ => byteAt_congr a ?_ ?_, ⟨?_, ?_, ?_, ?_, ?_, ?_⟩, ?_⟩ <;> simp

/-- A word form at an odd address has no value (R46). -/
theorem loadForm_odd {s : State} {m : MemForm} (hmmu : s.mmu.on = false) (hword : isByteForm m = false)
    (hodd : isOdd (effectiveAddr s m) = true) : loadForm s m = .fault .misaligned := by
  simp [loadForm, hword, readWord_off .read _ hmmu, hodd]

theorem exec_ld_odd (rd : Reg) (s : State) : oddFaults (.ld rd) s := by
  intro m hmmu hword hodd
  rw [exec_ld, readOperand, loadForm_odd hmmu hword hodd, orRaise_fault]

/-- Settles O18: LD with a readable operand is one register write (`exec_ld_ready`). -/
theorem loadRule : Obligations.LoadRule := by
  refine ⟨fun rd src => encodesTo_of_encodeOperand (base := 0x08) (by decide) rfl, fun rd src s h => ?_, exec_ld_odd⟩
  exact ⟨_, exec_ld_ready h, takes_of_writeReg rfl rfl, nextPc_eq s src.isLong,
    sameElsewhere_writeReg_withPc s rd _ _⟩

/-! ST (R102). -/

/-- The state after a store of a memory form at its effective address: the word, or its low byte. -/
def putForm (s : State) (m : MemForm) (v : Word) : State :=
  if isByteForm m then putByte s (effectiveAddr s m) (loByte v) else putWord s (effectiveAddr s m) v

section
variable {s : State} {m : MemForm}

theorem formWritable_byte (hb : isByteForm m = true) :
    formWritable s m = true ↔ s.mmu.on = false ∧ overlaid s (effectiveAddr s m) = false := by
  rw [formWritable, if_pos hb, byteWritable_iff]

theorem formWritable_word (hb : isByteForm m = false) :
    formWritable s m = true ↔ wordWritable s (effectiveAddr s m) = true := by
  simp [formWritable, hb]

/-- Where the form can be written, the store answers `putForm`. -/
theorem storeForm_ready (v : Word) (h : formWritable s m = true) : storeForm s m v = .ok (putForm s m v) := by
  cases hb : isByteForm m with
  | true =>
    obtain ⟨hmmu, hfree⟩ := (formWritable_byte hb).1 h
    simp [storeForm, putForm, hb, writeByte_off _ _ hmmu, hfree]
  | false =>
    simp [storeForm, putForm, hb, writeWord_ready v ((formWritable_word hb).1 h)]

/-- A store changes memory alone. -/
theorem putForm_eq_withMem (s : State) (m : MemForm) (v : Word) : ∃ x, putForm s m v = s.withMem x := by
  unfold putForm
  split
  · exact ⟨_, rfl⟩
  · exact ⟨_, rfl⟩

theorem byteAt_putForm_byte (v c : Word) (h : formWritable s m = true) (hb : isByteForm m = true) :
    byteAt (putForm s m v) c = if c = effectiveAddr s m then loByte v else byteAt s c := by
  obtain ⟨-, hfree⟩ := (formWritable_byte hb).1 h
  rw [putForm, if_pos hb, byteAt_putByte s _ _ c hfree]

theorem byteAt_putForm_word (v c : Word) (h : formWritable s m = true) (hb : isByteForm m = false) :
    byteAt (putForm s m v) c =
      if c = effectiveAddr s m then hiByte v else if c = effectiveAddr s m + 1 then loByte v else byteAt s c := by
  obtain ⟨-, -, hfree0, hfree1⟩ := wordWritable_iff.1 ((formWritable_word hb).1 h)
  rw [putForm, hb, if_neg Bool.false_ne_true, byteAt_putWord s _ v c hfree0 hfree1]

theorem sameBytesBut_putForm (v : Word) (h : formWritable s m = true) :
    sameBytesBut s (putForm s m v) (storedBytes s m) := by
  intro a ha
  cases hb : isByteForm m with
  | true =>
    have hne : a ≠ effectiveAddr s m := by simpa [storedBytes, hb] using ha
    rw [byteAt_putForm_byte v a h hb, if_neg hne]
  | false =>
    obtain ⟨hne0, hne1⟩ : a ≠ effectiveAddr s m ∧ a ≠ effectiveAddr s m + 1 := by simpa [storedBytes, hb] using ha
    rw [byteAt_putForm_word v a h hb, if_neg hne0, if_neg hne1]

/-- A word form at an odd address cannot be stored (R46). -/
theorem storeForm_odd (v : Word) (hmmu : s.mmu.on = false) (hword : isByteForm m = false)
    (hodd : isOdd (effectiveAddr s m) = true) : storeForm s m v = .fault .misaligned := by
  simp [storeForm, hword, writeWord_off _ _ hmmu, hodd]

end

theorem exec_st (rd : Reg) (m : MemForm) (s : State) :
    exec (.st rd m) s =
      (storeForm s m (readReg s rd)).orRaise (nextPc s m.isLong) s fun s' => .next (s'.withPc (nextPc s m.isLong)) := rfl

theorem exec_st_ready {rd : Reg} {m : MemForm} {s : State} (h : formWritable s m = true) :
    exec (.st rd m) s = .next ((putForm s m (readReg s rd)).withPc (nextPc s m.isLong)) := by
  rw [exec_st, storeForm_ready _ h, orRaise_ok]

theorem exec_st_odd {rd : Reg} {m : MemForm} {s : State} (hmmu : s.mmu.on = false) (hword : isByteForm m = false)
    (hodd : isOdd (effectiveAddr s m) = true) : exec (.st rd m) s = .fault .misaligned := by
  rw [exec_st, storeForm_odd _ hmmu hword hodd, orRaise_fault]

theorem byteAt_withPc (s : State) (pc a : Word) : byteAt (s.withPc pc) a = byteAt s a := byteAt_congr a rfl rfl

/-- Settles O19: ST at a writable form is `putForm` (`exec_st_ready`), whose bytes are `byteAt_putForm_byte` and
`byteAt_putForm_word` and which changes memory alone. -/
theorem storeRule : Obligations.StoreRule := by
  refine ⟨fun rd m => encodesTo_of_encodeMem (base := 0x10) (by decide) rfl, fun rd m s h => ?_,
    fun rd m s => exec_st_odd⟩
  refine ⟨_, exec_st_ready h, fun hb => ?byte, fun hb => ⟨?upper, ?lower⟩, ?otherBytes, ?rest⟩
  case byte => rw [byteAt_withPc, byteAt_putForm_byte _ _ h hb, if_pos rfl]
  case upper => rw [byteAt_withPc, byteAt_putForm_word _ _ h hb, if_pos rfl]
  case lower => rw [byteAt_withPc, byteAt_putForm_word _ _ h hb, if_neg (add_one_ne_self _), if_pos rfl]
  case otherBytes => exact fun a ha => (byteAt_withPc _ _ a).trans (sameBytesBut_putForm _ h a ha)
  case rest =>
    obtain ⟨x, hx⟩ := putForm_eq_withMem s m (readReg s rd)
    rw [hx]
    exact ⟨rfl, rfl, nextPc_eq s m.isLong, ⟨rfl, rfl, rfl, rfl, rfl, rfl⟩, rfl⟩

end Sys2Proof.Proofs.LoadStoreRules

/-! PROOFS. ADD, SUB and CMP, the logic instructions, ADDS and MUL (R111 to R118): results and flags as numbers, and the rule
of any instruction in the shape of `aluOp`. -/

namespace Sys2Proof.Proofs.ArithmeticRules

open Sys2Proof Sys2Proof.Machine Sys2Proof.Proofs.LoadStoreRules

/-! Results and flags as numbers (R110). -/

theorem msb_eq_bit15 (w : Word) : w.msb = bit15 w.toNat := BitVec.msb_eq_decide w

/-- S and Z of a word are those of its number. -/
theorem aluOut_eq_resultIs (r : Word) (v c : FlagBit) : aluOut r v c = resultIs r.toNat v c := by
  have hz : decide (r = 0) = decide (r.toNat = 0) := decide_eq_decide.2 (BitVec.toNat_eq (y := 0))
  rw [aluOut, resultIs, BitVec.ofNat_toNat, BitVec.setWidth_eq, msb_eq_bit15, hz]

theorem addOut_eq_addRule (a b : Word) : addOut a b = addRule a.toNat b.toNat := by
  have hsum : (a + b).toNat = (a.toNat + b.toNat) % 65536 := BitVec.toNat_add a b
  have hv : ovfAdd a b (a + b) =
      decide (bit15 a.toNat = bit15 b.toNat ∧ bit15 (a + b).toNat ≠ bit15 a.toNat) := by
    simp only [ovfAdd, msb_eq_bit15, Bool.decide_and, Bool.beq_eq_decide_eq, bne, decide_not, ne_eq]
  rw [addOut, aluOut_eq_resultIs, hv, hsum]
  rfl

theorem subOut_eq_subRule (a b : Word) : subOut a b = subRule a.toNat b.toNat := by
  have hdiff : (a - b).toNat = (a.toNat + 65536 - b.toNat) % 65536 := by
    have hb := b.isLt
    rw [BitVec.toNat_sub]
    omega
  have hv : ovfSub a b (a - b) =
      decide (bit15 a.toNat ≠ bit15 b.toNat ∧ bit15 (a - b).toNat ≠ bit15 a.toNat) := by
    simp only [ovfSub, msb_eq_bit15, Bool.decide_and, Bool.beq_eq_decide_eq, bne, decide_not, ne_eq]
  rw [subOut, aluOut_eq_resultIs, hv, hdiff]
  rfl

theorem andOut_eq_resultIs (a b : Word) : andOut a b = resultIs (a.toNat &&& b.toNat) .drawn .drawn := by
  rw [andOut, aluOut_eq_resultIs, BitVec.toNat_and]

theorem orOut_eq_resultIs (a b : Word) : orOut a b = resultIs (a.toNat ||| b.toNat) .drawn .drawn := by
  rw [orOut, aluOut_eq_resultIs, BitVec.toNat_or]

theorem xorOut_eq_resultIs (a b : Word) : xorOut a b = resultIs (a.toNat ^^^ b.toNat) .drawn .drawn := by
  rw [xorOut, aluOut_eq_resultIs, BitVec.toNat_xor]

/-- The operand may be doubled before or after the reduction modulo 2^16. -/
theorem addsOut_eq_resultIs (a b : Word) :
    addsOut a b = resultIs ((a.toNat + 2 * b.toNat) % 65536) .drawn .drawn := by
  have hsum : (a + 2 * b).toNat = (a.toNat + 2 * b.toNat) % 65536 := by
    rw [BitVec.toNat_add, BitVec.toNat_mul, Nat.add_mod_mod]
    rfl
  rw [addsOut, aluOut_eq_resultIs, hsum]

theorem mulOut_eq_resultIs (a b : Word) : mulOut a b = resultIs (a.toNat * b.toNat % 65536) .drawn .drawn := by
  rw [mulOut, aluOut_eq_resultIs, BitVec.toNat_mul]

/-! The effect of `aluOp` (R110). -/

/-- The state a flag-changing instruction leaves when its result and flags are `o`. -/
def aluNext (o : AluOut) (store : Bool) (rd : Reg) (long : Bool) (s : State) : State :=
  (if store then writeReg (applyFlags o s) rd o.result else applyFlags o s).withPc (nextPc s long)

theorem aluOp_eq_aluNext {f : Word → Word → AluOut} {store : Bool} {rd : Reg} {src : Operand} {s : State}
    (hrd : rd ≠ .flag) (h : operandReadable s src = true) :
    aluOp f store rd src s = .next (aluNext (f (readReg s rd) (operandValue s src)) store rd src.isLong s) :=
  aluOp_ready hrd h

theorem aluOp_flag (f : Word → Word → AluOut) (store : Bool) (src : Operand) (s : State) :
    aluOp f store .flag src s = .refused .flagDestination := if_pos rfl

section
variable {rd : Reg} (o : AluOut) (store long : Bool) (s : State)

/-- Writing the result back reaches a physical register, never the flags just written. -/
theorem aluNext_flag (hrd : rd ≠ .flag) : (aluNext o store rd long s).flag = (applyFlags o s).flag := by
  cases store with
  | true => exact writeReg_flag_of_ne _ _ hrd
  | false => rfl

theorem aluNext_draws :
    (aluNext o store rd long s).draws = if o.v = .drawn ∨ o.c = .drawn then s.draws + 1 else s.draws := by
  cases store <;> simp [aluNext, AluOut.draws]

theorem readReg_aluNext_store (hrd : rd ≠ .flag) : readReg (aluNext o true rd long s) rd = o.result :=
  (readReg_congr rd rfl rfl).trans (readReg_writeReg_same (applyFlags o s) o.result hrd)

theorem sameRegsBut_aluNext :
    sameRegsBut s (aluNext o store rd long s) (if store then (physReg s rd).toList else []) := by
  intro q hq
  cases store with
  | true =>
    have hne : physReg (applyFlags o s) rd ≠ some q := fun h =>
      hq (Option.mem_toList.2 ((physReg_congr rd (applyFlags_p o s)).symm.trans h))
    exact (writeReg_get _ _ _ q).trans (if_neg hne)
  | false => rfl

theorem sameBytesBut_aluNext : sameBytesBut s (aluNext o store rd long s) [] := fun a _ => by
  apply byteAt_congr a <;> cases store <;> simp [aluNext]

theorem sameSystem_aluNext : sameSystem s (aluNext o store rd long s) := by
  cases store <;> simp [sameSystem, aluNext]

theorem aluEffect_aluNext (hrd : rd ≠ .flag) : aluEffect o store rd long s (aluNext o store rd long s) := by
  have hflag := aluNext_flag o store long s hrd
  refine ⟨?result, ?v, ?c, ?s, ?z, ?control, aluNext_draws o store long s, nextPc_eq s long,
    sameRegsBut_aluNext o store long s, sameBytesBut_aluNext o store long s, sameSystem_aluNext o store long s⟩
  case result =>
    rintro rfl
    exact readReg_aluNext_store o long s hrd
  case control => simp [sameControlFlags, hflag]
  all_goals simp [hflag]

end

/-- An instruction in the shape of `aluOp`, encoded with `base`, obeys the rule of what it computes. -/
theorem aluRule_of_aluOp {mk : Reg → Operand → Instr} {base : Byte} {f spec : Word → Word → AluOut} {store : Bool}
    (hbase : base.toNat ≤ 0xF8) (hencode : ∀ rd src, encode (mk rd src) = encodeOperand base rd src)
    (hexec : ∀ rd src s, exec (mk rd src) s = aluOp f store rd src s) (hspec : ∀ a b, f a b = spec a b) :
    aluRule mk base.toNat store spec := by
  refine ⟨fun rd src => encodesTo_of_encodeOperand hbase (hencode rd src), fun src s => ?flag, fun rd src s hrd h => ?_⟩
  case flag => rw [hexec, aluOp_flag]
  rw [hexec, aluOp_eq_aluNext hrd h, hspec]
  exact ⟨_, rfl, aluEffect_aluNext _ store _ s hrd⟩

/-! The instructions. -/

/-- Settles O21: the three are `aluOp` of `addOut` and `subOut`, which are R111 and R112 in numbers. -/
theorem addSubtractCompareRules : Obligations.AddSubtractCompareRules :=
  ⟨aluRule_of_aluOp (base := 0x18) (by decide) (fun _ _ => rfl) (fun _ _ _ => rfl) addOut_eq_addRule,
    aluRule_of_aluOp (base := 0x20) (by decide) (fun _ _ => rfl) (fun _ _ _ => rfl) subOut_eq_subRule,
    aluRule_of_aluOp (base := 0x28) (by decide) (fun _ _ => rfl) (fun _ _ _ => rfl) subOut_eq_subRule⟩

/-- Settles O22: a bitwise operation of words is that of their numbers, and V and C are always drawn. -/
theorem logicRules : Obligations.LogicRules :=
  ⟨aluRule_of_aluOp (base := 0x30) (by decide) (fun _ _ => rfl) (fun _ _ _ => rfl) andOut_eq_resultIs,
    aluRule_of_aluOp (base := 0x38) (by decide) (fun _ _ => rfl) (fun _ _ _ => rfl) orOut_eq_resultIs,
    aluRule_of_aluOp (base := 0x40) (by decide) (fun _ _ => rfl) (fun _ _ _ => rfl) xorOut_eq_resultIs⟩

/-- Settles O23: sum and product of words are those of their numbers modulo 2^16. -/
theorem scaledAddAndMultiplyRules : Obligations.ScaledAddAndMultiplyRules :=
  ⟨aluRule_of_aluOp (base := 0x48) (by decide) (fun _ _ => rfl) (fun _ _ _ => rfl) addsOut_eq_resultIs,
    aluRule_of_aluOp (base := 0x50) (by decide) (fun _ _ => rfl) (fun _ _ _ => rfl) mulOut_eq_resultIs⟩

end Sys2Proof.Proofs.ArithmeticRules

/-! PROOFS. SHLA, SHLL, SHRA and SHRL (R130 to R134): the shifted word and the bit moved out as numbers. -/

namespace Sys2Proof.Proofs.ShiftRules

open Sys2Proof Sys2Proof.Machine Sys2Proof.Proofs.ArithmeticRules

/-! Shifted words as numbers (R131 to R134). -/

theorem toNat_shiftLeft_word (a : Word) (n : Nat) : (a <<< n).toNat = a.toNat * 2 ^ n % 65536 := by
  rw [BitVec.toNat_shiftLeft, Nat.shiftLeft_eq]

theorem toNat_shiftRight_word (a : Word) (n : Nat) : (a >>> n).toNat = a.toNat / 2 ^ n := by
  rw [BitVec.toNat_ushiftRight, Nat.shiftRight_eq_div_pow]

/-- The arithmetic shift is the floor of the signed value over 2^n, in two's complement (R133). -/
theorem toNat_sshiftRight_word (a : Word) (n : Nat) :
    (a.sshiftRight n).toNat = (a.toInt / 2 ^ n % 65536).toNat := by
  rw [BitVec.sshiftRight, BitVec.toNat_ofInt, Int.shiftRight_eq_div_pow]
  norm_cast

/-- The bit a shift to the right moves out is the parity of the number. -/
theorem getLsbD_zero_eq_odd (a : Word) : a.getLsbD 0 = decide (a.toNat % 2 = 1) := by
  rw [← BitVec.testBit_toNat, Nat.testBit_zero]

/-- A shift obeys R130 for any reading, in numbers, of its value and of the bit it moves out: the two splits on the count are
those of the model. -/
theorem shiftOut_eq_shiftRule {op : ShiftOp} {f : Word → Nat → Nat} {out : Word → Bool}
    (hvalue : ∀ a n, (shiftValue op a n).toNat = f a n) (hout : ∀ a, shiftedOut op a = out a) (a n : Word) :
    shiftOut op a n = shiftRule (bigShiftOp op) f out a n := by
  have hresult : (shiftResult op a n).toNat =
      if n.toNat ≤ 15 then f a n.toNat else (Config.shiftBig (bigShiftOp op) a n).toNat := by
    rw [shiftResult, apply_ite BitVec.toNat, hvalue]
  have hone : n = 1 ↔ n.toNat = 1 := BitVec.toNat_eq (y := 1)
  simp only [shiftOut, shiftRule, aluOut_eq_resultIs, hresult, hone, hout]

/-- Settles O25: the four are `aluOp` of `shiftOut`, which is R130 (`shiftOut_eq_shiftRule`) for the value and the bit moved
out of each in numbers. -/
theorem shiftRules : Obligations.ShiftRules :=
  ⟨aluRule_of_aluOp (base := 0x80) (by decide) (fun _ _ => rfl) (fun _ _ _ => rfl)
      (shiftOut_eq_shiftRule (op := .shla) toNat_shiftLeft_word msb_eq_bit15),
    aluRule_of_aluOp (base := 0x88) (by decide) (fun _ _ => rfl) (fun _ _ _ => rfl)
      (shiftOut_eq_shiftRule (op := .shll) toNat_shiftLeft_word msb_eq_bit15),
    aluRule_of_aluOp (base := 0x90) (by decide) (fun _ _ => rfl) (fun _ _ _ => rfl)
      (shiftOut_eq_shiftRule (op := .shra) toNat_sshiftRight_word getLsbD_zero_eq_odd),
    aluRule_of_aluOp (base := 0x98) (by decide) (fun _ _ => rfl) (fun _ _ _ => rfl)
      (shiftOut_eq_shiftRule (op := .shrl) toNat_shiftRight_word getLsbD_zero_eq_odd)⟩

end Sys2Proof.Proofs.ShiftRules

/-! PROOFS. The jumps (R140 to R155): the two forms of a target, the conditions as facts about FLAG, and the rule of any
instruction in the shape of `jumpIf`. -/

namespace Sys2Proof.Proofs.JumpRules

open Sys2Proof Sys2Proof.Machine Sys2Proof.Proofs.LoadStoreRules

/-! The two forms of a target (R72). -/

theorem encodesTo_of_encodeTarget_direct {i : Instr} {base : Byte} {code : Nibble} {d : Word}
    (h : encode i = encodeTarget base code (.direct d)) : encodesTo i base.toNat code (0, some d) := by
  refine encodesTo_of_encode_eq (base := base) (form := 0) base.isLt (h.trans ?_)
  simp [encodeTarget]

theorem encodesTo_of_encodeTarget_indexed {i : Instr} {base : Byte} {code : Nibble} {d : Word} {rx : Reg}
    (hbase : base.toNat < 0xFF) (h : encode i = encodeTarget base code (.indexed d rx)) :
    encodesTo i (base.toNat + 1) code (rx.toNibble, some d) :=
  encodesTo_of_encode_eq (form := 1) (by omega) h

/-! The conditions (R141 to R154). -/

section
variable (f : Flag)

theorem condNZ_iff : condNZ f = true ↔ f.z = false := (Bool.not_eq_true' f.z).to_iff

theorem condNC_iff : condNC f = true ↔ f.c = false := (Bool.not_eq_true' f.c).to_iff

theorem condNM_iff : condNM f = true ↔ f.s = false := (Bool.not_eq_true' f.s).to_iff

theorem condNO_iff : condNO f = true ↔ f.v = false := (Bool.not_eq_true' f.v).to_iff

theorem condLT_iff : condLT f = true ↔ f.s ≠ f.v := bne_iff_ne

theorem condLE_iff : condLE f = true ↔ f.z = true ∨ f.s ≠ f.v :=
  (Bool.or_eq_true_iff (x := f.z) (y := condLT f)).trans (or_congr_right (condLT_iff f))

/-- JGE is the complement of JLT (R148). -/
theorem condGE_iff : condGE f = true ↔ ¬(f.s ≠ f.v) :=
  Bool.not_iff_not.trans (not_congr (condLT_iff f))

/-- JGT is the complement of JLE (R147). -/
theorem condGT_iff : condGT f = true ↔ ¬(f.z = true ∨ f.s ≠ f.v) :=
  Bool.not_iff_not.trans (not_congr (condLE_iff f))

theorem condLS_iff : condLS f = true ↔ f.z = true ∨ f.c = true := Bool.or_eq_true_iff

/-- JHI is the complement of JLS (R154). -/
theorem condHI_iff : condHI f = true ↔ f.z = false ∧ f.c = false :=
  (Bool.not_eq_true' (condLS f)).to_iff.trans Bool.or_eq_false_iff

end

/-! The effect of `jumpIf` (R140). -/

theorem jumpIf_taken {c : Flag → Bool} {s : State} (t : Target) (h : c s.flag = true) :
    jumpIf c t s = .next (s.withPc (targetAddr s t)) := by
  rw [jumpIf, if_pos h]

theorem jumpIf_not_taken {c : Flag → Bool} {s : State} (t : Target) (h : ¬ c s.flag = true) :
    jumpIf c t s = .next (s.withPc (s.pc + 4)) := by
  rw [jumpIf, if_neg h, nextPc_eq, if_pos rfl]

/-- An instruction in the shape of `jumpIf`, encoded with the condition code `cc`, obeys the rule of its condition. -/
theorem jumpRule_of_jumpIf {mk : Target → Instr} {cc : Nibble} {c : Flag → Bool} {cond : Flag → Prop}
    (hencode : ∀ t, encode (mk t) = encodeTarget 0xA0 cc t) (hexec : ∀ t s, exec (mk t) s = jumpIf c t s)
    (hcond : ∀ f, c f = true ↔ cond f) : jumpRule mk cc cond := by
  refine ⟨fun d => encodesTo_of_encodeTarget_direct (base := 0xA0) (hencode (.direct d)),
    fun d rx => encodesTo_of_encodeTarget_indexed (base := 0xA0) (by decide) (hencode (.indexed d rx)), fun t s h => ?taken,
    fun t s h => ?notTaken⟩
  case taken => rw [hexec, jumpIf_taken t ((hcond s.flag).2 h)]
  case notTaken => rw [hexec, jumpIf_not_taken t (mt (hcond s.flag).1 h)]

/-! The instructions. -/

/-- Settles O28: the nine are `jumpIf` of one flag, of its complement or of nothing. -/
theorem singleFlagJumps : Obligations.SingleFlagJumps :=
  ⟨jumpRule_of_jumpIf (c := condZ) (fun _ => rfl) (fun _ _ => rfl) fun _ => Iff.rfl,
    jumpRule_of_jumpIf (c := condC) (fun _ => rfl) (fun _ _ => rfl) fun _ => Iff.rfl,
    jumpRule_of_jumpIf (c := condM) (fun _ => rfl) (fun _ _ => rfl) fun _ => Iff.rfl,
    jumpRule_of_jumpIf (c := condO) (fun _ => rfl) (fun _ _ => rfl) fun _ => Iff.rfl,
    jumpRule_of_jumpIf (fun _ => rfl) (fun _ _ => rfl) condNZ_iff,
    jumpRule_of_jumpIf (fun _ => rfl) (fun _ _ => rfl) condNC_iff,
    jumpRule_of_jumpIf (fun _ => rfl) (fun _ _ => rfl) condNM_iff,
    jumpRule_of_jumpIf (fun _ => rfl) (fun _ _ => rfl) condNO_iff,
    jumpRule_of_jumpIf (c := condAlways) (fun _ => rfl) (fun _ _ => rfl) fun _ => iff_of_true rfl trivial⟩

/-- Settles O29: the six are `jumpIf` of the signed conditions on Z, S and V and of the unsigned ones on Z and C. -/
theorem relationJumps : Obligations.RelationJumps :=
  ⟨jumpRule_of_jumpIf (fun _ => rfl) (fun _ _ => rfl) condGT_iff,
    jumpRule_of_jumpIf (fun _ => rfl) (fun _ _ => rfl) condGE_iff,
    jumpRule_of_jumpIf (fun _ => rfl) (fun _ _ => rfl) condLE_iff,
    jumpRule_of_jumpIf (fun _ => rfl) (fun _ _ => rfl) condLT_iff,
    jumpRule_of_jumpIf (fun _ => rfl) (fun _ _ => rfl) condHI_iff,
    jumpRule_of_jumpIf (fun _ => rfl) (fun _ _ => rfl) condLS_iff⟩

end Sys2Proof.Proofs.JumpRules

/-! PROOFS. RET (R183): what a new stack pointer changes, and the return that pops the PC. -/

namespace Sys2Proof.Proofs.ReturnRules

open Sys2Proof Sys2Proof.Machine Sys2Proof.Proofs.LoadStoreRules

/-! The stack pointer in use as a destination (R12, R13). -/

/-- Register Dh taking a word is the bank in use taking it: that bank alone changes, and FLAG with its P, which selects the
bank, does not. -/
theorem activeSp_of_takes_sp {s t : State} {v : Word} (h : takes .sp v s t) :
    t.regs.get (activeSp s) = v ∧ sameRegsBut s t [activeSp s] ∧ t.flag = s.flag := by
  obtain ⟨hother, -, hframe⟩ := h
  obtain ⟨hread, hflag⟩ := hother (by decide)
  have hbank : physReg t .sp = some (activeSp s) :=
    (physReg_congr .sp (congrArg Flag.p hflag)).trans (physReg_sp s)
  rw [physReg_sp, Option.toList_some] at hframe
  exact ⟨(readReg_eq_get t .sp hbank).symm.trans hread, hframe, hflag⟩

/-! RET (R183). -/

theorem exec_ret (s : State) :
    exec .ret s = (popWord s).orRaise (nextPc s false) s fun r => .next (r.2.withPc r.1) := rfl

/-- Where the word at the stack pointer in use can be read, RET pops it into the PC, whatever the word is. -/
theorem exec_ret_ready {s : State} (h : wordReadable s (readReg s .sp) = true) :
    exec .ret s = .next ((writeReg s .sp (readReg s .sp + 2)).withPc (wordAt s (readReg s .sp))) := by
  rw [exec_ret, popWord_ready h, orRaise_ok]

/-- Settles O34: RET is one write of the stack pointer and a new PC (`exec_ret_ready`). -/
theorem returnRule : Obligations.ReturnRule := by
  refine ⟨encodesTo_of_encode_eq (base := 0xD0) (form := 0) (by decide) rfl, fun s h => ⟨_, exec_ret_ready h, rfl, ?_⟩⟩
  have htakes : takes .sp (readReg s .sp + 2) s
      ((writeReg s .sp (readReg s .sp + 2)).withPc (wordAt s (readReg s .sp))) := takes_of_writeReg rfl rfl
  obtain ⟨hsp, hregs, hflag⟩ := activeSp_of_takes_sp htakes
  exact ⟨hsp, hregs, hflag, sameElsewhere_writeReg_withPc s .sp _ _⟩

end Sys2Proof.Proofs.ReturnRules

/-! PROOFS. RN4020-RAM (R251): the storage byte behind port 2Eh, and what the reset line leaves of the device registers. -/

namespace Sys2Proof.Proofs.Rn4020Ram

open Sys2Proof Sys2Proof.Machine

/-! The port 2Eh. -/

theorem portOk_rn4020Ram (s : State) : portOk (portAddr s (.direct 0x2E)) = true := by
  rw [portAddr]
  decide

/-- A write to 2Eh keeps the low byte of the word. -/
theorem ioWrite_rn4020Ram (s : State) (v : Word) : (ioWrite s 0x2E v).dev.rn4020Ram = loByte v := rfl

/-- A write to a port, whichever it is, does not reach FLAG. -/
theorem ioWrite_flag (s : State) (p v : Word) : (ioWrite s p v).flag = s.flag := rfl

/-- A read of 2Eh answers the byte, zero-extended, and changes nothing. -/
theorem ioRead_rn4020Ram (s : State) : ioRead s 0x2E = (zextByte s.dev.rn4020Ram, s) := rfl

/-- OUT to 2Eh leaves the low byte of its register there, and FLAG as it was: IN is still allowed. -/
theorem exec_out_rn4020Ram (rd : Reg) {s : State} (hio : ioAllowed s.flag = true) :
    ∃ t, exec (.outPort rd (.direct 0x2E)) s = .next t ∧ t.dev.rn4020Ram = loByte (readReg s rd) ∧
      t.flag = s.flag :=
  ⟨_, execOut_ready hio (portOk_rn4020Ram s), ioWrite_rn4020Ram s (readReg s rd),
    ioWrite_flag s 0x2E (readReg s rd)⟩

/-- IN from 2Eh gives a register but FLAG the byte, zero-extended. -/
theorem exec_in_rn4020Ram {rd : Reg} {s : State} (hrd : rd ≠ .flag) (hio : ioAllowed s.flag = true) :
    ∃ u, exec (.inPort rd (.direct 0x2E)) s = .next u ∧ readReg u rd = zextByte s.dev.rn4020Ram := by
  refine ⟨_, execIn_ready hio (portOk_rn4020Ram s), ?_⟩
  rw [portAddr, ioRead_rn4020Ram]
  exact (readReg_congr rd rfl rfl).trans (readReg_writeReg_same s _ hrd)

/-! Reset (R34, R251). -/

/-- The reset line sets every device register to its reset value but RN4020-RAM. -/
theorem warmReset_dev (s : State) : s.warmReset.dev = { Devices.reset with rn4020Ram := s.dev.rn4020Ram } := rfl

/-- Settles O45: the byte OUT leaves (`exec_out_rn4020Ram`) is the one IN answers (`exec_in_rn4020Ram`), and reset takes
over that byte and no other (`warmReset_dev`). -/
theorem rnRamSurvivesReset : Obligations.RnRamSurvivesReset := by
  refine ⟨fun rd rd2 s hio hrd2 => ?_, fun s => ?_⟩
  · obtain ⟨t, hout, hram, hflag⟩ := exec_out_rn4020Ram rd hio
    obtain ⟨u, hin, hread⟩ := exec_in_rn4020Ram hrd2 (s := t) (by rw [hflag, hio])
    refine ⟨t, u, hout, hin, ?_⟩
    calc readReg u rd2 = zextByte t.dev.rn4020Ram := hread
      _ = zextByte (loByte (readReg s rd)) := by rw [hram]
      _ = readReg s rd &&& 0x00FF := zextByte_loByte _
  · rw [warmReset_dev]
    exact ⟨rfl, rfl⟩

end Sys2Proof.Proofs.Rn4020Ram

/-! PROOFS. What an instruction can leave of FLAG, the registers, memory and the system state, read off `InstrEffect` once for
each, and the statements about every step, which follow because a boundary touches memory and the draw counter alone. -/

namespace Sys2Proof.Proofs.EveryStep

open Sys2Proof Sys2Proof.Machine

/-! From a step to an instruction. -/

/-- A boundary changes nothing but memory and the draw counter. -/
theorem atBoundary_same {s s' : State} (h : atBoundary s s') :
    s'.regs = s.regs ∧ s'.flag = s.flag ∧ s'.pc = s.pc ∧ sameSystem s s' := by
  rcases h with rfl | rfl <;> simp [sameSystem, afterDraw]

theorem atBoundary_mem_wf {s s' : State} (h : atBoundary s s') (hs : Memory.wf s.mem = true) :
    Memory.wf s'.mem = true := by
  rcases h with rfl | rfl <;> exact dmaTick_mem_wf hs

/-- A step leaves what the boundary leaves, or what some instruction can leave from there: a trap of the boundary or of the
fetch is one that any instruction could take. -/
theorem step_instrEffect {s t : State} (h : step s = .next t) :
    ∃ s', atBoundary s s' ∧ (t = s' ∨ ∃ i, InstrEffect s' i t) := by
  cases step_next h with
  | stopped _ ht => exact ⟨t, .inl ht, .inl rfl⟩
  | entry i s' _ hs he _ _ => exact ⟨s', hs, .inr ⟨i, he⟩⟩
  | run i s' _ hs _ _ he => exact ⟨s', hs, .inr ⟨i, he⟩⟩

/-! Memory (R32, R40). -/

theorem putByte_mem_wf {s : State} (a : Word) (b : Byte) (h : Memory.wf s.mem = true) :
    Memory.wf (putByte s a b).mem = true := Memory.wf_write b a.isLt h

theorem putWord_mem_wf {s : State} (a v : Word) (h : Memory.wf s.mem = true) :
    Memory.wf (putWord s a v).mem = true := putByte_mem_wf _ _ (putByte_mem_wf _ _ h)

theorem instrEffect_mem_wf {s t : State} {i : Instr} (he : InstrEffect s i t) (h : Memory.wf s.mem = true) :
    Memory.wf t.mem = true := by
  cases he with
  | entry => exact putWord_mem_wf _ _ (putWord_mem_wf _ _ h)
  | storeByte => exact putByte_mem_wf _ _ h
  | storeWord => exact putWord_mem_wf _ _ h
  | push => simpa using putWord_mem_wf _ _ h
  | move | load | flags | compute | pop | ret | reti | input | output | halt => simpa [ioWrite] using h

/-- Settles O54: every write of an instruction, of a trap entry or of the microSD controller is a `Memory.write`. -/
theorem stepKeepsCanonicalMemory : Obligations.StepKeepsCanonicalMemory := by
  intro s t hs h
  obtain ⟨s', hb, rfl | ⟨i, he⟩⟩ := step_instrEffect h
  · exact atBoundary_mem_wf hb hs
  · exact instrEffect_mem_wf he (atBoundary_mem_wf hb hs)

/-! User mode (R14, R21, R242). -/

/-- A write to FLAG in user mode keeps E, P and I (R21). -/
theorem writeFlag_user {f : Flag} (hp : f.p = false) (w : Word) :
    (writeFlag f w).p = false ∧ (writeFlag f w).e = f.e ∧ (writeFlag f w).i = f.i := by
  simp [writeFlag, hp]

/-- No register write in user mode changes P, E, I or SSP. -/
theorem writeReg_user {s : State} (hp : s.flag.p = false) (r : Reg) (v : Word) :
    (writeReg s r v).flag.p = false ∧ (writeReg s r v).flag.e = s.flag.e ∧ (writeReg s r v).flag.i = s.flag.i ∧
      (writeReg s r v).regs.ssp = s.regs.ssp := by
  have hssp := StateRules.writeReg_user_ssp hp r v
  rw [writeReg_flag]
  split
  · obtain ⟨h1, h2, h3⟩ := writeFlag_user hp v
    exact ⟨h1, h2, h3, hssp⟩
  · exact ⟨hp, rfl, rfl, hssp⟩

/-- An instruction in user mode keeps P, E, I and SSP, or takes a trap. -/
theorem instrEffect_user {s t : State} {i : Instr} (hp : s.flag.p = false) (he : InstrEffect s i t) :
    (t.flag.p = false ∧ t.flag.e = s.flag.e ∧ t.flag.i = s.flag.i ∧ t.regs.ssp = s.regs.ssp) ∨
      (t.flag = { s.flag with p := true, e := false } ∧ t.regs = { s.regs with ssp := s.regs.ssp - 4 }) := by
  cases he with
  | entry => exact .inr ⟨rfl, by rw [← sub_two_sub_two]; rfl⟩
  | move | storeByte | storeWord | flags | output => exact .inl ⟨hp, rfl, rfl, rfl⟩
  | load rd _ v => exact .inl (writeReg_user hp rd v)
  | compute _ o rd v => exact .inl (writeReg_user (s := applyFlags o s) hp rd v)
  | push _ pa v sp => exact .inl (writeReg_user (s := putWord s pa v) hp .sp sp)
  | ret sp => exact .inl (writeReg_user hp .sp sp)
  | pop rd v sp =>
    obtain ⟨h1, h2, h3, h4⟩ := writeReg_user hp .sp sp
    obtain ⟨h5, h6, h7, h8⟩ := writeReg_user h1 rd v
    exact .inl ⟨h5, h6.trans h2, h7.trans h3, h8.trans h4⟩
  | reti sp f =>
    obtain ⟨h1, h2, h3⟩ := writeFlag_user hp f
    exact .inl ⟨h1, h2, h3, StateRules.writeReg_user_ssp hp .sp sp⟩
  | input rd p =>
    obtain ⟨h1, h2, h3, h4⟩ :=
      writeReg_user (s := (ioRead s (portAddr s p)).2) (by simpa using hp) rd (ioRead s (portAddr s p)).1
    exact .inl ⟨h1, by simpa using h2, by simpa using h3, by simpa using h4⟩
  | halt h => simp [hp] at h

/-- Settles O56, by `instrEffect_user`: a boundary leaves FLAG and the registers. -/
theorem userModeConfined : Obligations.UserModeConfined := by
  intro s t hp h
  obtain ⟨s', hb, ht⟩ := step_instrEffect h
  obtain ⟨hregs, hflag, -, -⟩ := atBoundary_same hb
  rw [← hflag] at hp
  rw [← hflag, ← hregs]
  rcases ht with rfl | ⟨i, he⟩
  · exact .inl ⟨hp, rfl, rfl, rfl⟩
  · exact instrEffect_user hp he

/-! The I/O space (R41, R241, R243). -/

/-- Without P and I an instruction leaves the system state, but for what an MMU exception records. -/
theorem instrEffect_unprivileged {s t : State} {i : Instr} (hp : s.flag.p = false) (hi : s.flag.i = false)
    (he : InstrEffect s i t) :
    t.dev = s.dev ∧ t.ioLog = s.ioLog ∧ t.ipl = s.ipl ∧ t.pending = s.pending ∧ t.halted = s.halted ∧
      t.mmu.on = s.mmu.on ∧ t.mmu.ctl = s.mmu.ctl ∧ t.mmu.tlb = s.mmu.tlb := by
  have hio : ¬ ioAllowed s.flag = true := by simp [ioAllowed, hp, hi]
  cases he with
  | input _ _ _ h | output _ _ _ h => exact absurd h hio
  | halt h => simp [hp] at h
  | entry | move | load | storeByte | storeWord | flags | compute | push | pop | ret | reti => simp

/-- Settles O57, by `instrEffect_unprivileged`: a boundary leaves the system state. -/
theorem userStepLeavesDevices : Obligations.UserStepLeavesDevices := by
  intro s t hp hi h
  obtain ⟨s', hb, ht⟩ := step_instrEffect h
  obtain ⟨-, hflag, -, hipl, hhalted, hpending, hmmu, hdev, hlog⟩ := atBoundary_same hb
  rw [← hdev, ← hlog, ← hipl, ← hpending, ← hhalted, ← hmmu]
  rcases ht with rfl | ⟨i, he⟩
  · simp
  · exact instrEffect_unprivileged (hflag ▸ hp) (hflag ▸ hi) he

/-! Leaving privileged mode (R242). -/

/-- A register but FLAG leaves FLAG, and so P. -/
theorem instrEffect_leaves_privileged {s t : State} {i : Instr} (hp : s.flag.p = true) (ht : t.flag.p = false)
    (he : InstrEffect s i t) : loadsFlag i = true := by
  cases he with
  | reti => rfl
  | load rd | pop rd | input rd =>
    refine decide_eq_true (Decidable.byContradiction fun hrd => ?_)
    simp [hrd, hp] at ht
  | entry => simp at ht
  | compute _ _ _ _ _ _ hrd => simp [hrd, hp] at ht
  | move | storeByte | storeWord | flags | push | ret | output | halt => simp [ioWrite, hp] at ht

/-- Settles O58: a boundary leaves P and a trap sets it, so the instruction run has cleared it. -/
theorem leavingPrivilegedMode : Obligations.LeavingPrivilegedMode := by
  intro s t hp h ht
  cases step_next h with
  | stopped _ hst => simp [hst, hp] at ht
  | entry _ _ _ _ _ hp' => simp [hp'] at ht
  | run i s' _ hs ha _ he =>
    obtain ⟨-, hflag, -⟩ := atBoundary_same hs
    exact ⟨i, s', ha, instrEffect_leaves_privileged (hflag ▸ hp) ht he⟩

/-! The device registers' layouts (R244 to R251). -/

/-- A device write keeps the layouts: a register with a layout takes what its mask lets through. -/
theorem layoutsHold_devWrite {d : Devices} (p : Nat) (v : Word) (h : layoutsHold d = true) :
    layoutsHold (devWrite d p v) = true := by
  simp only [layoutsHold, Bool.and_eq_true, decide_eq_true_eq] at h ⊢
  unfold devWrite
  simp only
  split <;> simp_all [BitVec.and_assoc]

/-- The end of a microSD transfer is no register with a layout. -/
theorem layoutsHold_sdBusy (d : Devices) (b : Bool) : layoutsHold { d with sdBusy := b } = layoutsHold d := rfl

theorem instrEffect_layoutsHold {s t : State} {i : Instr} (he : InstrEffect s i t) (h : layoutsHold s.dev = true) :
    layoutsHold t.dev = true := by
  cases he with
  | output => exact layoutsHold_devWrite _ _ h
  | input rd p =>
    rw [State.dev_withPc, writeReg_dev, ioRead_dev, layoutsHold_sdBusy]
    exact h
  | entry | move | load | storeByte | storeWord | flags | compute | push | pop | ret | reti | halt => simpa using h

/-- Settles O55: only OUT writes a register with a layout (`instrEffect_layoutsHold`). -/
theorem stepKeepsDeviceLayouts : Obligations.StepKeepsDeviceLayouts := by
  intro s t hs h
  obtain ⟨s', hb, ht⟩ := step_instrEffect h
  obtain ⟨-, -, -, -, -, -, -, hdev, -⟩ := atBoundary_same hb
  rw [← hdev] at hs
  rcases ht with rfl | ⟨i, he⟩
  · exact hs
  · exact instrEffect_layoutsHold he hs

/-! The writers of FLAG (R30). -/

/-- The flags an instruction that does not load FLAG leaves: I and U always, and V, C, S and Z if it is not one of the
fourteen flag-changing ones. -/
theorem instrEffect_flags {s t : State} {i : Instr} (he : InstrEffect s i t) (hl : loadsFlag i = false) :
    t.flag.i = s.flag.i ∧ t.flag.u = s.flag.u ∧
      (i.flagChangingRd = none →
        t.flag.v = s.flag.v ∧ t.flag.c = s.flag.c ∧ t.flag.s = s.flag.s ∧ t.flag.z = s.flag.z) := by
  cases he with
  | flags _ _ _ h => exact ⟨rfl, rfl, fun hn => absurd hn h⟩
  | compute _ _ _ _ _ h hrd => exact ⟨by simp [hrd], by simp [hrd], fun hn => absurd hn h⟩
  | load rd | pop rd | input rd =>
    have hrd : rd ≠ .flag := of_decide_eq_false hl
    simp [hrd]
  | reti => cases hl
  | entry | move | storeByte | storeWord | push | ret | output | halt => simp [ioWrite]

/-- Settles O60, by `instrEffect_flags`. -/
theorem flagWriters : Obligations.FlagWriters := fun _ _ _ h hl => instrEffect_flags (exec_next h) hl

end Sys2Proof.Proofs.EveryStep

/-! PROOFS. The round trips between instructions and their words (R70 to R77): each piece of the decoder reads back the fields
that the encoder's piece for the same row wrote, and encodes back to the word it read. -/

namespace Sys2Proof.Proofs.RoundTrip

open Sys2Proof Sys2Proof.Machine Sys2Proof.Proofs.EncodingRules Sys2Proof.Proofs.LoadStoreRules

/-! The fields the decoder looks at, of a first word made of fields. -/

@[simp] theorem rdReg_firstWord (op : Byte) (rd : Reg) (rx : Nibble) : rdReg (firstWord op rd.toNibble rx) = rd := by
  simp [rdReg]

@[simp] theorem rxReg_firstWord (op : Byte) (rd : Nibble) (rx : Reg) : rxReg (firstWord op rd rx.toNibble) = rx := by
  simp [rxReg]

@[simp] theorem formOf_firstWord (op : Byte) (rd rx : Nibble) : formOf (firstWord op rd rx) = op.toNat % 8 := by
  simp [formOf]

@[simp] theorem rowOf_firstWord (op : Byte) (rd rx : Nibble) : rowOf (firstWord op rd rx) = op.toNat / 8 := by
  simp [rowOf]

/-- A base opcode is the first of its row, and the form counts from there (R71). -/
theorem toNat_base_add {base : Byte} {form : Nat} (hbase : base.toNat % 8 = 0) (hform : form ≤ 7) :
    (base + BitVec.ofNat 8 form).toNat = base.toNat + form := by
  have := base.isLt
  rw [BitVec.toNat_add, BitVec.toNat_ofNat]
  omega

theorem rowOf_base {base : Byte} {form : Nat} (rd rx : Nibble) (hbase : base.toNat % 8 = 0) (hform : form ≤ 7) :
    rowOf (firstWord (base + BitVec.ofNat 8 form) rd rx) = base.toNat / 8 := by
  rw [rowOf_firstWord, toNat_base_add hbase hform]
  omega

theorem formOf_base {base : Byte} {form : Nat} (rd rx : Nibble) (hbase : base.toNat % 8 = 0) (hform : form ≤ 7) :
    formOf (firstWord (base + BitVec.ofNat 8 form) rd rx) = form := by
  rw [formOf_firstWord, toNat_base_add hbase hform]
  omega

/-! Decoding what was encoded. -/

/-- The decoder's answer to a first word is the instruction `i`, of which the second word, if there is one, is `second`. -/
def Reads (x : Except Reject FirstWord) (i : Instr) : Option Word → Prop
  | none => x = .ok (.complete i)
  | some d => ∃ finish, x = .ok (.needsSecond finish) ∧ finish d = i

theorem reads_rxZero {w : Word} {r : FirstWord} {i : Instr} {second : Option Word} (hx : rxField w = 0)
    (h : Reads (.ok r) i second) : Reads (rxZero w r) i second := by
  rwa [rxZero, if_pos hx]

theorem reads_needsSecond (k : Word → Instr) (d : Word) : Reads (.ok (.needsSecond k)) (k d) (some d) := ⟨k, rfl, rfl⟩

section
variable {w : Word}

theorem reads_decodeMem (k : MemForm → Instr) {m : MemForm} (hf : formOf w = memFormNumber m)
    (hx : rxField w = (memFields m).1) : Reads (decodeMem w k) (k m) (memFields m).2 := by
  unfold decodeMem rxReg
  rw [hf, hx]
  cases m with
  | direct d => exact reads_rxZero hx (reads_needsSecond _ d)
  | indexed d rx => exact ⟨_, rfl, by rw [memFields, ofNibble_toNibble]⟩
  | fpRel d4 => rfl
  | indirect rx | byteIndirect rx => simp [Reads, memFields, memFormNumber]

theorem reads_decodeOperand (k : Operand → Instr) {src : Operand} (hf : formOf w = formNumber src)
    (hx : rxField w = (operandFields src).1) : Reads (decodeOperand w k) (k src) (operandFields src).2 := by
  cases src with
  | mem m =>
    have hm := reads_decodeMem (fun m => k (.mem m)) hf hx
    unfold decodeOperand
    rw [hf]
    cases m <;> exact hm
  | imm d =>
    unfold decodeOperand
    rw [hf]
    exact reads_rxZero hx (reads_needsSecond _ d)
  | reg rs =>
    unfold decodeOperand rxReg
    rw [hf, hx]
    simp [Reads, operandFields, formNumber]
  | imm4 i4 =>
    unfold decodeOperand
    rw [hf, hx]
    rfl

end

/-- The words of a jump or CALL read back through `decodeTarget`, whatever stands in the Rd field. -/
theorem reads_decodeTarget {base : Byte} (code : Nibble) (k : Target → Instr) (t : Target) (hbase : base.toNat % 8 = 0) :
    ∃ w d, encodeTarget base code t = [w, d] ∧ rowOf w = base.toNat / 8 ∧ formOf w ≤ 1 ∧ rdField w = code ∧
      Reads (decodeTarget w k) (k t) (some d) := by
  cases t with
  | direct d =>
    refine ⟨_, d, rfl, by simp, by simp [hbase], by simp, ?_⟩
    simp only [decodeTarget, formOf_firstWord, hbase]
    exact reads_rxZero (by simp) (reads_needsSecond _ d)
  | indexed d rx =>
    have hform : formOf (firstWord (base + 1) code rx.toNibble) = 1 := formOf_base (form := 1) _ _ hbase (by decide)
    refine ⟨_, d, rfl, rowOf_base (form := 1) _ _ hbase (by decide), hform.le, by simp, ?_⟩
    simp only [decodeTarget, hform, rxReg_firstWord]
    exact reads_needsSecond _ d

/-- `ws` are a first word that reads as `i` and its second word, if there is one. -/
def ReadsAs (i : Instr) (ws : List Word) : Prop :=
  ∃ w second, ws = w :: second.toList ∧ Reads (decodeFirst w) i second

theorem decodeBytes_of_readsAs {i : Instr} {ws : List Word} (h : ReadsAs i ws) (rest : List Byte) :
    decodeBytes (ws.flatMap wordBytes ++ rest) = .ok (i, rest) := by
  obtain ⟨w, second, rfl, hr⟩ := h
  cases second with
  | none =>
    have hd : decodeFirst w = .ok (.complete i) := hr
    simp [decodeBytes, wordBytes, hd]
  | some d =>
    obtain ⟨finish, hd, hi⟩ := hr
    simp [decodeBytes, wordBytes, hd, hi]

/-- An instruction with an operand reads back if its row of the opcode map is the one its base opcode names. -/
theorem readsAs_operand {mk : Reg → Operand → Instr} {base : Byte} {rd : Reg} {src : Operand}
    (hencode : encode (mk rd src) = encodeOperand base rd src) (hbase : base.toNat % 8 = 0)
    (hrow : ∀ w, rowOf w = base.toNat / 8 → decodeFirst w = decodeOperand w (mk (rdReg w))) :
    ReadsAs (mk rd src) (encode (mk rd src)) := by
  refine ⟨_, _, hencode.trans (encodeOperand_eq base rd src), ?_⟩
  rw [hrow _ (rowOf_base _ _ hbase (formNumber_le src)), rdReg_firstWord]
  exact reads_decodeOperand _ (formOf_base _ _ hbase (formNumber_le src)) (by simp)

/-- A jump reads back if its code is the one the table of R77 gives it. -/
theorem readsAs_jump {k : Target → Instr} {cc : Nibble} {t : Target} (hencode : encode (k t) = encodeTarget 0xA0 cc t)
    (hjump : jumpOf cc = some k) : ReadsAs (k t) (encode (k t)) := by
  obtain ⟨w, d, hw, hrow, -, hrd, hr⟩ := reads_decodeTarget (base := 0xA0) cc k t rfl
  refine ⟨w, some d, hencode.trans hw, ?_⟩
  have hfirst : decodeFirst w = decodeTarget w k := by simp [decodeFirst, decodeJump, hrow, hrd, hjump]
  rwa [hfirst]

theorem readsAs_call (t : Target) : ReadsAs (.call t) (encode (.call t)) := by
  obtain ⟨w, d, hw, hrow, -, hrd, hr⟩ := reads_decodeTarget (base := 0xA8) 0 .call t rfl
  refine ⟨w, some d, hw, ?_⟩
  have hfirst : decodeFirst w = decodeTarget w .call := by simp [decodeFirst, decodeCall, hrow, hrd]
  rwa [hfirst]

theorem readsAs_st (rd : Reg) (m : MemForm) : ReadsAs (.st rd m) (encode (.st rd m)) := by
  refine ⟨_, _, encodeMem_eq 0x10 rd m, ?_⟩
  have hfirst : ∀ w, rowOf w = 2 → decodeFirst w = decodeMem w (.st (rdReg w)) := fun w h => by simp [decodeFirst, h]
  rw [hfirst _ (rowOf_base _ _ rfl (memFormNumber_le m)), rdReg_firstWord]
  exact reads_decodeMem _ (formOf_base _ _ rfl (memFormNumber_le m)) (by simp)

/-- IN and OUT read back if their row is the one their base opcode names. -/
theorem readsAs_port {mk : Reg → Port → Instr} {base : Byte} {rd : Reg} {p : Port}
    (hencode : encode (mk rd p) = encodePort base rd p) (hbase : base.toNat % 8 = 0)
    (hrow : ∀ w, rowOf w = base.toNat / 8 → decodeFirst w = decodePort w (mk (rdReg w))) :
    ReadsAs (mk rd p) (encode (mk rd p)) := by
  cases p with
  | direct d =>
    refine ⟨firstWord base rd.toNibble 0, some d, hencode, ?_⟩
    rw [hrow _ (rowOf_firstWord _ _ _), rdReg_firstWord, decodePort, formOf_firstWord, hbase]
    exact reads_rxZero (by simp) (reads_needsSecond _ d)
  | indirect rx =>
    refine ⟨firstWord (base + 6) rd.toNibble rx.toNibble, none, hencode, ?_⟩
    have hform : formOf (firstWord (base + 6) rd.toNibble rx.toNibble) = 6 := formOf_base (form := 6) _ _ hbase (by decide)
    have hrow6 : rowOf (firstWord (base + 6) rd.toNibble rx.toNibble) = base.toNat / 8 :=
      rowOf_base (form := 6) _ _ hbase (by decide)
    rw [hrow _ hrow6, rdReg_firstWord, decodePort, hform, rxReg_firstWord]
    rfl

/-- Every encoding reads as its instruction. -/
theorem readsAs_encode (i : Instr) : ReadsAs i (encode i) := by
  cases i with
  | ld rd src | add rd src | sub rd src | cmp rd src | and rd src | or rd src | xor rd src | adds rd src | mul rd src
  | div rd src | mod rd src | shla rd src | shll rd src | shra rd src | shrl rd src =>
    exact readsAs_operand rfl rfl fun w h => by simp [decodeFirst, h]
  | st rd m => exact readsAs_st rd m
  | jz t | jc t | jm t | jo t | jgt t | jge t | jle t | jlt t | jnz t | jnc t | jnm t | jno t | jhi t | jls t | jmp t =>
    exact readsAs_jump rfl rfl
  | call t => exact readsAs_call t
  | inPort rd p | outPort rd p => exact readsAs_port rfl rfl fun w h => by simp [decodeFirst, h]
  | push rd | pop rd => exact ⟨_, none, rfl, by simp [Reads, decodeFirst, rxZero]⟩
  | no | ret | reti | svc | halt => exact ⟨_, none, rfl, rfl⟩

/-- Settles O1, by `readsAs_encode`. -/
theorem decodeOfEncode : Obligations.DecodeOfEncode := fun i rest => decodeBytes_of_readsAs (readsAs_encode i) rest

/-! Encoding what was decoded. -/

/-- The words an answer of the decoder was read from: the first, and the second if it asks for one. -/
def wordsOf (w d : Word) : FirstWord → List Word
  | .complete _ => [w]
  | .needsSecond _ => [w, d]

/-- What the decoder accepts of the first word `w` encodes back to the words it was read from. -/
def EncodesBack (w : Word) (x : Except Reject FirstWord) : Prop :=
  ∀ r d, x = .ok r → encode (instrOf r d) = wordsOf w d r

section
variable {w : Word}

theorem encodesBack_error (e : Reject) : EncodesBack w (.error e) := fun _ _ h => by cases h

theorem encodesBack_complete {i : Instr} (h : encode i = [w]) : EncodesBack w (.ok (.complete i)) :=
  fun _ _ hr => by cases hr; exact h

theorem encodesBack_needsSecond {k : Word → Instr} (h : ∀ d, encode (k d) = [w, d]) :
    EncodesBack w (.ok (.needsSecond k)) :=
  fun _ d hr => by cases hr; exact h d

theorem encodesBack_rxZero {r : FirstWord} (h : rxField w = 0 → EncodesBack w (.ok r)) : EncodesBack w (rxZero w r) := by
  unfold rxZero
  split
  case isTrue hx => exact h hx
  case isFalse => exact encodesBack_error _

theorem encodesBack_wholeWord {pattern : Word} {i : Instr} (h : encode i = [pattern]) :
    EncodesBack w (wholeWord w pattern i) := by
  unfold wholeWord
  split
  case isTrue hw => exact encodesBack_complete (hw ▸ h)
  case isFalse => exact encodesBack_error _

/-- A word is its base opcode plus the form, and its two other fields. -/
theorem firstWord_base {base : Byte} {f : Nat} (hbase : base.toNat = 8 * rowOf w) (hf : formOf w = f) :
    firstWord (base + BitVec.ofNat 8 f) (rdField w) (rxField w) = w := by
  have hop : opField w = base + BitVec.ofNat 8 f := by
    refine opField_eq _ rfl hf ?_
    rw [toNat_base_add (by omega) (by have := formOf_lt w; omega), hbase]
  rw [← hop, firstWord_fields]

@[simp] theorem toNibble_rdReg : (rdReg w).toNibble = rdField w := toNibble_ofNibble _

@[simp] theorem toNibble_rxReg : (rxReg w).toNibble = rxField w := toNibble_ofNibble _

theorem encodeMem_back {base : Byte} {m : MemForm} (hbase : base.toNat = 8 * rowOf w) (hf : formOf w = memFormNumber m)
    (hx : (memFields m).1 = rxField w) : encodeMem base (rdReg w) m = w :: (memFields m).2.toList := by
  rw [encodeMem_eq, toNibble_rdReg, hx, firstWord_base hbase hf]

theorem encodeOperand_back {base : Byte} {src : Operand} (hbase : base.toNat = 8 * rowOf w)
    (hf : formOf w = formNumber src) (hx : (operandFields src).1 = rxField w) :
    encodeOperand base (rdReg w) src = w :: (operandFields src).2.toList := by
  rw [encodeOperand_eq, toNibble_rdReg, hx, firstWord_base hbase hf]

theorem encodesBack_decodeMem {base : Byte} {k : MemForm → Instr} (hk : ∀ m, encode (k m) = encodeMem base (rdReg w) m)
    (hbase : base.toNat = 8 * rowOf w) : EncodesBack w (decodeMem w k) := by
  unfold decodeMem
  split <;> rename_i hf
  case h_1 =>
    exact encodesBack_rxZero fun hx => encodesBack_needsSecond fun d => (hk _).trans (encodeMem_back hbase hf hx.symm)
  case h_2 => exact encodesBack_needsSecond fun d => (hk _).trans (encodeMem_back hbase hf toNibble_rxReg)
  case h_3 => exact encodesBack_complete ((hk _).trans (encodeMem_back hbase hf rfl))
  case h_4 => exact encodesBack_complete ((hk _).trans (encodeMem_back hbase hf toNibble_rxReg))
  case h_5 => exact encodesBack_complete ((hk _).trans (encodeMem_back hbase hf toNibble_rxReg))
  case h_6 => exact encodesBack_error _

theorem encodesBack_decodeOperand {base : Byte} {k : Operand → Instr}
    (hk : ∀ src, encode (k src) = encodeOperand base (rdReg w) src) (hbase : base.toNat = 8 * rowOf w) :
    EncodesBack w (decodeOperand w k) := by
  unfold decodeOperand
  split <;> rename_i hf
  case h_1 =>
    exact encodesBack_rxZero fun hx =>
      encodesBack_needsSecond fun d => (hk _).trans (encodeOperand_back hbase hf hx.symm)
  case h_2 => exact encodesBack_complete ((hk _).trans (encodeOperand_back hbase hf toNibble_rxReg))
  case h_3 => exact encodesBack_complete ((hk _).trans (encodeOperand_back hbase hf rfl))
  case h_4 => exact encodesBack_decodeMem (fun m => hk (.mem m)) hbase

theorem encodesBack_decodeTarget {base : Byte} {k : Target → Instr}
    (hk : ∀ t, encode (k t) = encodeTarget base (rdField w) t) (hbase : base.toNat = 8 * rowOf w) :
    EncodesBack w (decodeTarget w k) := by
  have hword : ∀ {f}, formOf w = f → firstWord (base + BitVec.ofNat 8 f) (rdField w) (rxField w) = w :=
    firstWord_base hbase
  unfold decodeTarget
  split <;> rename_i hf
  case h_1 =>
    refine encodesBack_rxZero fun hx => encodesBack_needsSecond fun d => ?_
    rw [hk, encodeTarget, ← hx]
    simpa using hword hf
  case h_2 =>
    refine encodesBack_needsSecond fun d => ?_
    rw [hk, encodeTarget, toNibble_rxReg]
    simpa using hword hf
  case h_3 => exact encodesBack_error _

theorem encodesBack_decodePort {base : Byte} {k : Port → Instr}
    (hk : ∀ p, encode (k p) = encodePort base (rdReg w) p) (hbase : base.toNat = 8 * rowOf w) :
    EncodesBack w (decodePort w k) := by
  have hword : ∀ {f}, formOf w = f → firstWord (base + BitVec.ofNat 8 f) (rdField w) (rxField w) = w :=
    firstWord_base hbase
  unfold decodePort
  split <;> rename_i hf
  case h_1 =>
    refine encodesBack_rxZero fun hx => encodesBack_needsSecond fun d => ?_
    rw [hk, encodePort, toNibble_rdReg, ← hx]
    simpa using hword hf
  case h_2 =>
    refine encodesBack_complete ?_
    rw [hk, encodePort, toNibble_rdReg, toNibble_rxReg]
    simpa using hword hf
  case h_3 => exact encodesBack_error _
  case h_4 => exact encodesBack_error _

/-- The table of R77 and the encoder name the jumps alike. -/
theorem encode_jumpOf {n : Nibble} {k : Target → Instr} (h : jumpOf n = some k) (t : Target) :
    encode (k t) = encodeTarget 0xA0 n t := by
  have hlt : n.toNat < 16 := n.isLt
  have hn : n = BitVec.ofNat 4 n.toNat := by simp
  rw [hn] at h ⊢
  generalize n.toNat = m at *
  interval_cases m <;> cases h <;> rfl

theorem encodesBack_decodeJump (hrow : rowOf w = 20) : EncodesBack w (decodeJump w) := by
  unfold decodeJump
  split
  case h_1 k hk => exact encodesBack_decodeTarget (base := 0xA0) (encode_jumpOf hk) (by rw [hrow]; rfl)
  case h_2 => split <;> exact encodesBack_error _

/-- CALL in the form 0 or 1 has Rd = 0h, and no other form is decoded. -/
theorem encodesBack_decodeCall (hrow : rowOf w = 21) : EncodesBack w (decodeCall w) := by
  unfold decodeCall
  split
  case isFalse => exact encodesBack_error _
  case isTrue h =>
    rcases h with hrd | hform
    · exact encodesBack_decodeTarget (base := 0xA8) (fun t => by rw [hrd]; rfl) (by rw [hrow]; rfl)
    · have hundefined : decodeTarget w .call = .error .undefinedOpcode :=
        (decodeTarget_error w _ _).2 (.inr ⟨hform, rfl⟩)
      exact hundefined ▸ encodesBack_error _

/-- Whatever the decoder accepts encodes back, row by row of the opcode map. -/
theorem encodesBack_decodeFirst (w : Word) : EncodesBack w (decodeFirst w) := by
  have hpush : ∀ {op : Byte} {i : Instr}, encode i = [firstWord op (rdReg w).toNibble 0] → opField w = op →
      EncodesBack w (rxZero w (.complete i)) := by
    intro op i hi hop
    refine encodesBack_rxZero fun hx => encodesBack_complete ?_
    rw [hi, toNibble_rdReg, ← hop, ← hx, firstWord_fields]
  unfold decodeFirst
  simp only
  split <;> rename_i hr
  case h_1 | h_24 | h_25 =>
    split
    · exact encodesBack_wholeWord (by decide)
    · exact encodesBack_error _
  case h_3 => exact encodesBack_decodeMem (fun _ => rfl) (by rw [hr]; rfl)
  case h_18 => exact encodesBack_decodeJump hr
  case h_19 => exact encodesBack_decodeCall hr
  case h_20 | h_21 => exact encodesBack_decodePort (fun _ => rfl) (by rw [hr]; rfl)
  case h_22 =>
    split <;> rename_i hf
    · exact hpush rfl (opField_eq _ hr hf rfl)
    · exact hpush rfl (opField_eq _ hr hf rfl)
    · exact encodesBack_error _
  case h_23 =>
    split
    · exact encodesBack_wholeWord (by decide)
    · exact encodesBack_wholeWord (by decide)
    · exact encodesBack_error _
  case h_26 => exact encodesBack_error _
  all_goals exact encodesBack_decodeOperand (fun _ => rfl) (by rw [hr]; rfl)

end

/-- Settles O2, by `encodesBack_decodeFirst`. -/
theorem encodeOfDecode : Obligations.EncodeOfDecode := by
  intro w1 w2 i h
  obtain ⟨r, hr, rfl⟩ := (decode_ok_iff w1 w2 i).1 h
  have hback := encodesBack_decodeFirst w1 r w2 hr
  cases r with
  | complete => exact .inr hback
  | needsSecond => exact .inl hback

/-- Settles O4: the decoder evaluates to the instruction on each word. -/
theorem sampleWordsDecode : Obligations.SampleWordsDecode :=
  ⟨rfl, rfl, rfl, rfl, rfl, rfl, rfl, rfl, rfl, rfl, rfl⟩

end Sys2Proof.Proofs.RoundTrip

/-! PROOFS. CALL, PUSH and POP (R156, R180 to R182): one lemma for what a push leaves, and why a pop after it restores every
register. -/

namespace Sys2Proof.Proofs.StackRules

open Sys2Proof Sys2Proof.Machine Sys2Proof.Proofs.LoadStoreRules Sys2Proof.Proofs.StateRules

/-! The registers after a new stack pointer, and after a register takes its own value. -/

/-- The registers after a register write depend on the registers and FLAG alone. -/
theorem regs_writeReg_congr {s t : State} (r : Reg) (v : Word) (hregs : t.regs = s.regs) (hflag : t.flag = s.flag) :
    (writeReg t r v).regs = (writeReg s r v).regs :=
  Regs.eq_of_get fun q => by rw [writeReg_get, writeReg_get, physReg_congr r (congrArg Flag.p hflag), hregs]

/-- Register Dh taking a word changes the bank in use and no other register. -/
theorem activeSp_of_regs {s t : State} {v : Word} (h : t.regs = (writeReg s .sp v).regs) :
    t.regs.get (activeSp s) = v ∧ sameRegsBut s t [activeSp s] := by
  have hget : ∀ q, t.regs.get q = if activeSp s = q then v else s.regs.get q := fun q => by
    simp only [h, writeReg_get, physReg_sp, Option.some_inj]
  refine ⟨(hget _).trans (if_pos rfl), fun q hq => (hget q).trans (if_neg fun e => hq ?_)⟩
  rw [← e]
  exact List.mem_singleton_self _

/-- Where only the stack pointer in use has moved, moving it back restores every register. -/
theorem regs_writeReg_sp_back {s t : State} (hflag : t.flag = s.flag) (h : sameRegsBut s t [activeSp s]) :
    (writeReg t .sp (readReg s .sp)).regs = s.regs := by
  refine Regs.eq_of_get fun q => ?_
  have hbank : physReg t .sp = some (activeSp s) := (physReg_congr .sp (congrArg Flag.p hflag)).trans (physReg_sp s)
  rw [writeReg_get, hbank, readReg_sp]
  by_cases hq : activeSp s = q
  · rw [if_pos (congrArg some hq), hq]
  · rw [if_neg fun e => hq (Option.some_inj.1 e)]
    exact h q fun hm => hq (List.mem_singleton.1 hm).symm

/-- The word FLAG reads as holds all of it (R20). -/
theorem flagOfWord_flagWord (f : Flag) : flagOfWord (flagWord f) = f := by
  simp only [flagOfWord, getLsbD_flagWord]
  rfl

theorem writeFlag_flagWord (f : Flag) : writeFlag f (flagWord f) = f := by
  simp [writeFlag, flagOfWord_flagWord]

/-- A register that takes what it reads as changes nothing. -/
theorem writeReg_readReg (s : State) (r : Reg) :
    (writeReg s r (readReg s r)).regs = s.regs ∧ (writeReg s r (readReg s r)).flag = s.flag := by
  constructor
  · refine Regs.eq_of_get fun q => ?_
    rw [writeReg_get]
    split
    case isTrue hq => exact readReg_eq_get s r hq
    case isFalse => rfl
  · rw [writeReg_flag]
    split
    case isTrue hr => rw [hr, readReg, writeFlag_flagWord]
    case isFalse => rfl

/-! Odd addresses (R46). -/

theorem readWord_odd {s : State} {a : Word} (k : AccessKind) (hmmu : s.mmu.on = false) (hodd : isOdd a = true) :
    readWord s k a = .fault .misaligned := by
  rw [readWord_off k a hmmu, if_pos hodd]

theorem writeWord_odd {s : State} {a : Word} (v : Word) (hmmu : s.mmu.on = false) (hodd : isOdd a = true) :
    writeWord s a v = .fault .misaligned := by
  rw [writeWord_off a v hmmu, if_pos hodd]

/-! The push (R180). -/

/-- The state after a push: the word stands below the stack pointer in use, which has moved there. -/
def pushed (s : State) (v : Word) : State := writeReg (putWord s (readReg s .sp - 2) v) .sp (readReg s .sp - 2)

/-- What a push of `v` and a new PC leave. -/
def pushEffect (v : Word) (s t : State) : Prop :=
  wordAt t (readReg s .sp - 2) = v ∧ t.regs.get (activeSp s) = readReg s .sp - 2 ∧ sameRegsBut s t [activeSp s] ∧
  t.flag = s.flag ∧ sameBytesBut s t [readReg s .sp - 2, readReg s .sp - 2 + 1] ∧ sameSystem s t ∧ t.draws = s.draws

section
variable {s : State}

theorem pushed_effect (v pc : Word) (h : wordWritable s (readReg s .sp - 2) = true) :
    pushEffect v s ((pushed s v).withPc pc) := by
  obtain ⟨-, -, hfree0, hfree1⟩ := wordWritable_iff.1 h
  have hbytes : ∀ a, byteAt ((pushed s v).withPc pc) a = byteAt (putWord s (readReg s .sp - 2) v) a := fun a =>
    byteAt_congr a (by simp [pushed]) (by simp [pushed])
  obtain ⟨hsp, hregs⟩ := activeSp_of_regs (s := s) (t := (pushed s v).withPc pc)
    (regs_writeReg_congr .sp (readReg s .sp - 2) rfl rfl)
  refine ⟨?word, hsp, hregs, by simp [pushed], fun a ha => ?bytes, by simp [sameSystem, pushed], by simp [pushed]⟩
  case word =>
    rw [wordAt, hbytes, hbytes]
    exact wordAt_putWord_same s _ v hfree0 hfree1
  case bytes =>
    obtain ⟨hne0, hne1⟩ : a ≠ readReg s .sp - 2 ∧ a ≠ readReg s .sp - 2 + 1 := by simpa using ha
    rw [hbytes, byteAt_putWord s _ v a hfree0 hfree1, if_neg hne0, if_neg hne1]

/-- After a push the stack pointer in use can be read through, and gives the word. -/
theorem readable_of_pushEffect {t : State} {v : Word} (h : wordWritable s (readReg s .sp - 2) = true)
    (ht : pushEffect v s t) :
    readReg t .sp = readReg s .sp - 2 ∧ wordReadable t (readReg t .sp) = true ∧ wordAt t (readReg t .sp) = v := by
  obtain ⟨hword, hsp, -, hflag, -, ⟨-, -, -, hmmu, -⟩, -⟩ := ht
  obtain ⟨hoff, heven, -⟩ := wordWritable_iff.1 h
  have hread : readReg t .sp = readReg s .sp - 2 := by
    rw [readReg_sp, activeSp, hflag]
    exact hsp
  rw [hread]
  exact ⟨rfl, wordReadable_iff.2 ⟨hmmu ▸ hoff, heven⟩, hword⟩

/-- Popping right after a push puts the stack pointer back, and with it every register. -/
theorem regs_pop_of_pushEffect {t : State} {v : Word} (h : wordWritable s (readReg s .sp - 2) = true)
    (ht : pushEffect v s t) : (writeReg t .sp (readReg t .sp + 2)).regs = s.regs := by
  obtain ⟨hread, -, -⟩ := readable_of_pushEffect h ht
  obtain ⟨-, -, hregs, hflag, -⟩ := ht
  rw [hread, BitVec.sub_add_cancel]
  exact regs_writeReg_sp_back hflag hregs

theorem pushWord_odd (v : Word) (hmmu : s.mmu.on = false) (hodd : isOdd (readReg s .sp) = true) :
    pushWord s v = .fault .misaligned := by
  simp only [pushWord, writeWord_odd v hmmu ((isOdd_sub_two _).trans hodd)]

theorem popWord_odd (hmmu : s.mmu.on = false) (hodd : isOdd (readReg s .sp) = true) :
    popWord s = .fault .misaligned := by
  simp only [popWord, readWord_odd .read hmmu hodd]

end

/-! CALL (R156). -/

theorem exec_call (t : Target) (s : State) :
    exec (.call t) s = (pushWord s (s.pc + 4)).orRaise (s.pc + 4) s fun s' => .next (s'.withPc (targetAddr s t)) := rfl

theorem exec_call_ready {s : State} (t : Target) (h : wordWritable s (readReg s .sp - 2) = true) :
    exec (.call t) s = .next ((pushed s (s.pc + 4)).withPc (targetAddr s t)) := by
  rw [exec_call, pushWord_ready h, orRaise_ok, pushed]

/-- Settles O31: CALL is a push of the address after it (`pushed_effect`) and a new PC. -/
theorem callRule : Obligations.CallRule := by
  refine ⟨fun d => JumpRules.encodesTo_of_encodeTarget_direct (base := 0xA8) rfl,
    fun d rx => JumpRules.encodesTo_of_encodeTarget_indexed (base := 0xA8) (by decide) rfl, fun t s h => ?effect,
    fun t s hmmu hodd => ?odd⟩
  case effect =>
    obtain ⟨hword, hsp, hregs, hflag, hbytes, hsys, hdraws⟩ := pushed_effect (s.pc + 4) (targetAddr s t) h
    exact ⟨_, exec_call_ready t h, rfl, hword, hsp, hregs, hflag, hbytes, hsys, hdraws⟩
  case odd => rw [exec_call, pushWord_odd _ hmmu hodd, orRaise_fault]

/-! PUSH and POP (R181, R182). -/

section
variable {rd : Reg} {s : State}

theorem isActiveSp_eq_false (hsp : rd ≠ .sp) (husp : rd = .usp → s.flag.p = true) : isActiveSp s rd = false := by
  simpa [isActiveSp, hsp] using husp

theorem isActiveSp_usp (hp : s.flag.p = false) : isActiveSp s .usp = true := by simp [isActiveSp, hp]

theorem exec_push_active (h : isActiveSp s rd = true) : exec (.push rd) s = .refused .activeStackPointer := if_pos h

theorem exec_pop_active (h : isActiveSp s rd = true) : exec (.pop rd) s = .refused .activeStackPointer := if_pos h

theorem exec_push (h : isActiveSp s rd = false) :
    exec (.push rd) s =
      (pushWord s (readReg s rd)).orRaise (s.pc + 2) s fun s' => .next (s'.withPc (s.pc + 2)) :=
  if_neg (Bool.eq_false_iff.1 h)

theorem exec_pop (h : isActiveSp s rd = false) :
    exec (.pop rd) s = (popWord s).orRaise (s.pc + 2) s fun r => .next ((writeReg r.2 rd r.1).withPc (s.pc + 2)) :=
  if_neg (Bool.eq_false_iff.1 h)

theorem exec_push_ready (ha : isActiveSp s rd = false) (h : wordWritable s (readReg s .sp - 2) = true) :
    exec (.push rd) s = .next ((pushed s (readReg s rd)).withPc (s.pc + 2)) := by
  rw [exec_push ha, pushWord_ready h, orRaise_ok, pushed]

theorem exec_pop_ready (ha : isActiveSp s rd = false) (h : wordReadable s (readReg s .sp) = true) :
    exec (.pop rd) s =
      .next ((writeReg (writeReg s .sp (readReg s .sp + 2)) rd (wordAt s (readReg s .sp))).withPc (s.pc + 2)) := by
  rw [exec_pop ha, popWord_ready h, orRaise_ok]

/-- A register that is not the active stack pointer does not name the bank in use. -/
theorem physReg_ne_activeSp (ha : isActiveSp s rd = false) : physReg s rd ≠ some (activeSp s) := by
  cases hp : s.flag.p <;> cases rd <;> simp [isActiveSp, physReg, activeSp, hp] at ha ⊢

end

/-- Settles O32: PUSH of an allowed register is a push (`pushed_effect`) and a new PC. -/
theorem pushRule : Obligations.PushRule := by
  refine ⟨fun rd => encodesTo_of_encode_eq (base := 0xC0) (form := 0) (by decide) rfl, fun rd s hsp husp h => ?effect,
    fun s => exec_push_active rfl, fun s hp => exec_push_active (isActiveSp_usp hp), fun rd s hsp husp hmmu hodd => ?odd⟩
  case effect =>
    obtain ⟨hword, hsp', hregs, hflag, hbytes, hsys, hdraws⟩ := pushed_effect (readReg s rd) (s.pc + 2) h
    exact ⟨_, exec_push_ready (isActiveSp_eq_false hsp husp) h, hword, hsp', hregs, hflag, rfl, hbytes, hsys, hdraws⟩
  case odd => rw [exec_push (isActiveSp_eq_false hsp husp), pushWord_odd _ hmmu hodd, orRaise_fault]

/-- Settles O33: POP of an allowed register is a write of the stack pointer in use and one of the register, which is another
(`physReg_ne_activeSp`). -/
theorem popRule : Obligations.PopRule := by
  refine ⟨fun rd => encodesTo_of_encode_eq (base := 0xC4) (form := 0) (by decide) rfl, fun rd s hsp husp h => ?effect,
    fun s => exec_pop_active rfl, fun s hp => exec_pop_active (isActiveSp_usp hp), fun rd s hsp husp hmmu hodd => ?odd⟩
  case effect =>
    have ha := isActiveSp_eq_false hsp husp
    have hbank : physReg (writeReg s .sp (readReg s .sp + 2)) rd = physReg s rd := physReg_congr rd (by simp)
    obtain ⟨hsp', hothers⟩ := activeSp_of_regs (s := s) (t := writeReg s .sp (readReg s .sp + 2)) rfl
    refine ⟨_, exec_pop_ready ha h, fun hrd => ⟨?value, ?flag⟩,
      fun hrd => ?flagValue, ?sp, fun q hq => ?others, rfl, ?rest⟩
    case value => exact (readReg_congr rd rfl rfl).trans (readReg_writeReg_same _ _ hrd)
    case flag => simp [hrd]
    case flagValue => simp [writeReg_flag, hrd]
    case sp => rw [State.regs_withPc, writeReg_get, hbank, if_neg (physReg_ne_activeSp ha), hsp']
    case others =>
      obtain ⟨hq1, hq2⟩ : q ≠ activeSp s ∧ physReg s rd ≠ some q := by simpa using hq
      rw [State.regs_withPc, writeReg_get, hbank, if_neg hq2, hothers q (by simpa using hq1)]
    case rest => exact ⟨fun a _ => byteAt_congr a (by simp) (by simp), by simp [sameSystem], by simp⟩
  case odd => rw [exec_pop (isActiveSp_eq_false hsp husp), popWord_odd hmmu hodd, orRaise_fault]

/-- Settles O35: either pop reads the word just pushed (`readable_of_pushEffect`) and puts the registers back
(`regs_pop_of_pushEffect`); the register pushed takes its own value (`writeReg_readReg`). -/
theorem stackRoundTrips : Obligations.StackRoundTrips := by
  refine ⟨fun tg s h => ?call, fun rd s hsp husp h => ?push⟩
  case call =>
    have ht := pushed_effect (s.pc + 4) (targetAddr s tg) h
    obtain ⟨-, hreadable, hword⟩ := readable_of_pushEffect h ht
    refine ⟨_, _, exec_call_ready tg h, ReturnRules.exec_ret_ready hreadable, hword, regs_pop_of_pushEffect h ht, ?_⟩
    simp [pushed]
  case push =>
    have ha := isActiveSp_eq_false hsp husp
    have ht := pushed_effect (readReg s rd) (s.pc + 2) h
    have hregs := regs_pop_of_pushEffect h ht
    obtain ⟨-, hreadable, hword⟩ := readable_of_pushEffect h ht
    obtain ⟨-, -, -, hflag, -⟩ := ht
    generalize ht : (pushed s (readReg s rd)).withPc (s.pc + 2) = t at *
    have hflag' : (writeReg t .sp (readReg t .sp + 2)).flag = s.flag := by simp [hflag]
    have ha' : isActiveSp t rd = false := by rwa [isActiveSp, hflag]
    refine ⟨t, _, ht ▸ exec_push_ready ha h, exec_pop_ready ha' hreadable, ?_⟩
    have hvalue : wordAt t (readReg t .sp) = readReg (writeReg t .sp (readReg t .sp + 2)) rd :=
      hword.trans (readReg_congr rd hregs hflag').symm
    obtain ⟨hregs2, hflag2⟩ := writeReg_readReg (writeReg t .sp (readReg t .sp + 2)) rd
    rw [hvalue]
    refine ⟨hregs2.trans hregs, hflag2.trans hflag', ?_⟩
    rw [← ht]
    exact BitVec.add_assoc s.pc 2 2

end Sys2Proof.Proofs.StackRules

/-! PROOFS. Taking an exception and returning from one (R184, R190, R191, R200, R206, R215 to R219): what a trap entry with
room on the system stack leaves, and what RETI then finds. -/

namespace Sys2Proof.Proofs.TrapRules

open Sys2Proof Sys2Proof.Machine Sys2Proof.Proofs.LoadStoreRules Sys2Proof.Proofs.StateRules Sys2Proof.Proofs.StackRules

/-! The trap entry (R215, R218). -/

theorem sub_two_ne_sub_four (a : Word) : a - 2 ≠ a - 4 := fun h => by
  have h4 : a - 2 - 2 = a - 2 := (sub_two_sub_two a).trans h.symm
  bv_omega

/-- The two pushes of a trap entry, below a stack pointer with room: each word reads back, and no other byte changes. -/
theorem pushes_read_back {s : State} {sp : Word} (v1 v2 : Word) (h1 : wordWritable s (sp - 2) = true)
    (h2 : wordWritable s (sp - 4) = true) :
    wordAt (putWord (putWord s (sp - 2) v1) (sp - 4) v2) (sp - 2) = v1 ∧
    wordAt (putWord (putWord s (sp - 2) v1) (sp - 4) v2) (sp - 4) = v2 ∧
    sameBytesBut s (putWord (putWord s (sp - 2) v1) (sp - 4) v2) [sp - 4, sp - 4 + 1, sp - 2, sp - 2 + 1] := by
  obtain ⟨-, -, hfree1, hfree1'⟩ := wordWritable_iff.1 h1
  have h2' : wordWritable (putWord s (sp - 2) v1) (sp - 4) = true := h2
  obtain ⟨-, -, hfree2, hfree2'⟩ := wordWritable_iff.1 h2'
  refine ⟨?_, wordAt_putWord_same _ _ _ hfree2 hfree2', fun a ha => ?_⟩
  · rw [wordAt_putWord_ne _ _ _ _ hfree2 hfree2' ((isOdd_sub_two sp).trans (isOdd_sub_four sp).symm)
      (sub_two_ne_sub_four sp), wordAt_putWord_same _ _ _ hfree1 hfree1']
  · obtain ⟨ha2, ha2', ha1, ha1'⟩ :
        a ≠ sp - 4 ∧ a ≠ sp - 4 + 1 ∧ a ≠ sp - 2 ∧ a ≠ sp - 2 + 1 := by simpa using ha
    rw [byteAt_putWord _ _ _ _ hfree2 hfree2', if_neg ha2, if_neg ha2', byteAt_putWord _ _ _ _ hfree1 hfree1',
      if_neg ha1, if_neg ha1']

/-- The memory a trap entry leaves is that of its two pushes. -/
theorem byteAt_entryPushed (pa pb spc handler a : Word) (s : State) :
    byteAt ((entryPushed pa pb spc s).withPc handler) a = byteAt (putWord (putWord s pa spc) pb (flagWord s.flag)) a :=
  byteAt_congr a rfl (entryPushed_mem pa pb spc s)

theorem wordAt_entryPushed (pa pb spc handler a : Word) (s : State) :
    wordAt ((entryPushed pa pb spc s).withPc handler) a = wordAt (putWord (putWord s pa spc) pb (flagWord s.flag)) a :=
  wordAt_congr a rfl (entryPushed_mem pa pb spc s)

/-- With room on the system stack every trap entry has the effect of R215 and R218. -/
theorem trapEntry_effect (c : Cause) (spc : Word) {s : State} (h : entryReady s = true) :
    ∃ t, trapEntry c spc s = .next t ∧ entryEffect c.vector spc s t := by
  obtain ⟨h1, h2⟩ := Bool.and_eq_true_iff.1 h
  obtain ⟨hspc, hflag, hbytes⟩ := pushes_read_back spc (flagWord s.flag) h1 h2
  refine ⟨_, trapEntry_ready h, rfl, ?regs, ?spc, ?flag, rfl, fun a ha => ?bytes,
    ⟨rfl, rfl, rfl, rfl, rfl, rfl⟩, rfl⟩
  case regs => rw [State.regs_withPc, entryPushed_regs, sub_two_sub_two]
  case spc => rw [wordAt_entryPushed, hspc]
  case flag => rw [wordAt_entryPushed, hflag]
  case bytes => rw [byteAt_entryPushed, hbytes a ha]

/-- With an odd SSP the first push has no result (R46). -/
theorem trapEntry_odd (c : Cause) (spc : Word) {s : State} (hmmu : s.mmu.on = false) (hodd : isOdd s.regs.ssp = true) :
    trapEntry c spc s = .fault .misaligned := by
  have hpush : writeWord (s.withFlag { s.flag with p := true, e := false }) (s.regs.ssp - 2) spc = .fault .misaligned :=
    writeWord_odd spc hmmu ((isOdd_sub_two _).trans hodd)
  rw [trapEntry, hpush]
  rfl

/-- Settles O12, by `trapEntry_effect` and `trapEntry_odd`. -/
theorem trapEntryEffect : Obligations.TrapEntryEffect :=
  ⟨fun c spc _ => trapEntry_effect c spc, fun c spc _ => trapEntry_odd c spc⟩

theorem savedPcOther_constant :
    (∀ pc0 pcn, savedPcOther pc0 pcn = pc0) ∨ (∀ pc0 pcn, savedPcOther pc0 pcn = pcn) := by
  unfold savedPcOther
  cases Config.savedPcOther with
  | pc0 => exact .inl fun _ _ => rfl
  | pcn => exact .inr fun _ _ => rfl

theorem savedPcUndef_constant :
    (∀ pc0, savedPcUndef pc0 = pc0) ∨ (∀ pc0, savedPcUndef pc0 = pc0 + 2) ∨
      (∀ pc0, savedPcUndef pc0 = pc0 + 4) := by
  unfold savedPcUndef
  cases Config.savedPcUndef with
  | pc0 => exact .inl fun _ => rfl
  | pc0Plus2 => exact .inr (.inl fun _ => rfl)
  | pc0Plus4 => exact .inr (.inr fun _ => rfl)

/-- Settles O13: the vectors are those of the definition, and each saved PC is split over the constant it asks. -/
theorem vectorsAndSavedPcs : Obligations.VectorsAndSavedPcs := ⟨rfl, savedPcOther_constant, savedPcUndef_constant⟩

/-! RETI (R184, R219). -/

theorem exec_reti (s : State) :
    exec .reti s =
      (readWord s .read (readReg s .sp)).orRaise (s.pc + 2) s fun f =>
        (readWord s .read (readReg s .sp + 2)).orRaise (s.pc + 2) s fun npc =>
          .next (((writeReg s .sp (readReg s .sp + 4)).withFlag (writeFlag s.flag f)).withPc npc) := rfl

/-- Where the words at the stack pointer in use can be read, RETI pops FLAG and then the PC. -/
theorem exec_reti_ready {s : State} (h : wordReadable s (readReg s .sp) = true) :
    exec .reti s = .next (((writeReg s .sp (readReg s .sp + 4)).withFlag
      (writeFlag s.flag (wordAt s (readReg s .sp)))).withPc (wordAt s (readReg s .sp + 2))) := by
  obtain ⟨hmmu, heven⟩ := wordReadable_iff.1 h
  have h2 : wordReadable s (readReg s .sp + 2) = true := wordReadable_iff.2 ⟨hmmu, (isOdd_add_two _).trans heven⟩
  rw [exec_reti, readWord_ready .read h, orRaise_ok, readWord_ready .read h2, orRaise_ok]

/-- Settles O36: RETI is one write of the stack pointer in use, one of FLAG under its mask and a new PC. -/
theorem returnFromInterruptRule : Obligations.ReturnFromInterruptRule := by
  refine ⟨encodesTo_of_encode_eq (base := 0xD4) (form := 0) (by decide) rfl, fun s h => ?effect, fun s hmmu hodd => ?odd⟩
  case effect =>
    refine ⟨_, exec_reti_ready h, rfl, fun hp => flagWord_writeFlag_privileged hp _,
      fun hp => flagWord_writeFlag_user hp _, ?_⟩
    obtain ⟨hsp, hregs⟩ := activeSp_of_regs (s := s) (t := writeReg s .sp (readReg s .sp + 4)) rfl
    refine ⟨hsp, hregs, fun a _ => byteAt_congr a ?_ ?_, ?_, ?_⟩ <;> simp [sameSystem]
  case odd => rw [exec_reti, readWord_odd .read hmmu hodd, orRaise_fault]

/-- RETI from a state a trap entry has left finds the frame at the stack pointer in use, and restores what it saved. -/
theorem reti_after_entry {vector spc : Word} {s t : State} (h : entryReady s = true) (ht : entryEffect vector spc s t) :
    ∃ u, exec .reti t = .next u ∧ u.pc = spc ∧ u.flag = s.flag ∧ u.regs = s.regs ∧ u.mem = t.mem ∧
      sameSystem t u := by
  obtain ⟨hflag, hregs, hspc, hword, -, -, ⟨-, -, -, hmmu, -⟩, -⟩ := ht
  obtain ⟨-, h4⟩ := Bool.and_eq_true_iff.1 h
  obtain ⟨hoff, heven, -⟩ := wordWritable_iff.1 h4
  have hp : t.flag.p = true := congrArg Flag.p hflag
  have hsp : readReg t .sp = s.regs.ssp - 4 := by rw [readReg_sp_privileged hp, hregs]
  have hread : wordReadable t (readReg t .sp) = true := wordReadable_iff.2 ⟨hmmu ▸ hoff, hsp ▸ heven⟩
  have hback : s.regs.ssp - 4 + 2 = s.regs.ssp - 2 := by rw [← sub_two_sub_two, BitVec.sub_add_cancel]
  refine ⟨_, exec_reti_ready hread, ?pc, ?flag, ?regs, by simp, by simp [sameSystem]⟩
  case pc => rw [State.pc_withPc, hsp, hback, hspc]
  case flag =>
    rw [State.flag_withPc, State.flag_withFlag, hsp, hword, writeFlag, if_pos hp, flagOfWord_flagWord]
  case regs =>
    rw [State.regs_withPc, State.regs_withFlag, writeReg_sp_privileged hp, State.regs_withRegs, hsp,
      BitVec.sub_add_cancel, hregs]

/-- Settles O14: `reti_after_entry` for the state `trapEntry_effect` gives. -/
theorem trapThenReti : Obligations.TrapThenReti := by
  intro c spc s h
  obtain ⟨t, hentry, ht⟩ := trapEntry_effect c spc h
  obtain ⟨u, hreti, hpc, hflag, hregs, hmem, hipl, hhalted, hpending, hmmu, hdev, hlog⟩ := reti_after_entry h ht
  obtain ⟨-, -, -, -, -, hbytes, ⟨hipl', hhalted', hpending', hmmu', hdev', hlog'⟩, -⟩ := ht
  exact ⟨t, u, hentry, hreti, hpc, hflag, hregs, fun a ha => (byteAt_congr a hipl hmem).trans (hbytes a ha),
    hipl.trans hipl', hhalted.trans hhalted', hpending.trans hpending', hmmu.trans hmmu', hdev.trans hdev',
    hlog.trans hlog'⟩

/-! SVC, HALT and the privilege violation (R190, R191, R206). -/

theorem exec_svc (s : State) : exec .svc s = trapEntry .svc (s.pc + 2) s := rfl

/-- Settles O37: SVC is its trap entry (`exec_svc`). -/
theorem supervisorCallRule : Obligations.SupervisorCallRule :=
  ⟨encodesTo_of_encode_eq (base := 0xF0) (form := 0) (by decide) rfl, fun s h => trapEntry_effect .svc (s.pc + 2) h⟩

theorem exec_halt_privileged {s : State} (hp : s.flag.p = true) :
    exec .halt s = .next ((s.withPc (s.pc + 2)).withHalted true) := if_pos hp

theorem exec_halt_user {s : State} (hp : s.flag.p = false) : exec .halt s = trapEntry .privilege s.pc s :=
  if_neg (Bool.eq_false_iff.1 hp)

theorem halt_violation {s : State} (hp : s.flag.p = false) (h : entryReady s = true) :
    ∃ t, exec .halt s = .next t ∧ entryEffect 0xFFFA s.pc s t := by
  rw [exec_halt_user hp]
  exact trapEntry_effect .privilege s.pc h

/-- A halted CPU leaves its boundary as it came there (R191). -/
theorem step_halted {s : State} (h : s.halted = true) :
    step s = if dmaOntoIpl s then .fault .iplWrite else .next (dmaTick s) := by
  cases hd : dmaOntoIpl s with
  | true => exact step_dmaOntoIpl hd
  | false => simp [step, nextAction_clear hd, boundary, h]

/-- Settles O38: HALT by its two modes, and a halted step by `step_halted`. -/
theorem haltRule : Obligations.HaltRule := by
  refine ⟨encodesTo_of_encode_eq (base := 0xFF) (form := 0) (by decide) rfl, fun s => exec_halt_privileged,
    fun s => halt_violation, fun s h => ⟨step_halted h, fun hidle => ?_⟩⟩
  rw [step_halted h, dmaOntoIpl_idle hidle, dmaTick_idle hidle]
  rfl

theorem exec_in_forbidden {s : State} (h : ioAllowed s.flag = false) (rd : Reg) (p : Port) :
    exec (.inPort rd p) s = trapEntry .privilege s.pc s := if_neg (Bool.eq_false_iff.1 h)

theorem exec_out_forbidden {s : State} (h : ioAllowed s.flag = false) (rd : Reg) (p : Port) :
    exec (.outPort rd p) s = trapEntry .privilege s.pc s := if_neg (Bool.eq_false_iff.1 h)

/-- Settles O39: without the privilege each of the three is the trap entry alone. -/
theorem privilegeViolationRule : Obligations.PrivilegeViolationRule := by
  refine ⟨fun rd p s hp hi h => ?_, fun s => halt_violation⟩
  have hio : ioAllowed s.flag = false := by simp [ioAllowed, hp, hi]
  rw [exec_in_forbidden hio, exec_out_forbidden hio]
  exact ⟨trapEntry_effect .privilege s.pc h, trapEntry_effect .privilege s.pc h⟩

end Sys2Proof.Proofs.TrapRules

/-! PROOFS. The fetch (R17, R75 to R79, R89) and the boundary (R210 to R213): what a step comes to where nothing but the fetch
happens, which first words are rejected and why, and the interrupt taken or not. -/

namespace Sys2Proof.Proofs.FetchRules

open Sys2Proof Sys2Proof.Machine Sys2Proof.Proofs.EncodingRules Sys2Proof.Proofs.LoadStoreRules
  Sys2Proof.Proofs.StackRules Sys2Proof.Proofs.TrapRules

/-! A step that only fetches. -/

/-- Without a transfer a running CPU with no interrupt ready fetches at once. -/
theorem step_idle {s : State} (hrun : s.halted = false) (hidle : s.dev.sdBusy = false) (hquiet : anyIrqReady s = false) :
    step s = runAction (fetchInstr s) := by
  rw [step_quiet hrun hquiet, dmaOntoIpl_idle hidle, dmaTick_idle hidle]
  rfl

theorem step_atFetch {s : State} (h : atFetch s) : step s = runAction (fetchInstr s) := by
  obtain ⟨hrun, hidle, hquiet, -⟩ := h
  exact step_idle hrun hidle hquiet

theorem step_run {s : State} {i : Instr} (h : atFetch s)
    (hd : decode (wordAt s s.pc) (wordAt s (s.pc + 2)) = .ok i) : step s = exec i s := by
  rw [step_atFetch h]
  obtain ⟨-, -, -, hread⟩ := h
  exact fetchInstr_run hread hd

theorem step_reject {s : State} {r : Reject} (h : atFetch s) (hd : decodeFirst (wordAt s s.pc) = .error r) :
    step s = onReject r s := by
  rw [step_atFetch h]
  obtain ⟨-, -, -, hread⟩ := h
  rw [fetchInstr_reject hread hd]
  rfl

/-- Settles O8: the fetch runs in the state the microSD controller's writes leave, which has the old PC. -/
theorem stepRunsDecodedInstruction : Obligations.StepRunsDecodedInstruction := by
  refine ⟨fun s i hrun hquiet hread hd => ?_, fun s hidle => ⟨dmaOntoIpl_idle hidle, dmaTick_idle hidle⟩⟩
  have hread' : wordReadable (dmaTick s) (dmaTick s).pc = true := by simpa [wordReadable] using hread
  rw [step_quiet hrun hquiet, fetchInstr_run hread' (by simpa using hd)]

/-! Rejected first words (R75 to R79). -/

/-- The empty cells of the opcode map are the opcodes R75 lists. -/
theorem undefinedCell_iff :
    ∀ (row : Fin 32) (form : Fin 8), undefinedCell row form = true ↔ undefinedOpcodes (8 * row + form) := by
  unfold undefinedOpcodes
  decide

theorem decodeFirst_undefined_iff (w : Word) :
    decodeFirst w = .error .undefinedOpcode ↔ undefinedOpcodes (opField w).toNat := by
  have hop := (opField w).isLt
  rw [← Nat.div_add_mod (opField w).toNat 8]
  exact (decodeFirst_undefined w).trans (undefinedCell_iff ⟨(opField w).toNat / 8, by omega⟩ ⟨(opField w).toNat % 8, by omega⟩)

/-- Settles O5: the list is the empty cells, and the step at one is its trap entry. -/
theorem undefinedOpcodesTrap : Obligations.UndefinedOpcodesTrap := by
  refine ⟨decodeFirst_undefined_iff, fun s h hop hready => ?_⟩
  rw [step_reject h ((decodeFirst_undefined_iff _).2 hop)]
  exact trapEntry_effect .undefined (savedPcUndef s.pc) hready

/-- The row and the form of OP are its upper five and lower three bits (R71). -/
theorem toNat_opField_eq (w : Word) : (opField w).toNat = 8 * rowOf w + formOf w :=
  (Nat.div_add_mod _ 8).symm

/-- The rows of the opcode map that hold all eight operand forms. -/
def operandRow (r : Nat) : Prop := (1 ≤ r ∧ r ≤ 12 ∧ r ≠ 2) ∨ (16 ≤ r ∧ r ≤ 19)

theorem reservedWord_operandRow {w : Word} (h : operandRow (rowOf w)) :
    reservedWord w ↔ (formOf w = 0 ∨ formOf w = 2) ∧ rxField w ≠ 0 := by
  have hf := formOf_lt w
  rw [reservedWord, toNat_opField_eq]
  unfold operandRow at h
  grind

/-- The cells of the opcode map with a fixed field are the opcodes R76 lists: row by row, the operand rows all alike. -/
theorem decodeFirst_reserved_iff (w : Word) : decodeFirst w = .error .reservedField ↔ reservedWord w := by
  have hoperand := reservedWord_operandRow (w := w)
  have hf := formOf_lt w
  rw [decodeFirst_reserved]
  unfold reservedWord operandRow at *
  rw [toNat_opField_eq] at *
  generalize rowOf w = r at *
  generalize formOf w = f at *
  unfold reservedCell
  split
  case h_1 | h_2 | h_18 | h_19 | h_20 | h_21 | h_22 | h_23 | h_24 | h_25 | h_26 =>
    clear hoperand
    grind
  all_goals
    rw [hoperand (by omega)]
    simp

theorem decodeFirst_contested {w : Word} (h : opField w = 0xB7 ∨ opField w = 0xBF) :
    decodeFirst w = .error .contestedOpcode := by
  have hport : ∀ k, formOf w = 7 → decodePort w k = .error .contestedOpcode := fun k hf =>
    (decodePort_error w k _).2 (.inr (.inr ⟨hf, rfl⟩))
  rcases h with h | h
  · have hrow : rowOf w = 22 := by rw [rowOf, h]; rfl
    simp [decodeFirst, hrow, hport _ (show formOf w = 7 by rw [formOf, h]; rfl)]
  · have hrow : rowOf w = 23 := by rw [rowOf, h]; rfl
    simp [decodeFirst, hrow, hport _ (show formOf w = 7 by rw [formOf, h]; rfl)]

/-- Settles O6: a step at a rejected word is its refusal (`step_reject`). -/
theorem refusedEncodings : Obligations.RefusedEncodings :=
  ⟨decodeFirst_reserved_iff, fun _ h hw => step_reject h ((decodeFirst_reserved_iff _).2 hw),
    fun _ h hop => step_reject h (decodeFirst_contested hop)⟩

/-! The condition codes of the jumps (R77). -/

/-- The words of OP = A0h and A1h are the two forms of row 20. -/
theorem jumpRow_of_opField {w : Word} {op : Byte} (h : opField w = op) (hop : op = 0xA0 ∨ op = 0xA1) :
    decodeFirst w = decodeJump w ∧ formOf w = op.toNat % 8 ∧ formOf w ≤ 1 := by
  have hrow : rowOf w = 20 := by
    rw [rowOf, h]
    rcases hop with rfl | rfl <;> rfl
  refine ⟨by simp [decodeFirst, hrow], by rw [formOf, h], ?_⟩
  rw [formOf, h]
  rcases hop with rfl | rfl <;> decide

theorem decode_jump_direct {w d : Word} {k : Target → Instr} (hk : jumpOf (rdField w) = some k) (hop : opField w = 0xA0)
    (hx : rxField w = 0) : decode w d = .ok (k (.direct d)) := by
  obtain ⟨hfirst, hform, -⟩ := jumpRow_of_opField hop (.inl rfl)
  have hdecode : decodeFirst w = .ok (.needsSecond fun d => k (.direct d)) := by
    simp [hfirst, decodeJump, hk, decodeTarget, hform, rxZero, hx]
  rw [decode, hdecode]

theorem decode_jump_indexed {w d : Word} {k : Target → Instr} (hk : jumpOf (rdField w) = some k) (hop : opField w = 0xA1) :
    decode w d = .ok (k (.indexed d (rxReg w))) := by
  obtain ⟨hfirst, hform, -⟩ := jumpRow_of_opField hop (.inr rfl)
  have hdecode : decodeFirst w = .ok (.needsSecond fun d => k (.indexed d (rxReg w))) := by
    simp [hfirst, decodeJump, hk, decodeTarget, hform]
  rw [decode, hdecode]

theorem decodeFirst_jumpCondition {w : Word} (hop : opField w = 0xA0 ∨ opField w = 0xA1) (hrd : rdField w = 0xD) :
    decodeFirst w = .error .jumpCondition := by
  obtain ⟨hfirst, -, hform⟩ := jumpRow_of_opField rfl hop
  rw [hfirst]
  exact (decodeJump_error w _).2 (.inr (.inr ⟨hform, hrd, rfl⟩))

/-- Settles O7: the table is that of `jumpOf`, whose one missing code is Dh. -/
theorem jumpConditionCodes : Obligations.JumpConditionCodes := by
  refine ⟨fun w d k hmem => ?_, fun s h hop hrd => step_reject h (decodeFirst_jumpCondition hop hrd)⟩
  have hk : jumpOf (rdField w) = some k :=
    (by simp [jumpOf] : ∀ entry ∈ _, jumpOf entry.1 = some entry.2) (rdField w, k) hmem
  exact ⟨decode_jump_direct hk, decode_jump_indexed hk⟩

/-! A placed instruction, and one stored in front of the PC (R52). -/

theorem ne_add_two (a : Word) : a ≠ a + 2 := by bv_omega

theorem add_two_add_one (a : Word) : a + 2 + 1 = a + 3 := BitVec.add_assoc a 2 1

/-- Two words stored at an even address and the next, where nothing is covered, read back. -/
theorem words_read_back {s : State} {a : Word} (w1 w2 : Word)
    (hfree : ∀ b ∈ [a, a + 1, a + 2, a + 3], overlaid s b = false) :
    wordAt (putWord (putWord s a w1) (a + 2) w2) a = w1 ∧ wordAt (putWord (putWord s a w1) (a + 2) w2) (a + 2) = w2 := by
  obtain ⟨h0, h1, h2, h3⟩ : overlaid s a = false ∧ overlaid s (a + 1) = false ∧ overlaid s (a + 2) = false ∧
      overlaid s (a + 3) = false := by simpa using hfree
  have h2' : overlaid (putWord s a w1) (a + 2) = false := h2
  have h3' : overlaid (putWord s a w1) (a + 2 + 1) = false := (add_two_add_one a) ▸ h3
  refine ⟨?_, wordAt_putWord_same _ _ _ h2' h3'⟩
  rw [wordAt_putWord_ne _ _ _ _ h2' h3' (isOdd_add_two a).symm (ne_add_two a), wordAt_putWord_same _ _ _ h0 h1]

section
variable (s : State)

/-- Loading clears the request lines where an interrupt was ready, and the enables it leaves are the old ones. -/
theorem anyIrqReady_readyToFetch : anyIrqReady (readyToFetch s) = false := by
  cases h : anyIrqReady s with
  | false =>
    have hsame : (readyToFetch s).pending = s.pending := by simp [readyToFetch, h]
    exact (anyIrqReady_congr (s := s.withDev (readyToFetch s).dev) (t := readyToFetch s) rfl rfl hsame).trans h
  | true =>
    have hclear : (readyToFetch s).pending = IrqLines.clear := by simp [readyToFetch, h]
    refine Bool.eq_false_iff.2 (mt (anyIrqReady_iff _).1 ?_)
    rintro ⟨q, -, hq, -⟩
    rw [hclear] at hq
    cases q <;> cases hq

/-- Loading detaches the IPL if it covers one of the four bytes, and else leaves it. -/
theorem overlaid_readyToFetch_eq (b : Word) :
    overlaid (readyToFetch s) b =
      (overlaid s b &&
        !(overlaid s s.pc || overlaid s (s.pc + 1) || overlaid s (s.pc + 2) || overlaid s (s.pc + 3))) := by
  simp only [readyToFetch]
  generalize (overlaid s s.pc || overlaid s (s.pc + 1) || overlaid s (s.pc + 2) || overlaid s (s.pc + 3)) = covered
  cases covered <;> simp [overlaid, overlayByte]

theorem overlaid_readyToFetch : ∀ b ∈ [s.pc, s.pc + 1, s.pc + 2, s.pc + 3], overlaid (readyToFetch s) b = false := by
  intro b hb
  simp only [List.mem_cons, List.not_mem_nil, or_false] at hb
  rw [overlaid_readyToFetch_eq]
  rcases hb with rfl | rfl | rfl | rfl <;> simp +contextual

/-- The state loaded is at its fetch, if the PC is even. -/
theorem atFetch_withFetchWord (nbits w : Nat) (h : isOdd s.pc = false) : atFetch (s.withFetchWord nbits w) := by
  refine ⟨rfl, rfl, ?_, wordReadable_iff.2 ⟨rfl, h⟩⟩
  exact (anyIrqReady_congr (s := readyToFetch s) rfl rfl rfl).trans (anyIrqReady_readyToFetch s)

end

/-- What decodes from the bytes of two words decodes from the words. -/
theorem decode_tableWords {nbits w : Nat} {i : Instr} (h : decodeTableWord nbits w = some i) :
    decode (tableWords nbits w).1 (tableWords nbits w).2 = .ok i := by
  revert h
  unfold decodeTableWord
  generalize tableWords nbits w = ws
  simp only [wordBytes, List.cons_append, List.nil_append, decodeBytes, joinBytes_hiByte_loByte, decode]
  rcases decodeFirst ws.1 with e | j | finish <;> simp

/-- Settles O9: the two words read back (`words_read_back`), and nothing stands in the way of their fetch
(`atFetch_withFetchWord`). -/
theorem placedInstructionRuns : Obligations.PlacedInstructionRuns := by
  intro s nbits w i heven hd
  obtain ⟨h1, h2⟩ := words_read_back (tableWords nbits w).1 (tableWords nbits w).2 (overlaid_readyToFetch s)
  refine step_run (atFetch_withFetchWord s nbits w heven) ?_
  have hw1 : wordAt (s.withFetchWord nbits w) (s.withFetchWord nbits w).pc = (tableWords nbits w).1 := h1
  have hw2 : wordAt (s.withFetchWord nbits w) ((s.withFetchWord nbits w).pc + 2) = (tableWords nbits w).2 := h2
  rw [hw1, hw2, decode_tableWords hd]

/-- A one-word instruction decodes whatever word follows. -/
theorem decode_second_irrelevant {w1 w2 : Word} {i : Instr} (h : decode w1 w2 = .ok i) (hshort : i.isLong = false)
    (d : Word) : decode w1 d = .ok i := by
  obtain ⟨r, hr, hi⟩ := (decode_ok_iff w1 w2 i).1 h
  refine (decode_ok_iff w1 d i).2 ⟨r, hr, ?_⟩
  cases r with
  | complete j => exact hi
  | needsSecond finish =>
    have hwords : encode i = [w1, w2] := hi ▸ RoundTrip.encodesBack_decodeFirst w1 _ w2 hr
    have hlength := length_encode i
    simp [hwords, hshort] at hlength

/-- Settles O20: the store leaves the machine at its fetch, with the stored word at the PC. -/
theorem storedWordIsFetched : Obligations.StoredWordIsFetched := by
  intro s rd m i w2 h hword haddr hrun hidle hquiet hd hshort
  obtain ⟨hmmu, heven, hfree0, hfree1⟩ := wordWritable_iff.1 ((formWritable_word hword).1 h)
  refine ⟨_, exec_st_ready h, ?_⟩
  have hput : putForm s m (readReg s rd) = putWord s (nextPc s m.isLong) (readReg s rd) := by
    rw [putForm, hword, if_neg Bool.false_ne_true, haddr]
  rw [haddr] at heven hfree0 hfree1
  rw [hput]
  refine step_run ⟨hrun, hidle, (anyIrqReady_congr rfl rfl rfl).trans hquiet, wordReadable_iff.2 ⟨hmmu, heven⟩⟩ ?_
  have hfirst : wordAt ((putWord s (nextPc s m.isLong) (readReg s rd)).withPc (nextPc s m.isLong)) (nextPc s m.isLong) =
      readReg s rd := wordAt_putWord_same s _ _ hfree0 hfree1
  rw [State.pc_withPc, hfirst]
  exact decode_second_irrelevant hd hshort _

/-! The boundary (R210 to R213). -/

/-- Settles O11: the split over what irqPick proposes is that of `irqTaken`. -/
theorem interruptTakenOrNot : Obligations.InterruptTakenOrNot := by
  intro s hrun hidle hready hentry
  have hany : anyIrqReady s = true := (anyIrqReady_iff s).2 hready
  have hnext : nextAction s = boundary s := by rw [nextAction_clear (dmaOntoIpl_idle hidle), dmaTick_idle hidle]
  have hfetch : irqTaken s = none → step s = runAction (fetchInstr (s.withDraws (s.draws + 1))) := fun hnone => by
    simp only [step, hnext, boundary, hrun, hany, hnone, Bool.false_eq_true, if_false, if_true, afterDraw]
    cases fetchInstr (s.withDraws (s.draws + 1)) <;> rfl
  cases hpick : Config.irqPick s.draws with
  | none => exact hfetch (by simp [irqTaken, hpick])
  | some q =>
    have htaken : irqTaken s = if irqReady s q then some q else none := by simp only [irqTaken, hany, hpick, if_true]
    refine ⟨fun hq => ?_, fun hq => hfetch ?_⟩
    · rw [mayInterrupt_iff] at hq
      have hstep : step s = trapEntry (.irq q) s.pc (afterDraw s) := by
        simp [step, hnext, boundary, hrun, hany, htaken, hq]
      rw [hstep]
      exact trapEntry_effect (.irq q) s.pc (s := afterDraw s) hentry
    · rw [htaken, if_neg (mt (mayInterrupt_iff s q).2 hq)]

/-! An odd PC (R46), and HALT (R191, R253). -/

theorem fetchInstr_odd {s : State} (hmmu : s.mmu.on = false) (hodd : isOdd s.pc = true) :
    fetchInstr s = .done (.fault .misaligned) := by
  simp only [fetchInstr, readWord_odd .fetch hmmu hodd]

/-- Settles O49, by `fetchInstr_odd`: a jump itself looks at no parity. -/
theorem oddPcFaultsAtFetch : Obligations.OddPcFaultsAtFetch := by
  refine ⟨fun s hrun hquiet hmmu hodd => ?_, fun s d hrun hidle hquiet hmmu hodd => ⟨_, rfl, ?_⟩⟩
  · rw [step_quiet hrun hquiet, fetchInstr_odd (by simpa using hmmu) (by simpa using hodd)]
    cases dmaOntoIpl s <;> rfl
  · have hjump : step (s.withPc d) = runAction (fetchInstr (s.withPc d)) :=
      step_idle hrun hidle ((anyIrqReady_congr rfl rfl rfl).trans hquiet)
    exact hjump.trans (congrArg runAction (fetchInstr_odd (s := s.withPc d) hmmu hodd))

/-- An instruction the fetch answers was decoded from the word at the PC. -/
theorem fetchInstr_decoded {s s' : State} {i : Instr} (h : fetchInstr s = .run i s') :
    ∃ w1 w2, readWord s .fetch s.pc = .ok w1 ∧ decode w1 w2 = .ok i := by
  unfold fetchInstr at h
  split at h
  case h_1 | h_2 => cases h
  case h_3 w1 hw1 =>
    refine ⟨w1, ?_⟩
    split at h
    case h_1 => cases h
    case h_2 hd =>
      cases h
      exact ⟨0, hw1, by simp [decode, hd]⟩
    case h_3 hd =>
      split at h
      case isTrue => cases h
      case isFalse =>
        split at h
        case h_1 | h_2 => cases h
        case h_3 w2 _ =>
          cases h
          exact ⟨w2, hw1, by simp [decode, hd]⟩

/-- An instruction that a step runs was fetched after the microSD controller's writes; a draw does not show in the words. -/
theorem nextAction_decoded {s s' : State} {i : Instr} (h : nextAction s = .run i s') :
    ∃ w1 w2, readWord (dmaTick s) .fetch s.pc = .ok w1 ∧ decode w1 w2 = .ok i := by
  have hfetch : fetchInstr (dmaTick s) = .run i s' ∨ fetchInstr (afterDraw (dmaTick s)) = .run i s' := by
    unfold nextAction boundary at h
    split at h
    case isTrue => cases h
    case isFalse =>
      split at h
      case isTrue => cases h
      case isFalse =>
        split at h
        case isFalse => exact .inl h
        case isTrue =>
          split at h
          case h_1 => cases h
          case h_2 => exact .inr h
  rcases hfetch with hf | hf
  · obtain ⟨w1, w2, hw1, hd⟩ := fetchInstr_decoded hf
    exact ⟨w1, w2, dmaTick_pc s ▸ hw1, hd⟩
  · obtain ⟨w1, w2, hw1, hd⟩ := fetchInstr_decoded hf
    exact ⟨w1, w2, dmaTick_pc s ▸ hw1, hd⟩

/-- Only the word FF00h decodes to HALT, which has no other encoding (R76). -/
theorem eq_of_decode_halt {w1 w2 : Word} (h : decode w1 w2 = .ok .halt) : w1 = 0xFF00 := by
  have hencode : encode .halt = [0xFF00] := by decide
  rcases RoundTrip.encodeOfDecode w1 w2 .halt h with hw | hw
  · simp [hencode] at hw
  · simpa [hencode, eq_comm] using hw

/-- Only HALT in privileged mode stops a running CPU. -/
theorem instrEffect_halts {s t : State} {i : Instr} (hrun : s.halted = false) (ht : t.halted = true)
    (he : InstrEffect s i t) : i = .halt ∧ s.flag.p = true ∧ t.pc = s.pc + 2 := by
  cases he with
  | halt hp => exact ⟨rfl, hp, rfl⟩
  | entry | move | load | storeByte | storeWord | flags | compute | push | pop | ret | reti | input | output =>
    simp [ioWrite, hrun] at ht

/-- Settles O59: the instruction run is HALT (`instrEffect_halts`), and FF00h is the word it was decoded from. -/
theorem onlyPrivilegedHaltStops : Obligations.OnlyPrivilegedHaltStops := by
  intro s t hrun h ht
  cases step_next h with
  | stopped hstopped => simp [hrun] at hstopped
  | entry _ _ _ _ _ _ ht' => simp [ht'] at ht
  | run i s' _ hb ha _ he =>
    obtain ⟨-, hflag, hpc, -, hhalted, -⟩ := EveryStep.atBoundary_same hb
    obtain ⟨rfl, hp, hpc'⟩ := instrEffect_halts (hhalted.trans hrun) ht he
    obtain ⟨w1, w2, hw1, hd⟩ := nextAction_decoded ha
    exact ⟨hflag ▸ hp, eq_of_decode_halt hd ▸ hw1, hpc ▸ hpc'⟩

end Sys2Proof.Proofs.FetchRules

/-! PROOFS. The operand forms as numbers (R80 to R91), DIV and MOD (R119, R120), the flags of a subtraction as relations (R140)
and the refusals and faults of the fourteen flag-changing instructions (R46, R121). -/

namespace Sys2Proof.Proofs.OperandRules

open Sys2Proof Sys2Proof.Machine

/-! The operand forms as numbers (R80 to R87). -/

theorem toNat_two_mul_sextNibble :
    ∀ n : Nibble, (2 * sextNibble n).toNat = if n.toNat < 8 then 2 * n.toNat else 65536 + 2 * n.toNat - 32 := by
  decide

theorem sextNibble_eq :
    ∀ n : Nibble, sextNibble n = BitVec.ofNat 16 (if n.toNat < 8 then n.toNat else 65536 + n.toNat - 16) := by
  decide

/-- Settles O15: sums of words are sums of numbers modulo 2^16, and the sixteen values of a 4-bit field are checked one by
one. -/
theorem operandFormValues : Obligations.OperandFormValues := by
  intro s
  refine ⟨fun _ => rfl, fun d rx => BitVec.toNat_add d _, fun d4 => ?_, fun _ => rfl, fun _ => rfl, fun _ => rfl,
    fun d rx => BitVec.toNat_add d _, fun _ => rfl, fun _ => rfl, fun _ => rfl, fun _ => rfl, fun i4 => ?_⟩
  · rw [effectiveAddr, BitVec.toNat_add, toNat_two_mul_sextNibble]
  · rw [readOperand, sextNibble_eq]

/-! The short forms (R91). -/

/-- An even displacement from -16 to 14 is twice its 4-bit field. -/
theorem two_mul_sextNibble_truncate {d : Word} (heven : d.getLsbD 0 = false) (hlow : -16 ≤ d.toInt)
    (hhigh : d.toInt ≤ 14) :
    2 * sextNibble ((d.sshiftRight 1).truncate 4) = d := by
  have hd : d = BitVec.ofInt 16 d.toInt := by simp
  rw [hd] at heven ⊢
  generalize d.toInt = k at *
  interval_cases k <;> first | rfl | cases heven

/-- An immediate from -8 to 7 is its 4-bit field. -/
theorem sextNibble_truncate {n : Word} (hlow : -8 ≤ n.toInt) (hhigh : n.toInt ≤ 7) : sextNibble (n.truncate 4) = n := by
  have hn : n = BitVec.ofInt 16 n.toInt := by simp
  rw [hn]
  generalize n.toInt = k at *
  interval_cases k <;> rfl

/-- Settles O16, by the tests of the assembler's choice. -/
theorem shortFormsEquivalent : Obligations.ShortFormsEquivalent := by
  refine ⟨fun s d rx => ?_, fun s n => ?_⟩
  · unfold chooseDisp
    split
    case isTrue h =>
      obtain ⟨rfl, heven, hlow, hhigh⟩ := h
      refine ⟨?_, rfl⟩
      simp only [effectiveAddr, two_mul_sextNibble_truncate heven hlow hhigh]
      exact BitVec.add_comm _ _
    case isFalse =>
      split
      case isTrue hd =>
        rw [hd]
        exact ⟨(BitVec.zero_add _).symm, rfl⟩
      case isFalse => exact ⟨rfl, rfl⟩
  · unfold chooseImm
    split
    case isTrue h => rw [readOperand, sextNibble_truncate h.1 h.2]
    case isFalse => rfl

end Sys2Proof.Proofs.OperandRules

namespace Sys2Proof.Proofs.DivisionRules

open Sys2Proof Sys2Proof.Machine Sys2Proof.Proofs.LoadStoreRules Sys2Proof.Proofs.ArithmeticRules

/-! DIV and MOD (R119, R120). -/

/-- The common domain of the two: both operands below 8000h (D11). -/
theorem msb_false_iff (a : Word) : a.msb = false ↔ a.toNat < 32768 := by
  rw [msb_eq_bit15, bit15, decide_eq_false_iff_not, Nat.not_le]

theorem divMod_eq (a b : Word) :
    divMod a b = if a.toNat < 32768 ∧ b.toNat < 32768 then (a / b, a % b) else Config.divmod a b := by
  simp only [divMod, msb_false_iff]

theorem divOut_eq_divRule (a b : Word) :
    divOut a b = divRule (fun x y => x / y) (Config.divmod a b).1 a.toNat b.toNat := by
  have hresult : (divMod a b).1.toNat =
      if a.toNat < 32768 ∧ b.toNat < 32768 then a.toNat / b.toNat else (Config.divmod a b).1.toNat := by
    rw [divMod_eq]
    split
    · exact BitVec.toNat_udiv
    · rfl
  rw [divOut, aluOut_eq_resultIs, hresult, divRule]

/-- The remainder is what the quotient leaves (R120). -/
theorem modOut_eq_divRule (a b : Word) :
    modOut a b = divRule (fun x y => x - y * (x / y)) (Config.divmod a b).2 a.toNat b.toNat := by
  have hresult : (divMod a b).2.toNat =
      if a.toNat < 32768 ∧ b.toNat < 32768 then a.toNat - b.toNat * (a.toNat / b.toNat)
      else (Config.divmod a b).2.toNat := by
    rw [divMod_eq]
    split
    · exact BitVec.toNat_umod.trans (Nat.mod_eq_sub_mul_div)
    · rfl
  rw [modOut, aluOut_eq_resultIs, hresult, divRule]

theorem divideOp_flag (f : Word → Word → AluOut) (src : Operand) (s : State) :
    divideOp f .flag src s = .refused .flagDestination := if_pos rfl

theorem divideOp_eq_aluNext {f : Word → Word → AluOut} {rd : Reg} {src : Operand} {s : State} (hrd : rd ≠ .flag)
    (h : operandReadable s src = true) (hb : operandValue s src ≠ 0) :
    divideOp f rd src s = .next (aluNext (f (readReg s rd) (operandValue s src)) true rd src.isLong s) := by
  rw [divideOp_ready hrd h, if_neg hb]
  rfl

theorem divideOp_zero {f : Word → Word → AluOut} {rd : Reg} {src : Operand} {s : State} (hrd : rd ≠ .flag)
    (h : operandReadable s src = true) (hb : operandValue s src = 0) :
    divideOp f rd src s = trapEntry .zeroDivide (savedPcOther s.pc (nextPc s src.isLong)) s := by
  rw [divideOp_ready hrd h, if_pos hb]
  rfl

/-- An instruction in the shape of `divideOp`, encoded with `base`, obeys the rule of what it computes. -/
theorem divideRule_of_divideOp {mk : Reg → Operand → Instr} {base : Byte} {f spec : Word → Word → AluOut}
    (hbase : base.toNat ≤ 0xF8) (hencode : ∀ rd src, encode (mk rd src) = encodeOperand base rd src)
    (hexec : ∀ rd src s, exec (mk rd src) s = divideOp f rd src s) (hspec : ∀ a b, f a b = spec a b)
    (hcount : ∀ rd src, stateCount (mk rd src) = (stateCount (.add rd src)).map (· + 16)) :
    divideRule mk base.toNat spec := by
  refine ⟨fun rd src => encodesTo_of_encodeOperand hbase (hencode rd src), fun src s => ?flag,
    fun rd src s hrd h hb => ?effect, fun rd src s hrd h hb hentry => ?zero, hcount⟩
  case flag => rw [hexec, divideOp_flag]
  case effect =>
    rw [hexec, divideOp_eq_aluNext hrd h hb, hspec]
    exact ⟨_, rfl, aluEffect_aluNext _ true _ s hrd⟩
  case zero =>
    rw [hexec, divideOp_zero hrd h hb]
    exact TrapRules.trapEntry_effect .zeroDivide _ hentry

/-- Settles O24: the two are `divideOp` of `divOut` and `modOut`, which are R119 and R120 in numbers. -/
theorem divideAndModuloRules : Obligations.DivideAndModuloRules :=
  ⟨divideRule_of_divideOp (base := 0x58) (by decide) (fun _ _ => rfl) (fun _ _ _ => rfl) divOut_eq_divRule
      (fun _ _ => rfl),
    divideRule_of_divideOp (base := 0x60) (by decide) (fun _ _ => rfl) (fun _ _ _ => rfl) modOut_eq_divRule
      (fun _ _ => rfl)⟩

/-! Refusals and faults of the fourteen (R46, R121). -/

/-- Settles O26, by the one lemma of the model for all fourteen. -/
theorem flagDestinationRefused : Obligations.FlagDestinationRefused :=
  ⟨fun _ s h => exec_flagDestination h s, fun _ => rfl⟩

theorem aluOp_odd {f : Word → Word → AluOut} {store : Bool} {rd : Reg} {s : State} {m : MemForm} (hrd : rd ≠ .flag)
    (hmmu : s.mmu.on = false) (hword : isByteForm m = false) (hodd : isOdd (effectiveAddr s m) = true) :
    aluOp f store rd (.mem m) s = .fault .misaligned := by
  rw [aluOp, if_neg hrd, readOperand, loadForm_odd hmmu hword hodd, orRaise_fault]

theorem divideOp_odd {f : Word → Word → AluOut} {rd : Reg} {s : State} {m : MemForm} (hrd : rd ≠ .flag)
    (hmmu : s.mmu.on = false) (hword : isByteForm m = false) (hodd : isOdd (effectiveAddr s m) = true) :
    divideOp f rd (.mem m) s = .fault .misaligned := by
  rw [divideOp, if_neg hrd, readOperand, loadForm_odd hmmu hword hodd, orRaise_fault]

/-- The twelve instructions in the shape of `aluOp`. -/
theorem exec_eq_aluOp :
    ∀ mk ∈ [Instr.add, .sub, .cmp, .and, .or, .xor, .adds, .mul, .shla, .shll, .shra, .shrl],
      ∃ f store, ∀ rd src s, exec (mk rd src) s = aluOp f store rd src s := by
  intro mk h
  simp only [List.mem_cons, List.not_mem_nil, or_false] at h
  rcases h with rfl | rfl | rfl | rfl | rfl | rfl | rfl | rfl | rfl | rfl | rfl | rfl <;>
    exact ⟨_, _, fun _ _ _ => rfl⟩

/-- The two in the shape of `divideOp`. -/
theorem exec_eq_divideOp :
    ∀ mk ∈ [Instr.div, .mod], ∃ f, ∀ rd src s, exec (mk rd src) s = divideOp f rd src s := by
  intro mk h
  simp only [List.mem_cons, List.not_mem_nil, or_false] at h
  rcases h with rfl | rfl <;> exact ⟨_, fun _ _ _ => rfl⟩

/-- Settles O51: each of the fourteen is `aluOp` or `divideOp`; RET pops. -/
theorem oddAddressesFault : Obligations.OddAddressesFault := by
  refine ⟨fun mk hmk rd s hrd m hmmu hword hodd => ?_, fun s hmmu hodd => ?_⟩
  · have hshape : mk ∈ [Instr.add, .sub, .cmp, .and, .or, .xor, .adds, .mul, .shla, .shll, .shra, .shrl] ∨
        mk ∈ [Instr.div, .mod] := by
      simp only [List.mem_cons, List.not_mem_nil, or_false] at hmk ⊢
      tauto
    rcases hshape with h | h
    · obtain ⟨f, store, hexec⟩ := exec_eq_aluOp mk h
      rw [hexec, aluOp_odd hrd hmmu hword hodd]
    · obtain ⟨f, hexec⟩ := exec_eq_divideOp mk h
      rw [hexec, divideOp_odd hrd hmmu hword hodd]
  · rw [ReturnRules.exec_ret, StackRules.popWord_odd hmmu hodd, orRaise_fault]

end Sys2Proof.Proofs.DivisionRules

namespace Sys2Proof.Proofs.CompareRules

open Sys2Proof Sys2Proof.Machine Sys2Proof.Proofs.ArithmeticRules Sys2Proof.Proofs.JumpRules

/-! V as the range of the signed result (R26). -/

theorem toInt_word (a : Word) : a.toInt = if a.msb then (a.toNat : Int) - 65536 else a.toNat := by
  rw [BitVec.toInt_eq_msb_cond]
  rfl

theorem ovfAdd_iff (a b : Word) :
    ovfAdd a b (a + b) = true ↔ a.toInt + b.toInt < -32768 ∨ 32767 < a.toInt + b.toInt := by
  have ha := a.isLt
  have hb := b.isLt
  simp only [ovfAdd, toInt_word, BitVec.msb_eq_decide, BitVec.toNat_add, Bool.and_eq_true, beq_iff_eq, bne_iff_ne, ne_eq,
    decide_eq_decide, decide_eq_true_eq]
  split <;> split <;> omega

theorem ovfSub_iff (a b : Word) :
    ovfSub a b (a - b) = true ↔ a.toInt - b.toInt < -32768 ∨ 32767 < a.toInt - b.toInt := by
  have ha := a.isLt
  have hb := b.isLt
  simp only [ovfSub, toInt_word, BitVec.msb_eq_decide, BitVec.toNat_sub, Bool.and_eq_true, bne_iff_ne, ne_eq,
    decide_eq_decide, decide_eq_true_eq]
  split <;> split <;> omega

/-- V of a flag-changing instruction whose V is known. -/
theorem aluNext_flag_v {o : AluOut} {rd : Reg} {v : Bool} (store long : Bool) (s : State) (hrd : rd ≠ .flag)
    (hv : o.v = .known v) : (aluNext o store rd long s).flag.v = v := by
  rw [aluNext_flag o store long s hrd, applyFlags_v, hv]
  rfl

/-- Settles O27: the three leave `ovfAdd` or `ovfSub` in V, which say that the signed result is out of range. -/
theorem overflowIsSignedRange : Obligations.OverflowIsSignedRange := by
  intro rd src s hrd h
  refine ⟨⟨_, aluOp_eq_aluNext hrd h, ?_⟩, ⟨_, aluOp_eq_aluNext hrd h, ?_⟩, ⟨_, aluOp_eq_aluNext hrd h, ?_⟩⟩
  · rw [aluNext_flag_v _ _ s hrd rfl]
    exact ovfAdd_iff _ _
  · rw [aluNext_flag_v _ _ s hrd rfl]
    exact ovfSub_iff _ _
  · rw [aluNext_flag_v _ _ s hrd rfl]
    exact ovfSub_iff _ _

/-! The comparison table (R140). -/

/-- FLAG holds what a subtraction of `b` from `a` leaves in V, C, S and Z. -/
def comparedFlags (a b : Word) (f : Flag) : Prop :=
  f.v = ovfSub a b (a - b) ∧ f.c = borrowSub a b ∧ f.s = (a - b).msb ∧ f.z = decide (a - b = 0)

section
variable {a b : Word} {f : Flag}

theorem zero_iff (h : comparedFlags a b f) : f.z = true ↔ a = b := by
  obtain ⟨-, -, -, hz⟩ := h
  rw [hz, decide_eq_true_eq]
  constructor
  · intro h0
    bv_omega
  · rintro rfl
    exact BitVec.sub_self a

theorem carry_iff (h : comparedFlags a b f) : f.c = true ↔ a.toNat < b.toNat := by
  obtain ⟨-, hc, -⟩ := h
  rw [hc, borrowSub, decide_eq_true_eq]

/-- The sign of a difference is that of the signed difference, unless that has left the range. -/
theorem msb_sub_eq_iff (a b : Word) : (a - b).msb ≠ ovfSub a b (a - b) ↔ a.toInt < b.toInt := by
  have ha := a.isLt
  have hb := b.isLt
  have hsign : (a - b).msb = true ↔ 32768 ≤ (65536 - b.toNat + a.toNat) % 65536 := by
    rw [BitVec.msb_eq_decide, BitVec.toNat_sub, decide_eq_true_eq]
  rw [ne_eq, Bool.eq_iff_iff, ovfSub_iff, hsign, toInt_word, toInt_word, BitVec.msb_eq_decide, BitVec.msb_eq_decide]
  simp only [decide_eq_true_eq]
  split <;> split <;> omega

/-- S and V differ exactly when the signed difference is negative. -/
theorem less_iff (h : comparedFlags a b f) : f.s ≠ f.v ↔ a.toInt < b.toInt := by
  obtain ⟨hv, -, hs, -⟩ := h
  rw [hs, hv, msb_sub_eq_iff]

/-- A jump whose condition is `p` of the flags goes to its target or to the next instruction. -/
theorem jumpIf_direct {c : Flag → Bool} {t : State} {p : Prop} [Decidable p] (d : Word) (h : c t.flag = true ↔ p) :
    jumpIf c (.direct d) t = .next (t.withPc (if p then d else t.pc + 4)) := by
  simp only [jumpIf, h, targetAddr, nextPc, if_true]

/-- The ten jumps in a state with the flags of a subtraction: each condition in terms of `zero_iff`, `carry_iff` and
`less_iff`. -/
theorem jumpsCompare_of_flags {t : State} (h : comparedFlags a b t.flag) : jumpsCompare a b t := by
  have hz := zero_iff h
  have hc := carry_iff h
  have hlt := less_iff h
  have heq : a = b ↔ a.toInt = b.toInt := BitVec.toInt_inj.symm
  have hne : a = b ↔ a.toNat = b.toNat := BitVec.toNat_eq
  intro d
  refine ⟨jumpIf_direct d ((condGT_iff _).trans ?_), jumpIf_direct d ((condGE_iff _).trans ?_),
    jumpIf_direct d ((condLE_iff _).trans ?_), jumpIf_direct d ((condLT_iff _).trans hlt),
    jumpIf_direct d ((condHI_iff _).trans ?_), jumpIf_direct d ((condNC_iff _).trans ?_),
    jumpIf_direct d ((condLS_iff _).trans ?_), jumpIf_direct d hc, jumpIf_direct d hz,
    jumpIf_direct d ((condNZ_iff _).trans ?_)⟩
  · rw [hz, hlt, heq]
    omega
  · rw [hlt]
    omega
  · rw [hz, hlt, heq]
    omega
  · rw [← Bool.not_eq_true, ← Bool.not_eq_true, hz, hc, hne]
    omega
  · rw [← Bool.not_eq_true, hc]
    omega
  · rw [hz, hc, hne]
    omega
  · rw [← Bool.not_eq_true, hz]

/-- CMP and SUB leave the flags of the subtraction. -/
theorem comparedFlags_aluNext {rd : Reg} (store long : Bool) (s : State) (hrd : rd ≠ .flag) :
    comparedFlags a b (aluNext (subOut a b) store rd long s).flag := by
  rw [aluNext_flag _ store long s hrd]
  exact ⟨rfl, rfl, rfl, rfl⟩

end

/-- Settles O30: both instructions leave the flags of the subtraction, and the jumps test them. -/
theorem compareThenJump : Obligations.CompareThenJump := by
  intro rd src s hrd h
  exact ⟨⟨_, aluOp_eq_aluNext hrd h, jumpsCompare_of_flags (comparedFlags_aluNext _ _ s hrd)⟩,
    ⟨_, aluOp_eq_aluNext hrd h, jumpsCompare_of_flags (comparedFlags_aluNext _ _ s hrd)⟩⟩

end Sys2Proof.Proofs.CompareRules

/-! PROOFS. Reset (R34, R251). -/

namespace Sys2Proof.Proofs.ResetRules

open Sys2Proof Sys2Proof.Machine

/-- Reset clears every enable bit; PIO has none. -/
theorem irqEnabled_reset {q : Irq} (h : q ≠ .pio) : irqEnabled State.reset.dev q = false := by
  cases q with
  | pio => exact absurd rfl h
  | timer0 | timer1 | rn4020Recv | rn4020Send | ft232rlRecv | ft232rlSend | tecRecv | tecSend | microSd => rfl

/-- Settles O52: the reset state's fields, and its enables source by source. -/
theorem resetFixedValues : Obligations.ResetFixedValues :=
  ⟨rfl, rfl, rfl, rfl, rfl, rfl, fun _ => irqEnabled_reset, rfl⟩

/-- The overlay is empty and the memory lists no byte, so that every byte is the unlisted one. -/
theorem byteAt_reset (a : Word) : byteAt State.reset a = 0 := rfl

/-- Settles O53: the reset state's fields, and the invariants of the empty memory and the clear registers. -/
theorem resetChosenValues : Obligations.ResetChosenValues := by
  refine ⟨rfl, fun q => ?_, byteAt_reset, rfl, rfl, rfl, rfl, rfl, rfl, rfl, reset_mem_wf, by decide⟩
  cases q <;> rfl

end Sys2Proof.Proofs.ResetRules

/-! PROOFS. IN and OUT (R48, R56 to R58, R171, R172, R244 to R252): what a write to each port leaves of the device and MMU
registers, what a read of each port answers, and the TLB written and read back. -/

namespace Sys2Proof.Proofs.PortRules

open Sys2Proof Sys2Proof.Machine Sys2Proof.Proofs.LoadStoreRules Sys2Proof.Proofs.StackRules

/-! Where IN and OUT are defined (R48, R170). -/

theorem encodesTo_port_direct {i : Instr} {base : Byte} {rd : Reg} {d : Word}
    (h : encode i = encodePort base rd (.direct d)) : encodesTo i base.toNat rd.toNibble (0, some d) := by
  refine encodesTo_of_encode_eq (base := base) (form := 0) base.isLt (h.trans ?_)
  simp [encodePort]

theorem encodesTo_port_indirect {i : Instr} {base : Byte} {rd rx : Reg} (hbase : base.toNat ≤ 0xF8)
    (h : encode i = encodePort base rd (.indirect rx)) :
    encodesTo i (base.toNat + 6) rd.toNibble (rx.toNibble, none) :=
  encodesTo_of_encode_eq (form := 6) (by omega) h

/-- Settles O42: where the instruction is allowed the test of the port decides. -/
theorem undefinedPortsFault : Obligations.UndefinedPortsFault := by
  intro rd p s hallowed hport
  have hio : ioAllowed s.flag = true := (ioAllowed_iff _).2 hallowed
  have hbad : portOk (portAddr s p) = false := Bool.eq_false_iff.2 (mt portOk_iff.1 hport)
  constructor
  · simp [exec, execIn, hio, hbad]
  · simp [exec, execOut, hio, hbad]

/-! A write to a port, field by field (R48). -/

section
variable (s : State) (p v : Word)

@[simp] theorem ioWrite_regs : (ioWrite s p v).regs = s.regs := by simp [ioWrite]
@[simp] theorem ioWrite_pc : (ioWrite s p v).pc = s.pc := by simp [ioWrite]
@[simp] theorem ioWrite_mem : (ioWrite s p v).mem = s.mem := by simp [ioWrite]
@[simp] theorem ioWrite_ipl : (ioWrite s p v).ipl = iplWrite s.ipl p.toNat v := by simp [ioWrite]
@[simp] theorem ioWrite_halted : (ioWrite s p v).halted = s.halted := by simp [ioWrite]
@[simp] theorem ioWrite_pending : (ioWrite s p v).pending = s.pending := by simp [ioWrite]
@[simp] theorem ioWrite_mmu : (ioWrite s p v).mmu = mmuWrite s.mmu p.toNat v := by simp [ioWrite]
@[simp] theorem ioWrite_dev : (ioWrite s p v).dev = devWrite s.dev p.toNat v := by simp [ioWrite]
@[simp] theorem ioWrite_ioLog : (ioWrite s p v).ioLog = s.ioLog ++ [(p, v)] := by simp [ioWrite]
@[simp] theorem ioWrite_draws : (ioWrite s p v).draws = s.draws := by simp [ioWrite]

end

/-! A write to a port: the device registers (R244 to R252). -/

theorem getLsbD_loByte (v : Word) {i : Nat} (h : i < 8) : (loByte v).getLsbD i = v.getLsbD i := by
  simp [loByte, h]

/-- The registers a device write leaves are those `f` gives. -/
theorem outLeaves_of_devWrite {port : Word} {f : Devices → Word → Devices} (hport : portOk port = true)
    (hdev : ∀ d v, devWrite d port.toNat v = f d v) : outLeaves port f := by
  rintro rd p s rfl hio
  exact ⟨_, execOut_ready hio hport, hdev _ _⟩

/-- R or W at 10h is bit 1 or 0 of the word. -/
theorem devWrite_sdCtrl (d : Devices) (v : Word) :
    devWrite d 0x10 v =
      { d with sdCtrl := loByte v &&& 0x87, sdBusy := d.sdBusy || v.getLsbD 1 || v.getLsbD 0 } := by
  rw [← getLsbD_loByte v (i := 1) (by decide), ← getLsbD_loByte v (i := 0) (by decide)]
  rfl

/-- Settles O43, port by port of the table `devWrite`. -/
theorem deviceRegisters : Obligations.DeviceRegisters :=
  have kept {port : Word} {f : Devices → Word → Devices} (hport : portOk port = true)
      (hdev : ∀ d v, devWrite d port.toNat v = f d v) : outLeaves port f := outLeaves_of_devWrite hport hdev
  ⟨kept rfl fun _ _ => rfl, kept rfl fun _ _ => rfl, kept rfl fun _ _ => rfl, kept rfl fun _ _ => rfl,
    kept rfl fun _ _ => rfl, kept rfl fun _ _ => rfl, kept rfl fun _ _ => rfl, kept rfl fun _ _ => rfl,
    kept rfl devWrite_sdCtrl, kept rfl fun _ _ => rfl, kept rfl fun _ _ => rfl, kept rfl fun _ _ => rfl,
    kept rfl fun _ _ => rfl, kept rfl fun _ _ => rfl, kept rfl fun _ _ => rfl, kept rfl fun _ _ => rfl,
    kept rfl fun _ _ => rfl, kept rfl fun _ _ => rfl, kept rfl fun _ _ => rfl, kept rfl fun _ _ => rfl,
    kept rfl fun _ _ => rfl, kept rfl fun _ _ => rfl, kept rfl fun _ _ => rfl, kept rfl fun _ _ => rfl,
    kept rfl fun _ _ => rfl, kept rfl fun _ _ => rfl, kept rfl fun _ _ => rfl, kept rfl fun _ _ => rfl,
    kept rfl fun _ _ => rfl, kept rfl fun _ _ => rfl, kept rfl fun _ _ => rfl, kept rfl fun _ _ => rfl⟩

/-- A device write changes no register but the one behind its port. -/
theorem sameDevicesBut_devWrite (d : Devices) (n : Nat) (v : Word) : sameDevicesBut n d (devWrite d n v) := by
  unfold devWrite
  simp only
  split <;> simp [sameDevicesBut]

/-! A write to a port: the MMU registers and the IPL (R56 to R60). -/

section
variable {m : Mmu} {n : Nat} (v : Word)

theorem mmuWrite_tlbHigh (k : Fin 8) (hn : n = 0x80 + 4 * k.val) :
    mmuWrite m n v = { m with tlb := m.tlb.setIfInBounds k { m.tlb[k] with page := loByte v } } := by
  have hne : n ≠ 0xA2 := by omega
  have hread : portRead n = .tlbHigh k := hn ▸ portRead_tlbHigh k
  rw [mmuWrite, if_neg hne, hread]
  simp

theorem mmuWrite_tlbLow (k : Fin 8) (hn : n = 0x82 + 4 * k.val) :
    mmuWrite m n v = { m with tlb := m.tlb.setIfInBounds k (tlbSetLow m.tlb[k] v) } := by
  have hne : n ≠ 0xA2 := by omega
  have hread : portRead n = .tlbLow k := hn ▸ portRead_tlbLow k
  rw [mmuWrite, if_neg hne, hread]
  simp

/-- No port outside 80h to 9Eh is a half of a TLB entry. -/
theorem mmuWrite_other (heven : n % 2 = 0) (hle : n ≤ 0xFE) (hne : n ≠ 0xA2) (hout : n < 0x80 ∨ 0x9E < n) :
    mmuWrite m n v = m := by
  have hfits := portRead_fits ⟨n, by omega⟩ heven
  rw [mmuWrite, if_neg hne]
  cases hread : portRead n with
  | tlbHigh k | tlbLow k =>
    simp [hread, portReadFits] at hfits
    omega
  | _ => rfl

theorem getElem_setEntry (tlb : Tlb) (e : TlbEntry) (k n : Fin 8) :
    (tlb.setIfInBounds n e)[k] = if k = n then e else tlb[k] := by
  simp [Vector.getElem_setIfInBounds, Fin.ext_iff, eq_comm]

theorem mmuAfterOut_mmuWrite {port : Word} (heven : port.toNat % 2 = 0) (hle : port.toNat ≤ 0xFE) :
    mmuAfterOut port v m (mmuWrite m port.toNat v) := by
  refine ⟨fun hA2 => ?_, fun n hn => ?_, fun n hn => ?_, fun hne hout => ?_⟩
  · rw [hA2]
    rfl
  · rw [mmuWrite_tlbHigh v n hn]
    refine ⟨rfl, fun k => (getElem_setEntry _ _ k n).trans ?_⟩
    split
    case isTrue h => rw [h]
    case isFalse => rfl
  · rw [mmuWrite_tlbLow v n hn]
    refine ⟨rfl, fun k => (getElem_setEntry _ _ k n).trans ?_⟩
    split
    case isTrue h => rw [h, tlbSetLow]
    case isFalse => rfl
  · exact mmuWrite_other v heven hle (fun h => hne (BitVec.eq_of_toNat_eq h)) hout

end

/-- Settles O41: OUT is `ioWrite` and a new PC; each register by its own table. -/
theorem outputRule : Obligations.OutputRule := by
  refine ⟨fun rd d => encodesTo_port_direct (base := 0xB8) rfl,
    fun rd rx => encodesTo_port_indirect (base := 0xB8) (by decide) rfl, fun rd p s hallowed hport => ?_⟩
  have hio : ioAllowed s.flag = true := (ioAllowed_iff _).2 hallowed
  refine ⟨_, execOut_ready hio (portOk_iff.2 hport), ?_⟩
  simp only [State.ioLog_withPc, State.regs_withPc, State.flag_withPc, State.pc_withPc, State.mem_withPc,
    State.halted_withPc, State.pending_withPc, State.draws_withPc, State.ipl_withPc, State.mmu_withPc, State.dev_withPc,
    ioWrite_regs, Rn4020Ram.ioWrite_flag, ioWrite_mem, ioWrite_ipl, ioWrite_halted, ioWrite_pending, ioWrite_mmu,
    ioWrite_dev, ioWrite_ioLog, ioWrite_draws, true_and]
  refine ⟨nextPc_eq s p.isLong, fun hne => ?otherIpl, fun hA0 => if_pos (congrArg BitVec.toNat hA0),
    mmuAfterOut_mmuWrite _ hport.1 hport.2, sameDevicesBut_devWrite _ _ _⟩
  have hipl : iplWrite s.ipl (portAddr s p).toNat (readReg s rd) = s.ipl :=
    if_neg fun h => hne (BitVec.eq_of_toNat_eq h)
  exact ⟨hipl, fun a _ => byteAt_congr a (by simp [hipl]) (by simp)⟩

/-! A read of a port (R48, R171). -/

section
variable {s : State} {p : Word}

theorem ioRead_tlbHigh (n : Fin 8) (hp : p.toNat = 0x80 + 4 * n.val) : (ioRead s p).1 = zextByte s.mmu.tlb[n].page := by
  have hread : portRead p.toNat = .tlbHigh n := hp ▸ portRead_tlbHigh n
  simp only [ioRead, hread, tlbEntry_fin]

theorem ioRead_tlbLow (n : Fin 8) (hp : p.toNat = 0x82 + 4 * n.val) :
    (ioRead s p).1 = tlbLowWord s.mmu.tlb[n] (Config.ioDraw s.draws p) := by
  have hread : portRead p.toNat = .tlbLow n := hp ▸ portRead_tlbLow n
  simp only [ioRead, hread, tlbEntry_fin]

theorem portHolds_ioRead : portHolds s p.toNat (ioRead s p).1 := by
  have hport : ∀ q : Word, p.toNat = q.toNat → p = q := fun q h => BitVec.eq_of_toNat_eq h
  refine ⟨fun h => ?ram, fun n h => ioRead_tlbHigh n h, fun n h => ?tlbLow, fun h => ?violAddr, fun h => ?cause,
    fun h => ?page⟩
  case ram => rw [hport 0x2E h, Rn4020Ram.ioRead_rn4020Ram]
  case tlbLow =>
    rw [ioRead_tlbLow n h]
    exact tlbLowWord_bits _ _
  case violAddr => rw [hport 0xA2 h]; rfl
  case cause =>
    rw [hport 0xA4 h]
    exact mmuCauseWord_bits _ _
  case page => rw [hport 0xA6 h]; rfl

theorem loByte_zextByte (b : Byte) : loByte (zextByte b) = b := by
  apply BitVec.eq_of_getLsbD_eq
  intro i hi
  rw [getLsbD_loByte _ hi]
  simp [zextByte]
  omega

theorem zextByte_and_not (b : Byte) : zextByte b &&& ~~~0x00FF = 0 := by
  have h : zextByte b = zextByte b &&& 0x00FF := by
    rw [← zextByte_loByte, loByte_zextByte]
  rw [h, BitVec.and_assoc]
  exact BitVec.and_zero

/-- What is read lies within the layout of the port, kind by kind of `portRead`. -/
theorem ioRead_within (heven : p.toNat % 2 = 0) (hle : p.toNat ≤ 0xFE) :
    (ioRead s p).1 &&& ~~~portBits p.toNat = 0 := by
  have hfits := portRead_fits ⟨p.toNat, by omega⟩ heven
  have hmask : ∀ x m : Word, m &&& ~~~portBits p.toNat = 0 → x &&& m &&& ~~~portBits p.toNat = 0 := fun x m h => by
    rw [BitVec.and_assoc, h]
    exact BitVec.and_zero
  have hall : ∀ x : Word, portBits p.toNat = 0xFFFF → x &&& ~~~portBits p.toNat = 0 := fun x h => by
    rw [h]
    exact BitVec.and_zero
  have hbyte : ∀ b : Byte, portBits p.toNat = 0x00FF → zextByte b &&& ~~~portBits p.toNat = 0 := fun b h => by
    rw [h, zextByte_and_not]
  unfold ioRead
  simp only at hfits ⊢
  generalize portRead p.toNat = kind at *
  cases kind with
  | drawn m => exact hmask _ m (by simpa [portReadFits] using hfits)
  | zero => exact BitVec.zero_and
  | sdStat => exact hmask _ _ (by simp only [portReadFits, Bool.and_eq_true, beq_iff_eq] at hfits; rw [hfits.1]; rfl)
  | rn4020Ram | mmuPage => exact hbyte _ (by simp only [portReadFits, Bool.and_eq_true, beq_iff_eq] at hfits; exact hfits.1)
  | tlbHigh => exact hbyte _ (by simp only [portReadFits, Bool.and_eq_true, beq_iff_eq] at hfits; exact hfits.1.1)
  | tlbLow => exact hall _ (by simp only [portReadFits, Bool.and_eq_true, beq_iff_eq] at hfits; exact hfits.1.1)
  | violAddr | mmuCause => exact hall _ (by simp only [portReadFits, Bool.and_eq_true, beq_iff_eq] at hfits; exact hfits.1)

/-- A read of A2h, A4h or A6h may clear what it reads, and a read of another port leaves the MMU registers. -/
theorem ioRead_mmu (hport : portOk p = true) : (ioRead s p).2.mmu = mmuAfterIn p s.mmu := by
  by_cases hA2 : p = 0xA2
  · subst hA2
    rfl
  by_cases hA4 : p = 0xA4
  · subst hA4
    rfl
  by_cases hA6 : p = 0xA6
  · subst hA6
    rfl
  have hother : p.toNat < 0xA2 ∨ 0xA6 < p.toNat := by
    simp only [portOk, isOdd_eq, Bool.and_eq_true, Bool.not_eq_true', decide_eq_false_iff_not] at hport
    bv_omega
  rw [ioRead_mmu_ne hport hother, mmuAfterIn]
  simp only [if_neg hA2, if_neg hA4, if_neg hA6, ite_self]

/-- A read of 10h with IDLE = 1 ends a transfer, and a read of another port leaves the device registers. -/
theorem ioRead_sdBusy (hport : portOk p = true) :
    (ioRead s p).2.dev =
      { s.dev with sdBusy := if p = 0x10 then s.dev.sdBusy && !(ioRead s p).1.getLsbD 7 else s.dev.sdBusy } := by
  by_cases h : p = 0x10
  · subst h
    rfl
  · rw [ioRead_dev_ne hport fun e => h (BitVec.eq_of_toNat_eq e), if_neg h]

end

/-- Settles O40: IN is `ioRead`, a register write and a new PC. -/
theorem inputRule : Obligations.InputRule := by
  refine ⟨fun rd d => encodesTo_port_direct (base := 0xB0) rfl,
    fun rd rx => encodesTo_port_indirect (base := 0xB0) (by decide) rfl, fun rd p s hallowed hport => ?_⟩
  have hio : ioAllowed s.flag = true := (ioAllowed_iff _).2 hallowed
  have hok : portOk (portAddr s p) = true := portOk_iff.2 hport
  refine ⟨_, (ioRead s (portAddr s p)).1, execIn_ready hio hok, takes_of_writeReg ?regs ?flag,
    ioRead_within hport.1 hport.2, portHolds_ioRead, nextPc_eq s p.isLong, fun a _ => byteAt_congr a ?_ ?_, ?_, ?_, ?_, ?_,
    ?mmu, ?dev⟩
  case regs => exact regs_writeReg_congr rd _ (by simp) (by simp)
  case flag => simp [writeReg_flag]
  case mmu => rw [State.mmu_withPc, writeReg_mmu, ioRead_mmu hok]
  case dev => rw [State.dev_withPc, writeReg_dev, ioRead_sdBusy hok]
  all_goals simp

/-! The TLB (R56, R57). -/

/-- Words that agree in the fields of the lower part of a TLB entry differ in bits 14 and 13 alone. -/
theorem and_tlbMask_eq {v w : Word} (h15 : v.getLsbD 15 = w.getLsbD 15) (h12 : v.getLsbD 12 = w.getLsbD 12)
    (h11 : v.getLsbD 11 = w.getLsbD 11) (h10 : v.getLsbD 10 = w.getLsbD 10) (h9 : v.getLsbD 9 = w.getLsbD 9)
    (h8 : v.getLsbD 8 = w.getLsbD 8) (hlow : loByte v = loByte w) : v &&& 0x9FFF = w &&& 0x9FFF := by
  have hbyte : ∀ i, i < 8 → v.getLsbD i = w.getLsbD i := fun i hi => by
    rw [← getLsbD_loByte v hi, ← getLsbD_loByte w hi, hlow]
  apply BitVec.eq_of_getLsbD_eq
  intro i hi
  rw [BitVec.getLsbD_and, BitVec.getLsbD_and]
  by_cases hi8 : i < 8
  · rw [hbyte i hi8]
  · interval_cases i <;> simp_all

theorem tlbPort_defined (s : State) (n : Fin 8) :
    portDefined s (.direct (BitVec.ofNat 16 (0x80 + 4 * n.val))) ∧
      portDefined s (.direct (BitVec.ofNat 16 (0x82 + 4 * n.val))) := by
  simp only [portDefined, portAddr, BitVec.toNat_ofNat]
  omega

/-- OUT and then IN at one port: IN answers what the port holds of the registers OUT has left. -/
theorem out_then_in {d : Word} (rd : Reg) {rd2 : Reg} {s : State} (hio : ioAllowed s.flag = true) (hrd2 : rd2 ≠ .flag)
    (hd : portDefined s (.direct d)) :
    ∃ t u, exec (.outPort rd (.direct d)) s = .next t ∧ exec (.inPort rd2 (.direct d)) t = .next u ∧
      mmuAfterOut d (readReg s rd) s.mmu t.mmu ∧ portHolds t d.toNat (readReg u rd2) := by
  obtain ⟨-, -, hout⟩ := outputRule
  obtain ⟨-, -, hin⟩ := inputRule
  have hallowed := (ioAllowed_iff s.flag).1 hio
  obtain ⟨t, ht, -, -, hflag, -, -, -, -, -, -, -, hmmu, -⟩ := hout rd (.direct d) s hallowed hd
  obtain ⟨u, v, hu, ⟨hread, -⟩, -, hholds, -⟩ := hin rd2 (.direct d) t (hflag ▸ hallowed) hd
  exact ⟨t, u, ht, hu, hmmu, (hread hrd2).1 ▸ hholds⟩

/-- Settles O44: the half of the entry that OUT leaves is the one IN answers (`out_then_in`). -/
theorem tlbReadsBack : Obligations.TlbReadsBack := by
  intro n rd rd2 s hio hrd2
  have hlt := n.isLt
  obtain ⟨hhigh, hlow⟩ := tlbPort_defined s n
  have hnHigh : (BitVec.ofNat 16 (0x80 + 4 * n.val)).toNat = 0x80 + 4 * n.val := by rw [BitVec.toNat_ofNat]; omega
  have hnLow : (BitVec.ofNat 16 (0x82 + 4 * n.val)).toNat = 0x82 + 4 * n.val := by rw [BitVec.toNat_ofNat]; omega
  constructor
  · obtain ⟨t, u, ht, hu, ⟨-, -, hentry, -⟩, -, -, hholds, -⟩ := out_then_in rd hio hrd2 hlow
    obtain ⟨-, hentry⟩ := hentry n hnLow
    obtain ⟨h15, h12, h11, h10, h9, h8, hframe⟩ := hholds n hnLow
    rw [hentry n, if_pos rfl] at h15 h12 h11 h10 h9 h8 hframe
    exact ⟨t, u, ht, hu, and_tlbMask_eq h15 h12 h11 h10 h9 h8 hframe, fun m hm => (hentry m).trans (if_neg hm)⟩
  · obtain ⟨t, u, ht, hu, ⟨-, hentry, -⟩, -, hholds, -⟩ := out_then_in rd hio hrd2 hhigh
    obtain ⟨-, hentry⟩ := hentry n hnHigh
    have hpage := hholds n hnHigh
    rw [hentry n, if_pos rfl] at hpage
    exact ⟨t, u, ht, hu, hpage.trans (zextByte_loByte _), fun m hm => (hentry m).trans (if_neg hm)⟩

end Sys2Proof.Proofs.PortRules

/-! PROOFS. The IPL overlay (R58, R60): a write of any kind that reaches it, and its detaching. -/

namespace Sys2Proof.Proofs.OverlayRules

open Sys2Proof Sys2Proof.Machine Sys2Proof.Proofs.LoadStoreRules Sys2Proof.Proofs.StackRules Sys2Proof.Proofs.PortRules

/-! Writes that reach the overlay. -/

section
variable {s : State}

theorem writeByte_overlaid {a : Word} (b : Byte) (hmmu : s.mmu.on = false) (h : overlaid s a = true) :
    writeByte s a b = .fault .iplWrite := by
  rw [writeByte_off a b hmmu, if_pos h]

theorem writeWord_overlaid {a : Word} (v : Word) (hmmu : s.mmu.on = false) (heven : isOdd a = false)
    (h : overlaid s a = true ∨ overlaid s (a + 1) = true) : writeWord s a v = .fault .iplWrite := by
  rw [writeWord_off a v hmmu, heven, if_neg Bool.false_ne_true, if_pos (Bool.or_eq_true_iff.2 h)]

theorem storeForm_overlaid {m : MemForm} (v : Word) (hmmu : s.mmu.on = false)
    (heven : isByteForm m = false → isOdd (effectiveAddr s m) = false)
    (h : ∃ a ∈ storedBytes s m, overlaid s a = true) :
    storeForm s m v = .fault .iplWrite := by
  cases hb : isByteForm m with
  | true => simpa [storeForm, hb] using writeByte_overlaid (loByte v) hmmu (by simpa [storedBytes, hb] using h)
  | false => simpa [storeForm, hb] using writeWord_overlaid v hmmu (heven hb) (by simpa [storedBytes, hb] using h)

theorem pushWord_overlaid (v : Word) (hmmu : s.mmu.on = false) (heven : isOdd (readReg s .sp) = false)
    (h : overlaid s (readReg s .sp - 2) = true ∨ overlaid s (readReg s .sp - 2 + 1) = true) :
    pushWord s v = .fault .iplWrite := by
  simp only [pushWord, writeWord_overlaid v hmmu ((isOdd_sub_two _).trans heven) h]

/-- Either push of a trap entry may be the one that reaches the overlay: the second one if the first does not. -/
theorem trapEntry_overlaid (c : Cause) (spc : Word) (hmmu : s.mmu.on = false) (heven : isOdd s.regs.ssp = false)
    (h : ∃ a ∈ frameBytes s, overlaid s a = true) : trapEntry c spc s = .fault .iplWrite := by
  have heven1 : isOdd (s.regs.ssp - 2) = false := (isOdd_sub_two _).trans heven
  by_cases hfirst : overlaid s (s.regs.ssp - 2) = true ∨ overlaid s (s.regs.ssp - 2 + 1) = true
  · have hpush : writeWord (s.withFlag { s.flag with p := true, e := false }) (s.regs.ssp - 2) spc = .fault .iplWrite :=
      writeWord_overlaid spc hmmu heven1 hfirst
    rw [trapEntry, hpush]
    rfl
  · have hsecond : overlaid s (s.regs.ssp - 2 - 2) = true ∨ overlaid s (s.regs.ssp - 2 - 2 + 1) = true := by
      rw [sub_two_sub_two]
      simp only [frameBytes, List.mem_cons, List.not_mem_nil, or_false, exists_eq_or_imp, exists_eq_left] at h
      tauto
    obtain ⟨hfree0, hfree1⟩ := not_or.1 hfirst
    have hwritable : wordWritable (s.withFlag { s.flag with p := true, e := false }) (s.regs.ssp - 2) = true :=
      wordWritable_iff.2 ⟨hmmu, heven1, Bool.eq_false_iff.2 hfree0, Bool.eq_false_iff.2 hfree1⟩
    have hpush : writeWord (putWord (s.withFlag { s.flag with p := true, e := false }) (s.regs.ssp - 2) spc)
        (s.regs.ssp - 2 - 2) (flagWord s.flag) = .fault .iplWrite :=
      writeWord_overlaid _ hmmu ((isOdd_sub_two _).trans heven1) hsecond
    simp only [trapEntry, writeWord_ready spc hwritable, inEntry_ok, hpush]
    rfl

/-- Bytes of a running transfer that miss the overlay. -/
theorem step_dma_or_clear (hbusy : s.dev.sdBusy = true) :
    step s = .fault .iplWrite ∨ ∀ w ∈ Config.dmaWrites s.draws, overlaid s w.1 = false := by
  cases h : dmaOntoIpl s with
  | true => exact .inl (step_dmaOntoIpl h)
  | false =>
    refine .inr fun w hw => Bool.eq_false_iff.2 fun hcovered => ?_
    have honto : dmaOntoIpl s = true := (dmaOntoIpl_iff s).2 ⟨hbusy, w, hw, hcovered⟩
    simp [h] at honto

/-! The bit that detaches it. -/

theorem byteAt_attached {a : Word} {b : Byte} (hattached : s.ipl.attached = true)
    (h : s.ipl.image.lookup a.toNat = some b) : byteAt s a = b := by
  simp [byteAt, overlayByte, hattached, h]

theorem byteAt_detached (h : s.ipl.attached = false) (a : Word) : byteAt s a = Memory.read s.mem a.toNat := by
  simp [byteAt, overlayByte, h]

/-- An allowed OUT to A0h clears the attached bit if bit 0 of the word is set, and changes nothing else of IPL or memory. -/
theorem exec_out_ipl (rd : Reg) (hio : ioAllowed s.flag = true) :
    ∃ t, exec (.outPort rd (.direct 0xA0)) s = .next t ∧ t.mem = s.mem ∧
      t.ipl = { s.ipl with attached := s.ipl.attached && !(readReg s rd).getLsbD 0 } :=
  ⟨_, execOut_ready hio (by rw [portAddr]; decide), by simp, by rw [State.ipl_withPc, ioWrite_ipl]; exact if_pos rfl⟩

end

/-- Settles O46, write by write; the detaching is `exec_out_ipl`. -/
theorem iplOverlayRule : Obligations.IplOverlayRule := by
  refine ⟨fun s a b => byteAt_attached, fun rd m s hmmu heven h => ?store,
    fun s hmmu heven h => ⟨fun rd hsp husp => ?push,
    fun t => ?call⟩, fun c spc s => trapEntry_overlaid c spc, fun s => step_dma_or_clear, fun rd s hio hbit => ?detach,
    fun rd s hio hbit => ?keep⟩
  case store => rw [exec_st, storeForm_overlaid _ hmmu heven h, orRaise_fault]
  case push => rw [exec_push (isActiveSp_eq_false hsp husp), pushWord_overlaid _ hmmu heven h, orRaise_fault]
  case call => rw [exec_call, pushWord_overlaid _ hmmu heven h, orRaise_fault]
  case detach =>
    obtain ⟨t, ht, hmem, hipl⟩ := exec_out_ipl rd hio
    have hdetached : t.ipl.attached = false := by rw [hipl, hbit, Bool.not_true, Bool.and_false]
    exact ⟨t, ht, hdetached, fun a => hmem ▸ byteAt_detached hdetached a⟩
  case keep =>
    obtain ⟨t, ht, -, hipl⟩ := exec_out_ipl rd hio
    exact ⟨t, ht, by rw [hipl, hbit, Bool.not_false, Bool.and_true]⟩

end Sys2Proof.Proofs.OverlayRules

/-! PROOFS. Accesses with the MMU on (R57 to R59, R202, R203, R209, R217, R221): each access of an instruction and of a trap
entry is a case split over what translate answers, and the instructions follow. -/

namespace Sys2Proof.Proofs.MmuRules

open Sys2Proof Sys2Proof.Machine Sys2Proof.Proofs.LoadStoreRules Sys2Proof.Proofs.StackRules
  Sys2Proof.Proofs.ArithmeticRules

/-! The accesses of an instruction. -/

section
variable {s : State} (a pcn : Word)

theorem readByte_orRaise_on (kind : AccessKind) (hon : s.mmu.on = true) (k : Byte → Result) :
    (readByte s kind a).orRaise pcn s k = underMmu kind a pcn s fun pa => k (byteAt s pa) := by
  rw [readByte, translateAddr_on kind a hon, underMmu]
  cases Config.translate s.flag.p kind a s.mmu.tlb <;> rfl

theorem readWord_orRaise_on (kind : AccessKind) (hon : s.mmu.on = true) (k : Word → Result) :
    (readWord s kind a).orRaise pcn s k = wordLoadUnderMmu kind a pcn s k := by
  rw [readWord, translateAddr_on kind a hon, wordLoadUnderMmu, underMmu]
  cases Config.translate s.flag.p kind a s.mmu.tlb with
  | frame f => cases isOdd a <;> rfl
  | tlbMiss => rfl
  | violation => rfl

theorem writeByte_orRaise_on (b : Byte) (hon : s.mmu.on = true) (k : State → Result) :
    (writeByte s a b).orRaise pcn s k =
      underMmu .write a pcn s fun pa => if overlaid s pa then .fault .iplWrite else k (putByte s pa b) := by
  rw [writeByte, translateAddr_on .write a hon, underMmu]
  cases Config.translate s.flag.p .write a s.mmu.tlb with
  | frame f => cases h : overlaid s (inFrame f a) <;> simp [h]
  | tlbMiss => rfl
  | violation => rfl

theorem writeWord_orRaise_on (v : Word) (hon : s.mmu.on = true) (k : State → Result) :
    (writeWord s a v).orRaise pcn s k = wordStoreUnderMmu a pcn s fun pa => k (putWord s pa v) := by
  rw [writeWord, translateAddr_on .write a hon, wordStoreUnderMmu, underMmu]
  cases Config.translate s.flag.p .write a s.mmu.tlb with
  | frame f =>
    simp only [← Bool.or_eq_true]
    cases isOdd a
    · cases overlaid s (inFrame f a) || overlaid s (inFrame f a + 1) <;> simp
    · rfl
  | tlbMiss => rfl
  | violation => rfl

end

section
variable {s : State}

/-- A memory form read with the MMU on. -/
theorem loadForm_orRaise_on (m : MemForm) (hon : s.mmu.on = true) (k : Word → Result) :
    (loadForm s m).orRaise (nextPc s m.isLong) s k = loadUnderMmu s m k := by
  rw [nextPc_eq, loadUnderMmu]
  cases hb : isByteForm m with
  | true =>
    rw [if_pos rfl, ← readByte_orRaise_on _ _ .read hon fun b => k (zextByte b)]
    simp only [loadForm, hb, if_true]
    cases readByte s .read (effectiveAddr s m) <;> rfl
  | false =>
    rw [if_neg Bool.false_ne_true, ← readWord_orRaise_on _ _ .read hon]
    simp [loadForm, hb]

/-- A push with the MMU on: the stack pointer moves with the write. -/
theorem pushWord_orRaise_on (v pcn : Word) (hon : s.mmu.on = true) (k : State → Result) :
    (pushWord s v).orRaise pcn s k = wordStoreUnderMmu (readReg s .sp - 2) pcn s fun pa =>
      k (writeReg (putWord s pa v) .sp (readReg s .sp - 2)) := by
  rw [← writeWord_orRaise_on _ pcn v hon fun s' => k (writeReg s' .sp (readReg s .sp - 2)), pushWord]
  cases writeWord s (readReg s .sp - 2) v <;> rfl

theorem popWord_orRaise_on (pcn : Word) (hon : s.mmu.on = true) (k : Word × State → Result) :
    (popWord s).orRaise pcn s k = wordLoadUnderMmu .read (readReg s .sp) pcn s fun v =>
      k (v, writeReg s .sp (readReg s .sp + 2)) := by
  rw [← readWord_orRaise_on _ pcn .read hon, popWord]
  cases readWord s .read (readReg s .sp) <;> rfl

end

/-! The flag-changing instructions: with the MMU on an operand in memory does what it would as an immediate. -/

/-- A register write does not look at the PC. -/
theorem writeReg_withPc (s : State) (r : Reg) (v pc : Word) : writeReg (s.withPc pc) r v = (writeReg s r v).withPc pc := by
  cases r with
  | sp => cases hp : s.flag.p <;> simp [writeReg, hp] <;> rfl
  | _ => rfl

theorem readReg_withPc (s : State) (r : Reg) (pc : Word) : readReg (s.withPc pc) r = readReg s r := readReg_congr r rfl rfl

theorem withPc_withPc (s : State) (pc pc' : Word) : (s.withPc pc).withPc pc' = s.withPc pc' := rfl

/-- An immediate takes a word of its own, so that the instruction starts 4 before the address it leaves. -/
theorem aluNext_withPc (o : AluOut) (store : Bool) (rd : Reg) (long : Bool) (s : State) :
    aluNext o store rd true (s.withPc (s.pc + (if long then 4 else 2) - 4)) = aluNext o store rd long s := by
  have hpc : s.pc + (if long then 4 else 2) - 4 + 4 = s.pc + if long then 4 else 2 := BitVec.sub_add_cancel _ _
  have hflags : ∀ pc, applyFlags o (s.withPc pc) = (applyFlags o s).withPc pc := fun _ => rfl
  cases store <;>
    simp only [aluNext, nextPc_eq, State.pc_withPc, hflags, writeReg_withPc, withPc_withPc, if_true, hpc,
      Bool.false_eq_true, if_false]

theorem aluOp_eq {f : Word → Word → AluOut} {store : Bool} {rd : Reg} (hrd : rd ≠ .flag) (src : Operand) (s : State) :
    aluOp f store rd src s = (readOperand s src).orRaise (nextPc s src.isLong) s fun b =>
      .next (aluNext (f (readReg s rd) b) store rd src.isLong s) := if_neg hrd

theorem divideOp_eq {f : Word → Word → AluOut} {rd : Reg} (hrd : rd ≠ .flag) (src : Operand) (s : State) :
    divideOp f rd src s = (readOperand s src).orRaise (nextPc s src.isLong) s fun b =>
      if b = 0 then trapEntry .zeroDivide (savedPcOther s.pc (nextPc s src.isLong)) s
      else .next (aluNext (f (readReg s rd) b) true rd src.isLong s) := if_neg hrd

theorem aluOp_mem_on {f : Word → Word → AluOut} {store : Bool} {rd : Reg} {m : MemForm} {s : State} (hrd : rd ≠ .flag)
    (hon : s.mmu.on = true) :
    aluOp f store rd (.mem m) s = loadUnderMmu s m fun v =>
      aluOp f store rd (.imm v) (s.withPc (s.pc + (if m.isLong then 4 else 2) - 4)) := by
  rw [aluOp_eq hrd, readOperand, Operand.isLong, loadForm_orRaise_on m hon]
  congr 1
  funext v
  rw [aluOp_eq hrd, readOperand, orRaise_ok, Operand.isLong, aluNext_withPc, readReg_withPc]

theorem divideOp_mem_on {f : Word → Word → AluOut} {rd : Reg} {m : MemForm} {s : State} (hrd : rd ≠ .flag)
    (hon : s.mmu.on = true) :
    divideOp f rd (.mem m) s = loadUnderMmu s m fun v =>
      if v = 0 then trapEntry .zeroDivide (savedPcOther s.pc (s.pc + if m.isLong then 4 else 2)) s
      else divideOp f rd (.imm v) (s.withPc (s.pc + (if m.isLong then 4 else 2) - 4)) := by
  rw [divideOp_eq hrd, readOperand, Operand.isLong, loadForm_orRaise_on m hon]
  congr 1
  funext v
  split
  case isTrue => rw [nextPc_eq]
  case isFalse hv =>
    rw [divideOp_eq hrd, readOperand, orRaise_ok, if_neg hv, Operand.isLong, aluNext_withPc, readReg_withPc]

/-! The store, the fetch and the trap entry. -/

theorem exec_st_on (rd : Reg) (m : MemForm) {s : State} (hon : s.mmu.on = true) :
    exec (.st rd m) s =
      if isByteForm m then
        underMmu .write (effectiveAddr s m) (s.pc + if m.isLong then 4 else 2) s fun pa =>
          if overlaid s pa then .fault .iplWrite
          else .next ((putByte s pa (loByte (readReg s rd))).withPc (s.pc + if m.isLong then 4 else 2))
      else
        wordStoreUnderMmu (effectiveAddr s m) (s.pc + if m.isLong then 4 else 2) s fun pa =>
          .next ((putWord s pa (readReg s rd)).withPc (s.pc + if m.isLong then 4 else 2)) := by
  rw [exec_st, nextPc_eq, storeForm]
  split
  case isTrue => exact writeByte_orRaise_on _ _ _ hon _
  case isFalse => exact writeWord_orRaise_on _ _ _ hon _

/-- The fetch as accesses of the instruction. -/
theorem runAction_fetchInstr_eq (s : State) :
    runAction (fetchInstr s) = (readWord s .fetch s.pc).orRaise (unfetchedNext s) s fun w1 =>
      match decodeFirst w1 with
      | .error r => onReject r s
      | .ok (.complete i) => exec i s
      | .ok (.needsSecond finish) =>
        if (finish 0).flagChangingRd = some .flag then .refused .flagDestination
        else (readWord s .fetch (s.pc + 2)).orRaise (nextPc s true) s fun w2 => exec (finish w2) s := by
  unfold fetchInstr
  cases readWord s .fetch s.pc with
  | fault f => rfl
  | trap t => rfl
  | ok w1 =>
    rw [orRaise_ok]
    rcases hd : decodeFirst w1 with r | i | finish
    · simp only [hd]; rfl
    · simp only [hd]; rfl
    · by_cases hflag : (finish 0).flagChangingRd = some .flag
      · simp only [hd, refusesFlag, hflag, decide_true, if_true]; rfl
      · simp only [hd, refusesFlag, hflag, decide_false, Bool.false_eq_true, if_false]
        cases readWord s .fetch (s.pc + 2) <;> rfl

/-- An access of a trap entry is made in privileged mode, with the MMU registers of before. -/
theorem writeWord_inEntry_on {s u : State} (a v : Word) (hon : s.mmu.on = true) (hp : u.flag.p = true)
    (hmmu : u.mmu = s.mmu) (hipl : u.ipl = s.ipl) (k : State → Result) :
    (writeWord u a v).inEntry k = entryAccess .write a s fun pa =>
      if overlaid s pa ∨ overlaid s (pa + 1) then .fault .iplWrite else k (putWord u pa v) := by
  rw [writeWord, translateAddr_on .write a (hmmu ▸ hon), hp, hmmu, entryAccess]
  cases Config.translate true .write a s.mmu.tlb with
  | frame f =>
    simp only [overlaid_congr _ hipl, ← Bool.or_eq_true]
    cases isOdd a
    · cases overlaid s (inFrame f a) || overlaid s (inFrame f a + 1) <;> rfl
    · rfl
  | tlbMiss => rfl
  | violation => rfl

theorem readWord_inEntry_on {s u : State} (a : Word) (hon : s.mmu.on = true) (hp : u.flag.p = true)
    (hmmu : u.mmu = s.mmu) (k : Word → Result) :
    (readWord u .read a).inEntry k = entryAccess .read a s fun pa => k (wordAt u pa) := by
  rw [readWord, translateAddr_on .read a (hmmu ▸ hon), hp, hmmu, entryAccess]
  cases Config.translate true .read a s.mmu.tlb with
  | frame f => cases isOdd a <;> rfl
  | tlbMiss => rfl
  | violation => rfl

theorem trapEntry_on (c : Cause) (spc : Word) {s : State} (hon : s.mmu.on = true) :
    trapEntry c spc s = entryUnderMmu c.vector spc s := by
  rw [trapEntry, entryUnderMmu, writeWord_inEntry_on _ _ hon]
  case hp | hmmu | hipl => rfl
  congr 1
  funext pa
  split
  case isTrue => rfl
  rw [writeWord_inEntry_on _ _ hon, sub_two_sub_two]
  case hp | hmmu | hipl => rfl
  congr 1
  funext pb
  split
  case isTrue => rfl
  rw [readWord_inEntry_on _ hon]
  case hp | hmmu => rfl
  rfl

/-- Settles O50, clause by clause from the accesses above. -/
theorem mmuTranslatesLoads : Obligations.MmuTranslatesLoads := by
  refine ⟨fun rd m s hon => ?ld, fun mk hmk rd m s hrd hon => ?alu, fun mk hmk rd m s hrd hon => ?divide,
    fun rd m s => exec_st_on rd m, fun t s hon => ?call, fun rd s hsp husp hon => ⟨?push, ?pop⟩,
    fun s hon => ⟨?ret, ?reti⟩,
    fun s hrun hidle hquiet hon => ?fetch, fun c spc s => trapEntry_on c spc⟩
  case ld =>
    rw [exec_ld, readOperand, Operand.isLong, loadForm_orRaise_on m hon, nextPc_eq]
  case alu =>
    obtain ⟨f, store, hexec⟩ := DivisionRules.exec_eq_aluOp mk hmk
    simp only [hexec]
    exact aluOp_mem_on hrd hon
  case divide =>
    obtain ⟨f, hexec⟩ := DivisionRules.exec_eq_divideOp mk hmk
    simp only [hexec]
    exact divideOp_mem_on hrd hon
  case call => rw [exec_call, pushWord_orRaise_on _ _ hon]
  case push => rw [exec_push (isActiveSp_eq_false hsp husp), pushWord_orRaise_on _ _ hon]
  case pop => rw [exec_pop (isActiveSp_eq_false hsp husp), popWord_orRaise_on _ hon]
  case ret =>
    rw [ReturnRules.exec_ret, popWord_orRaise_on _ hon]
    rfl
  case reti =>
    simp only [TrapRules.exec_reti, readWord_orRaise_on _ _ .read hon]
  case fetch =>
    rw [FetchRules.step_idle hrun hidle hquiet, runAction_fetchInstr_eq, readWord_orRaise_on _ _ .fetch hon, unfetchedNext,
      nextPc_eq]
    congr 1
    funext w1
    rcases decodeFirst w1 with r | i | finish
    · rfl
    · rfl
    · simp only [readWord_orRaise_on _ _ .fetch hon]
      rfl

end Sys2Proof.Proofs.MmuRules
